-- ==== Sys2Proof/Word.lean ====
section
/-! DEFINITION. Word types of the codec block: bytes, the small fields of the response beat, identifiers
(spec/00_scope.md section 6.1, spec/30_encoding.md R90). -/

namespace Sys2Proof

/-- A byte, an integer 0 to 255; bit 0 is its least significant bit (00_scope.md 6.1). -/
abbrev Byte := BitVec 8

/-- A 4-bit field: `STATUS` and `TT` of the `DONE` beat (R90). -/
abbrev Nibble := BitVec 4

/-- A 32-bit field: `VALUE` of the `DONE` beat (R90) and the pattern of a `float32` (R84). -/
abbrev Word32 := BitVec 32

/-- An identifier: an entry's name, a bitfield type's name, a flag name, the tag of an unknown type.
Opaque, compared only for equality (decision D12). The empty identifier is the empty string. -/
abbrev Ident := String

end Sys2Proof
end

