-- ==== Sys2Proof/Config.lean ====
section
/-! DEFINITION. What an instantiation of the codec block fixes: the constants of R10, the shapes of the
constant tables (spec/10_state.md R23 to R29), and the open parameters as constants without a body. -/

namespace Sys2Proof

/-- The five scalar types of the Type Registry (R23): a closed, fixed enumeration. -/
inductive ScalarType where
  | uint8
  | uint16
  | int16
  | uint32
  | float32
deriving DecidableEq, Repr, Inhabited

/-- `TypeRef`, the type reference of a register map's entry (R28). The selector is 8 bits wide because
the `BFSEL` field that carries it is (R90); DEDUCED, safe, log entry 8. -/
inductive TypeRef where
  /-- One of the five scalar types. -/
  | scalar (s : ScalarType)
  /-- The bitfield type `BF_TABLE[sel]`. -/
  | bitfield (sel : Byte)
  /-- A type name with no known decoder; the tag is an opaque label. -/
  | unknown (tag : Ident)
deriving DecidableEq, Repr, Inhabited

/-- `RegistryEntry = (name, type)` (R25). -/
structure RegistryEntry where
  name : Ident
  type : TypeRef
deriving DecidableEq, Repr, Inhabited

/-- A bitfield type: a name and its ordered flag names; a flag's bit position is its index (R24). -/
structure BitfieldType where
  name : Ident
  flags : List Ident
deriving DecidableEq, Repr, Inhabited

/-- A register map, a partial function from register identifiers 0 to 255 to entries (R25), as its
graph in one canonical form: identifiers strictly rising (see `RegMap.wf`). -/
abbrev RegMap := List (Byte × RegistryEntry)

/-- Which of the two register maps a command selects (R25, R27, R88: `MAP` 0 tile, 1 master). -/
inductive MapSel where
  | tile
  | master
deriving DecidableEq, Repr, Inhabited

/-- The constant tables of the block (R24, R25). The scalar part of the Type Registry is fixed by the
spec and is `ScalarType.width` of Machine/Operands.lean. -/
structure Tables where
  tileMap : RegMap
  masterMap : RegMap
  bfTable : List BitfieldType
deriving DecidableEq, Repr, Inhabited

/-- `CODE_ZERO`, the illegal code byte (R10). -/
abbrev Config.codeZero : Byte := 0x00

/-- `CODE_CONT`, the code byte of a block not followed by an implied zero (R10). -/
abbrev Config.codeCont : Byte := 0xFF

/-- `RUN_CAP`, the most data bytes in one block (R10, decision D1). -/
abbrev Config.runCap : Nat := 254

/-- `MSG_MIN`, the least message length that is decodable (R10, R182). -/
abbrev Config.msgMin : Nat := 2

/-- `BF_MAX_FLAGS`, the most flags in one bitfield type (R10, decision D11). -/
abbrev Config.bfMaxFlags : Nat := 32

/-- The identifier that no tile map defines (R26). -/
abbrev Config.tileUndefined : Byte := 0xFE

/-- A register map is in canonical form: identifiers strictly rising, hence each at most once (R25). -/
def RegMap.wf (m : RegMap) : Bool :=
  decide (m.Pairwise fun a b => a.1.toNat < b.1.toNat)

/-- A bitfield type is well-formed: at most 32 flags, names pairwise distinct (R28). -/
def BitfieldType.wf (t : BitfieldType) : Bool :=
  decide (t.flags.length ≤ Config.bfMaxFlags) && decide t.flags.Nodup

/-- A type reference is well-formed for a bitfield table: a selector is in range (R28). -/
def TypeRef.wf (bf : List BitfieldType) : TypeRef → Bool
  | .scalar _ => true
  | .bitfield sel => decide (sel.toNat < bf.length)
  | .unknown _ => true

/-- Well-formedness of the tables (R28), the premise every rule may take. -/
def Tables.wf (t : Tables) : Bool :=
  RegMap.wf t.tileMap && RegMap.wf t.masterMap &&
  t.tileMap.all (fun e => e.2.type.wf t.bfTable) &&
  t.masterMap.all (fun e => e.2.type.wf t.bfTable) &&
  t.bfTable.all BitfieldType.wf &&
  (t.tileMap.lookup Config.tileUndefined).isNone

/-- Tables with nothing in them: well-formed, used only to make `Config.tables` well-formed. -/
def Tables.empty : Tables := ⟨[], [], []⟩

/-- FREE VALUE (parameters `TILE_MAP`, `MASTER_MAP`, `BF_TABLE`, decision D13: OPEN). No body: nothing
can be proved of the contents. Log entry 1. -/
opaque Config.rawTables : Tables

/-- The tables of this instantiation: any well-formed tables whatever (R28, R243). Log entry 1. -/
def Config.tables : Tables :=
  if Config.rawTables.wf then Config.rawTables else Tables.empty

/-- FREE VALUE: how far `MAX_LEN` lies above 2 (decision D14: OPEN, any natural number from 2 on). No
body. Log entry 2. -/
opaque Config.maxLenAboveTwo : Nat

/-- `MAX_LEN`, the most `DATA` beats one transaction accepts: any natural number ≥ 2 (R10, R249). -/
def Config.maxLen : Nat := Config.maxLenAboveTwo + 2

end Sys2Proof
end

