-- ==== Sys2Proof/Syntax.lean ====
section
/-! DEFINITION. The instructions of the codec block: one constructor per row of spec/opcode_table.json
(spec/30_encoding.md R97). The table has three groups, each an encoding space of its own. -/

namespace Sys2Proof

/-- The format a word is read in. A word's meaning depends on where it stands, never on its value alone
(R76): the three groups of the opcode table overlap as numbers. -/
inductive Format where
  /-- A code byte of a stuffed frame (R72). -/
  | stuff
  /-- The command word of a `CMD` beat (R88). -/
  | cmd
  /-- The type tag of a register map's entry, with its `BFSEL` (R90, R92). -/
  | tt
deriving DecidableEq, Repr, Inhabited

/-- The instructions, in the order of spec/opcode_table.json. -/
inductive Instr where
  /-- `BLK.ILL`, code byte 0x00 (R133). -/
  | blkIll
  /-- `BLK.LINK`, code byte `c`, 0x01 to 0xFE (R132). -/
  | blkLink (c : Byte)
  /-- `BLK.CONT`, code byte 0xFF (R134). -/
  | blkCont
  /-- `FENC`, byte-stuff a byte sequence (R110). -/
  | fenc
  /-- `FDEC`, remove byte-stuffing from one frame (R130). -/
  | fdec
  /-- `RDEC.T`, decode a message against the tile map (R180). -/
  | rdecT
  /-- `RDEC.M`, decode a message against the master map (R180). -/
  | rdecM
  /-- `RXDEC.T`, decode a stuffed frame against the tile map (R190). -/
  | rxdecT
  /-- `RXDEC.M`, decode a stuffed frame against the master map (R190). -/
  | rxdecM
  /-- `RSVD.CMD`, any command word but the six legal ones (R225). -/
  | rsvdCmd (w : Byte)
  /-- `TD.U8`, decode a `uint8` (R150). -/
  | tdU8
  /-- `TD.U16`, decode a `uint16` (R151). -/
  | tdU16
  /-- `TD.I16`, decode an `int16` (R152). -/
  | tdI16
  /-- `TD.U32`, decode a `uint32` (R153). -/
  | tdU32
  /-- `TD.F32`, decode a `float32` (R154). -/
  | tdF32
  /-- `TD.BF`, decode a bitfield of the type `BF_TABLE[sel]` (R155). -/
  | tdBf (sel : Byte)
  /-- `TD.RAW`, the fallback for a type with no known decoder (R160). -/
  | tdRaw
deriving DecidableEq, Repr, Inhabited

end Sys2Proof
end

