-- ==== Sys2Proof/Machine/State.lean ====
section
/-! DEFINITION. The state of one instance of the codec block (spec/10_state.md R20 to R41), the beats on
its two ports, the abstract outcomes (spec/00_scope.md 6.4), the reasons a step stops, and reset. -/

namespace Sys2Proof.Machine

/-- The cause of a hard failure (00_scope.md 6.4, R211). -/
inductive Cause where
  | zeroCode
  | truncated
deriving DecidableEq, Repr, Inhabited

/-- The error of a soft failure (00_scope.md 6.4, decision D7). -/
inductive SoftError where
  | unknownRegister (id : Byte)
  | shortPayload (required : Nat)
deriving DecidableEq, Repr, Inhabited

/-- A decoded value (00_scope.md 6.4). -/
inductive Value where
  /-- `uint8`, `uint16`, `int16`, `uint32`: an exact integer (decision D9). -/
  | num (v : Int)
  /-- `float32`: the 32-bit pattern, never interpreted (decision D10). -/
  | f32 (bits : Word32)
  /-- A bitfield: flag names with their booleans, in declaration order. -/
  | flags (fs : List (Ident × Bool))
  /-- The raw fallback (decision D17). -/
  | raw (bs : List Byte)
deriving DecidableEq, Repr, Inhabited

/-- A decoded record, success or failure form (00_scope.md 6.4). -/
inductive Record where
  | ok (register : Byte) (name : Ident) (value : Value)
  | err (register : Byte) (error : SoftError)
deriving DecidableEq, Repr, Inhabited

/-- Why a request is outside the admitted set (R225, decision D25). -/
inductive RefusedWhy where
  | cmd
  | length
deriving DecidableEq, Repr, Inhabited

/-- The abstract outcome of a transaction (00_scope.md 6.4, R210). `refused` is the block's own answer
to a request outside the admitted set, not a refusal of the model. -/
inductive CodecOutcome where
  | bytes (bs : List Byte)
  | hardFail (cause : Cause)
  | null
  | record (r : Record)
  | refused (why : RefusedWhy)
deriving DecidableEq, Repr, Inhabited

/-- The fields of a `DONE` beat (R90). -/
structure Done where
  status : Nibble
  reg : Byte
  info : Byte
  tt : Nibble
  bfsel : Byte
  name : Ident
  value : Word32
deriving DecidableEq, Repr, Inhabited

/-- What the host applies to an instance, in order: the three `REQ` beats (R31), and reset, which is an
event and not a beat (R241). -/
inductive HostEvent where
  | cmd (w : Byte)
  | data (b : Byte)
  | endIn
  | reset
deriving DecidableEq, Repr, Inhabited

/-- What the host has seen, in order: the two `RSP` beats (R31), and where the resets it applied itself
fell among them, so that the void `OUT` beats of an abandoned transaction (R242) can be told apart. -/
inductive RspEvent where
  | out (b : Byte)
  | done (d : Done)
  | resetSeen
deriving DecidableEq, Repr, Inhabited

/-- `phase` (R36); `opened` is the spec's OPEN. -/
inductive Phase where
  | idle
  | opened
deriving DecidableEq, Repr, Inhabited

/-- `op`, the operation of the open transaction (R36). A transaction opened by a reserved command word
keeps that word: it runs to its END and is answered `Refused(CMD)` (R225). -/
inductive Op where
  | fenc
  | fdec
  | rdec
  | rxdec
  | rsvd (w : Byte)
deriving DecidableEq, Repr, Inhabited

/-- The type decode between the map lookup and `DONE` (R181, R159): the identifier, the payload and the
entry the lookup found. -/
structure TypeJob where
  reg : Byte
  payload : List Byte
  entry : RegistryEntry
deriving DecidableEq, Repr, Inhabited

/-- The state of one instance. The first two fields are the constants of the instantiation, which the
spec takes as parameters and which nothing writes (R29, log entries 1, 2); `phase` to `msg` are the working
state of R36 to R39 under the spec's names; `overLength` is R225 (2) (log entry 4); `job`, `req` and `rsp`
are the model's own: the type decode under way, the beats the host offers, the beats the block has sent (log
entries 5, 6, 7). -/
structure State where
  /-- `TILE_MAP`, `MASTER_MAP`, `BF_TABLE` (R24, R25). -/
  tables : Tables
  /-- `MAX_LEN` (R10). -/
  maxLen : Nat
  /-- `phase` (R36). -/
  phase : Phase
  /-- `op` (R36). -/
  op : Op
  /-- `map` (R36). -/
  map : MapSel
  /-- `count`, the `DATA` beats received so far (R36). -/
  count : Nat
  /-- `run`, the encoder's pending non-zero bytes (R37). -/
  run : List Byte
  /-- `after_full` (R37). -/
  afterFull : Bool
  /-- `rem`, the data bytes still owed by the current block, 0 to 254 (R38). -/
  rem : Nat
  /-- `pz`, pending zero (R38). -/
  pz : Bool
  /-- `err`; `none` is the spec's NONE (R38). -/
  err : Option Cause
  /-- `msg`, the message bytes collected so far (R39). -/
  msg : List Byte
  /-- More than `MAX_LEN` `DATA` beats have arrived: the answer will be `Refused(LENGTH)` (R225). -/
  overLength : Bool
  /-- The type decode under way between END and DONE (R181, R255); every step leaves it `none`, because END
  and DONE are one transition (R188, R193, log entry 5). -/
  job : Option TypeJob
  /-- What the host offers on `REQ`, oldest first (R30, R31). -/
  req : List HostEvent
  /-- What the block has sent on `RSP`, oldest first (R30, R31). -/
  rsp : List RspEvent
deriving DecidableEq, Repr, Inhabited

/-- Lean-level faults of a step: there are none. Every failure the spec describes is delivered in-band,
as the outcome of its transaction, and the block goes on (R210, R222, R223; no state is stuck,
93_implementation_defined.md). Safe. -/
inductive Fault where
deriving DecidableEq, Repr

/-- Why the model takes no step. Apart from the first and the last two, each is a beat sequence or a
table to which the spec gives no meaning and which it tells a model to refuse (R248, U13, U17). -/
inductive Refusal where
  /-- Raised by `exec` for an instruction without a meaning; no arm raises it. Safe. -/
  | notModelled (mnemonic : String)
  /-- A `DATA` beat in phase IDLE: a protocol violation (R248). Raised by `step` and by the command
  meanings. Safe. -/
  | dataWhileIdle
  /-- An `END` beat in phase IDLE: a protocol violation (R248). Raised as `dataWhileIdle`. Safe. -/
  | endWhileIdle
  /-- A `CMD` beat in phase OPEN: a protocol violation (R248). Raised by the command meanings. Safe. -/
  | cmdWhileOpen
  /-- A `DATA` beat, or a second `END`, after `END` and before `DONE`: a protocol violation (R248, R32).
  Raised by `step` and by the command meanings. Safe. -/
  | beatAfterEnd
  /-- A bitfield selector out of range, or a bitfield type with more than 32 flags or with a name twice:
  tables that are not well-formed (R28, U13). Raised by `TD.BF`. Safe. -/
  | malformedTables
  /-- A code byte or a type tag executed where the block fetches none (R76): no step raises it. Raised by
  the `BLK` and `TD` meanings. Safe. -/
  | outOfPosition
  /-- Bytes that are no instruction of their format: no step raises it. Raised by `step`. Safe. -/
  | undecodable
deriving DecidableEq, Repr

/-- The machine right after reset (R41, R241): phase IDLE; the tables and `MAX_LEN` of the instantiation;
every unspecified cell at its initial value of R37 to R39, as R41 allows; `op`, `map` and `count`, for
which the spec names no initial value, at the first value of their range (DESIGN CHOICE, unsafe, log
entry 3); nothing offered and nothing sent. -/
def State.reset : State where
  tables := Config.tables
  maxLen := Config.maxLen
  phase := .idle
  op := .fenc
  map := .tile
  count := 0
  run := []
  afterFull := false
  rem := 0
  pz := false
  err := none
  msg := []
  overLength := false
  job := none
  req := []
  rsp := []

end Sys2Proof.Machine
end

