-- ==== Sys2Proof/Machine/Operands.lean ====
section
/-! DEFINITION. Operands: the little-endian read of the payload, the table lookups, the type decoders'
values, and the framer's block arithmetic (spec/20_memory.md R50 to R57, spec/30_encoding.md R70 to R87,
spec/42_typed_field_decode.md). -/

namespace Sys2Proof.Machine

/-! ### Bytes as integers -/

/-- The little-endian unsigned integer of a byte sequence (R52): the first byte is least significant. -/
def leNat : List Byte → Nat
  | [] => 0
  | b :: bs => b.toNat + 256 * leNat bs

/-- `MemRead(PAY, a, n)`: the `n` payload bytes at offset `a`, little-endian (R53). The spec defines it
where `a + n ≤ len(p)`, and every use checks that first. -/
def memRead (p : List Byte) (a n : Nat) : Nat := leNat ((p.drop a).take n)

/-- `signed_16(u)`, the two's-complement reading of a 16-bit pattern (R82, R152). -/
def signed16 (u : Nat) : Int := if u < 32768 then (u : Int) else (u : Int) - 65536

/-- `ceil(n / 8)`, the payload bytes of a bitfield with `n` flags (R85). -/
def flagBytes (n : Nat) : Nat := (n + 7) / 8

/-! ### Table lookups -/

/-- The table that a map selection names (R27: two distinct constants). -/
def tableOf (t : Tables) : MapSel → RegMap
  | .tile => t.tileMap
  | .master => t.masterMap

/-- `MapLookup(M, id)`: the entry at an identifier, or `none`; it always answers (R55). -/
def mapLookup (t : Tables) (m : MapSel) (id : Byte) : Option RegistryEntry :=
  (tableOf t m).lookup id

/-- `BfLookup(sel)`: the flag names of `BF_TABLE[sel]` (R56). `none` where R28's premise fails: the
selector is out of range or the type is not well-formed (U13). -/
def bfLookup (t : Tables) (sel : Byte) : Option (List Ident) :=
  match t.bfTable[sel.toNat]? with
  | some b => if b.wf then some b.flags else none
  | none => none

/-! ### Type decoders (family 3) -/

/-- The byte width of a scalar type (R23). -/
def scalarWidth : ScalarType → Nat
  | .uint8 => 1
  | .uint16 => 2
  | .int16 => 2
  | .uint32 => 4
  | .float32 => 4

/-- A decoder with a required byte count `w`: the short-payload check, then the value of the leading `w`
bytes; trailing bytes are ignored (R156, R157). -/
def fixedWidth (w : Nat) (value : Nat → Value) (p : List Byte) : Except SoftError Value :=
  if p.length < w then .error (.shortPayload w) else .ok (value (memRead p 0 w))

/-- `TD.U8` (R150). -/
def decodeU8 (p : List Byte) : Except SoftError Value :=
  fixedWidth (scalarWidth .uint8) (fun u => .num u) p

/-- `TD.U16` (R151). -/
def decodeU16 (p : List Byte) : Except SoftError Value :=
  fixedWidth (scalarWidth .uint16) (fun u => .num u) p

/-- `TD.I16` (R152). -/
def decodeI16 (p : List Byte) : Except SoftError Value :=
  fixedWidth (scalarWidth .int16) (fun u => .num (signed16 u)) p

/-- `TD.U32` (R153). -/
def decodeU32 (p : List Byte) : Except SoftError Value :=
  fixedWidth (scalarWidth .uint32) (fun u => .num u) p

/-- `TD.F32`: the pattern, unchanged (R154). -/
def decodeF32 (p : List Byte) : Except SoftError Value :=
  fixedWidth (scalarWidth .float32) (fun u => .f32 (BitVec.ofNat 32 u)) p

/-- Flag `i` is bit `i` of the combined integer (R85, R155). -/
def flagValues (flags : List Ident) (integer : Nat) : List (Ident × Bool) :=
  flags.zipIdx.map fun f => (f.1, (integer >>> f.2) % 2 == 1)

/-- `TD.BF(flags, p)` (R155). -/
def decodeBf (flags : List Ident) (p : List Byte) : Except SoftError Value :=
  fixedWidth (flagBytes flags.length) (fun u => .flags (flagValues flags u)) p

/-- `TD.RAW`: all payload bytes, in order; it never fails (R160). -/
def decodeRaw (p : List Byte) : Except SoftError Value := .ok (.raw p)

/-- `TypeDecode(t, p)` (R159). `none` where the bitfield selector has no well-formed type (U13). -/
def typeDecode (tb : Tables) (t : TypeRef) (p : List Byte) : Option (Except SoftError Value) :=
  match t with
  | .bitfield sel => (bfLookup tb sel).map fun flags => decodeBf flags p
  | .scalar .uint8 => some (decodeU8 p)
  | .scalar .uint16 => some (decodeU16 p)
  | .scalar .int16 => some (decodeI16 p)
  | .scalar .uint32 => some (decodeU32 p)
  | .scalar .float32 => some (decodeF32 p)
  | .unknown _ => some (decodeRaw p)

/-- The required byte count `w` of a type (R156, R166): a scalar's width, or `ceil(n/8)` for a bitfield;
`none` for an unknown type, which has no width, and for a selector without a well-formed type. -/
def requiredBytes (tb : Tables) : TypeRef → Option Nat
  | .scalar s => some (scalarWidth s)
  | .bitfield sel => (bfLookup tb sel).map fun flags => flagBytes flags.length
  | .unknown _ => none

/-! ### The consumer's reading of a `float32` pattern -/

/-- The numeric reading of a pattern (R162): a NaN, a signed infinity, or `(-1)^s * m * 2^e` with an
integer significand `m`. -/
inductive F32Reading where
  | nan
  | infinity (negative : Bool)
  | finite (negative : Bool) (m : Nat) (e : Int)
deriving DecidableEq, Repr, Inhabited

/-- R162, for the consumer of a record; the block itself never applies it. PRESUMED (IEEE 754 binary32,
93_implementation_defined.md GK1), log entry 14. A normal `(1 + f / 2^23) * 2^(e - 127)` is written
`(2^23 + f) * 2^(e - 150)`. -/
def readF32 (bits : Word32) : F32Reading :=
  let s := bits.getLsbD 31
  let e := (bits.extractLsb' 23 8).toNat
  let f := (bits.extractLsb' 0 23).toNat
  if e = 255 then if f = 0 then .infinity s else .nan
  else if e = 0 then .finite s f (-149)
  else .finite s (2 ^ 23 + f) ((e : Int) - 150)

/-! ### Block arithmetic of the framer -/

/-- `run_length(c) = c - 1` for a code byte `c ≥ 1` (R73). -/
def runLength (c : Byte) : Nat := c.toNat - 1

/-- A block: the code byte `len(run) + 1`, then the run's bytes (R71, R73). -/
def blockOf (run : List Byte) : List Byte := BitVec.ofNat 8 (run.length + 1) :: run

end Sys2Proof.Machine
end

