-- ==== Sys2Proof/Machine/Flags.lean ====
section
/-! DEFINITION. The block has no flags (R22); its only condition information is the outcome, written once,
on the `DONE` beat. This file packs an outcome into the fields of that beat and reads it back, as the
host does (spec/30_encoding.md R90 to R93, spec/60_exceptions.md R211). -/

namespace Sys2Proof.Machine

/-- The type tag `TT` of a type reference (R92). -/
def typeTag : TypeRef → Nibble
  | .scalar .uint8 => 0x0
  | .scalar .uint16 => 0x1
  | .scalar .int16 => 0x2
  | .scalar .uint32 => 0x3
  | .scalar .float32 => 0x4
  | .bitfield _ => 0x8
  | .unknown _ => 0xF

/-- The `BFSEL` of a type reference: valid for a bitfield, else zero (R90). -/
def typeSelector : TypeRef → Byte
  | .bitfield sel => sel
  | _ => 0

/-- The flags as an integer: bit `i` is flag `i` (R93). -/
def packFlags : List (Ident × Bool) → Nat
  | [] => 0
  | f :: fs => f.2.toNat + 2 * packFlags fs

/-- `VALUE[31:0]` (R93): an integer modulo 2^32 (so `int16` is sign-extended), a pattern unchanged, a
bitfield's flags, zero for a raw value. -/
def packValue : Value → Word32
  | .num v => BitVec.ofInt 32 v
  | .f32 bits => bits
  | .flags fs => BitVec.ofNat 32 (packFlags fs)
  | .raw _ => 0

/-- The `DONE` beat with every field but `STATUS` not valid, hence zero (R90). -/
def bareDone (status : Nibble) : Done := ⟨status, 0, 0, 0, 0, "", 0⟩

/-- `FAIL_<cause>` (R91). -/
def causeStatus : Cause → Nibble
  | .zeroCode => 0x8
  | .truncated => 0x9

/-- The `DONE` beat of an outcome (R90, R91, R211). The entry's `TT` and `BFSEL` stand beside the outcome
because the success record does not hold them. -/
def packDone (tt : Nibble) (bfsel : Byte) : CodecOutcome → Done
  | .bytes _ => bareDone 0x0
  | .record (.ok reg name v) => ⟨0x1, reg, 0, tt, bfsel, name, packValue v⟩
  | .null => bareDone 0x2
  | .record (.err reg (.unknownRegister id)) => ⟨0x4, reg, id, 0, 0, "", 0⟩
  | .record (.err reg (.shortPayload w)) => ⟨0x5, reg, BitVec.ofNat 8 w, 0, 0, "", 0⟩
  | .hardFail c => bareDone (causeStatus c)
  | .refused .cmd => bareDone 0xC
  | .refused .length => bareDone 0xD

/-- The bytes an outcome sends as `OUT` beats when it is reported: those of a raw value (R93). The bytes
of a `Bytes` outcome have been sent by then (R116, R139). -/
def reportBytes : CodecOutcome → List Byte
  | .record (.ok _ _ (.raw bs)) => bs
  | _ => []

/-! ### The host's reading of a response -/

/-- The value the consumer recovers from `TT`, `BFSEL`, `VALUE` and the `OUT` bytes (R93); `none` for a
tag that is never produced or a selector without a type. -/
def unpackValue (tb : Tables) (tt : Nibble) (bfsel : Byte) (value : Word32) (outs : List Byte) :
    Option Value :=
  if tt = 0x0 ∨ tt = 0x1 ∨ tt = 0x3 then some (.num value.toNat)
  else if tt = 0x2 then some (.num value.toInt)
  else if tt = 0x4 then some (.f32 value)
  else if tt = 0x8 then (bfLookup tb bfsel).map fun flags => .flags (flagValues flags value.toNat)
  else if tt = 0xF then some (.raw outs)
  else none

/-- The outcome a `DONE` beat carries, with the `OUT` bytes of its transaction (R91). Where `STATUS[3]` is
set the `OUT` bytes are void and are discarded (R218, R246). `none` for a reserved `STATUS`. -/
def unpackDone (tb : Tables) (outs : List Byte) (d : Done) : Option CodecOutcome :=
  if d.status = 0x0 then some (.bytes outs)
  else if d.status = 0x1 then
    (unpackValue tb d.tt d.bfsel d.value outs).map fun v => .record (.ok d.reg d.name v)
  else if d.status = 0x2 then some .null
  else if d.status = 0x4 then some (.record (.err d.reg (.unknownRegister d.info)))
  else if d.status = 0x5 then some (.record (.err d.reg (.shortPayload d.info.toNat)))
  else if d.status = 0x8 then some (.hardFail .zeroCode)
  else if d.status = 0x9 then some (.hardFail .truncated)
  else if d.status = 0xC then some (.refused .cmd)
  else if d.status = 0xD then some (.refused .length)
  else none

/-- The outcomes in a sequence of responses, oldest first, with the `OUT` bytes since the last `DONE`
carried along; the bytes before a reset are void (R242). -/
def readOutcomes (tb : Tables) : List Byte → List RspEvent → List (Option CodecOutcome)
  | _, [] => []
  | outs, .out b :: r => readOutcomes tb (outs ++ [b]) r
  | outs, .done d :: r => unpackDone tb outs d :: readOutcomes tb [] r
  | _, .resetSeen :: r => readOutcomes tb [] r

/-- What the host makes of everything it has received (R32, R246). -/
def State.outcomes (s : State) : List (Option CodecOutcome) := readOutcomes s.tables [] s.rsp

end Sys2Proof.Machine
end

