-- ==== Sys2Proof/Machine/Framer.lean ====
section
/-! DEFINITION. The framer at the function level, which is the normative one (R11): `Enc` (R111), `Dec`
(R131), the literal encoder of the source for reference (R112), and the view of a frame as blocks (R70). -/

namespace Sys2Proof.Machine

/-! ### Encoding -/

/-- What one input byte makes of the encoder: the bytes emitted and the new `run` and `after_full` (the
loop body of R111, the `DATA` transitions of R116). -/
def encodeByte (run : List Byte) (b : Byte) : List Byte × List Byte × Bool :=
  if b = 0x00 then (blockOf run, [], false)
  else if run.length + 1 = Config.runCap then (Config.codeCont :: (run ++ [b]), [], true)
  else ([], run ++ [b], false)

/-- What the end of the input emits (R111, R116). -/
def encodeEnd (run : List Byte) (afterFull : Bool) : List Byte :=
  if afterFull then [] else blockOf run

/-- `Enc` from the middle of the input, with the working state reached there. -/
def encFrom (run : List Byte) (afterFull : Bool) : List Byte → List Byte
  | [] => encodeEnd run afterFull
  | b :: x =>
    (encodeByte run b).1 ++ encFrom (encodeByte run b).2.1 (encodeByte run b).2.2 x

/-- `Enc(x)`, the byte-stuffed form of a byte sequence (R111). -/
def enc (x : List Byte) : List Byte := encFrom [] false x

/-- The runs `r_0 .. r_z` of a byte sequence split at its zero bytes, each possibly empty (R112). -/
def runs : List Byte → List (List Byte)
  | [] => [[]]
  | b :: x =>
    if b = 0x00 then [] :: runs x
    else match runs x with
      | r :: rs => (b :: r) :: rs
      | [] => [[b]]

/-- `SrcEnc`, D0's literal encoder, for reference only: no operation of this hardware computes it (R112).
Its length values are naturals, since for a run of more than 254 bytes they are no bytes. -/
def srcEnc (x : List Byte) : List Nat :=
  (runs x).flatMap fun r => (r.length + 1) :: r.map BitVec.toNat

/-! ### Decoding -/

/-- The loop of R131 at a cursor: the input from the cursor on, and `out`. Each turn takes a code byte and
its data, so as many turns as there are bytes suffice (R136); the first argument bounds the turns. -/
def decLoop : Nat → List Byte → List Byte → Except Cause (List Byte)
  | _, [], out => .ok out
  | 0, _ :: _, out => .ok out
  | turns + 1, c :: rest, out =>
    if c = 0x00 then .error .zeroCode
    else if rest.length < runLength c then .error .truncated
    else
      decLoop turns (rest.drop (runLength c))
        (out ++ rest.take (runLength c) ++
          if c ≠ 0xFF ∧ rest.drop (runLength c) ≠ [] then [0x00] else [])

/-- `Dec(f)`, one frame with its byte-stuffing removed, or the cause of the hard failure (R131). -/
def dec (f : List Byte) : Except Cause (List Byte) := decLoop f.length f []

/-- The blocks of a frame as code byte and data bytes (R70, R71, R76), or `none` where it is no
concatenation of blocks. -/
def blocksLoop : Nat → List Byte → Option (List (Byte × List Byte))
  | _, [] => some []
  | 0, _ :: _ => none
  | turns + 1, c :: rest =>
    if c = 0x00 ∨ rest.length < runLength c then none
    else (blocksLoop turns (rest.drop (runLength c))).map ((c, rest.take (runLength c)) :: ·)

/-- The blocks of a frame (R70, R76). -/
def blocks (f : List Byte) : Option (List (Byte × List Byte)) := blocksLoop f.length f

end Sys2Proof.Machine
end

