-- ==== Sys2Proof/Machine/Codec.lean ====
section
/-! DEFINITION. The register decoder at the function level: `RegDecode` (R181) and `RxDecode` (R191), and
the function each command word stands for. -/

namespace Sys2Proof.Machine

/-- A register decoder's record from the identifier, the entry's name and the type decode's result (R184,
R185, R186). -/
def recordOf (reg : Byte) (name : Ident) : Except SoftError Value → Record
  | .ok v => .ok reg name v
  | .error e => .err reg e

/-- `RegDecode(m, M)` (R181): the shape test, the lookup, the type decode, in that order. `none` where the
tables are not well-formed at the entry found (U13). -/
def regDecode (tb : Tables) (sel : MapSel) (m : List Byte) : Option CodecOutcome :=
  match m with
  | id :: b :: p =>
    match mapLookup tb sel id with
    | none => some (.record (.err id (.unknownRegister id)))
    | some e => (typeDecode tb e.type (b :: p)).map fun r => .record (recordOf id e.name r)
  | _ => some .null

/-- `RxDecode(f, M)` (R191): the framer decode, then the register decode; a hard failure passes through. -/
def rxDecode (tb : Tables) (sel : MapSel) (f : List Byte) : Option CodecOutcome :=
  match dec f with
  | .ok m => regDecode tb sel m
  | .error c => some (.hardFail c)

/-- The outcome of a transaction by its command word and its input sequence (R110, R130, R180, R190, R225,
in the order of R220); `none` where the tables are not well-formed at the entry found (U13). -/
def transactionOutcome (tb : Tables) (maxLen : Nat) (w : Byte) (x : List Byte) :
    Option CodecOutcome :=
  if w ≠ 0x01 ∧ w ≠ 0x02 ∧ w ≠ 0x03 ∧ w ≠ 0x0B ∧ w ≠ 0x04 ∧ w ≠ 0x0C then some (.refused .cmd)
  else if maxLen < x.length then some (.refused .length)
  else if w = 0x01 then some (.bytes (enc x))
  else if w = 0x02 then
    match dec x with
    | .ok out => some (.bytes out)
    | .error c => some (.hardFail c)
  else if w = 0x03 then regDecode tb .tile x
  else if w = 0x0B then regDecode tb .master x
  else if w = 0x04 then rxDecode tb .tile x
  else rxDecode tb .master x

/-- The beats of one transaction: `CMD(w)`, the input bytes, `END` (R32, R95). -/
def transactionBeats (w : Byte) (x : List Byte) : List HostEvent :=
  .cmd w :: x.map .data ++ [.endIn]

end Sys2Proof.Machine
end

