-- ==== Sys2Proof/Machine/Ops.lean ====
section
/-! DEFINITION. The named operations of the beat-level machine: sending beats, reporting an outcome (the
block's form of taking an exception and returning from it, R222, R223), reset, opening a transaction, the
framer's transitions (R116, R139), the register decoder's END (R188), and the protocol that every command
shares (R32, R225, R248). -/

namespace Sys2Proof.Machine

/-! ### Responses -/

/-- Send `OUT` beats, lowest index first (R31). -/
def emitOut (bs : List Byte) (s : State) : State :=
  { s with rsp := s.rsp ++ bs.map .out }

/-- End the transaction with an outcome, of any channel: the bytes that are reported with it, then
`DONE`, then phase IDLE. Nothing is saved, no mode changes and control goes nowhere (R222); after it the
block accepts the next transaction as if nothing had happened (R223, R36). -/
def report (tt : Nibble) (bfsel : Byte) (o : CodecOutcome) (s : State) : State :=
  { s with
    rsp := s.rsp ++ (reportBytes o).map .out ++ [.done (packDone tt bfsel o)]
    phase := .idle
    job := none }

/-- Report an outcome whose `DONE` beat has no type tag. -/
def conclude (o : CodecOutcome) (s : State) : State := report 0 0 o s

/-! ### Reset -/

/-- The event reset (R241): phase IDLE, the tables unchanged, an open transaction abandoned without `DONE`
(R242). The working state, which becomes unspecified, takes the values it has in `State.reset`, as R41
allows (log entry 3). Beats still on offer stay on offer. -/
def applyReset (s : State) : State :=
  { State.reset with
    tables := s.tables
    maxLen := s.maxLen
    req := s.req
    rsp := s.rsp ++ [.resetSeen] }

/-! ### Opening a transaction -/

/-- Phase OPEN with an operation and a map, no `DATA` beat received (R36). -/
def openAs (op : Op) (map : MapSel) (s : State) : State :=
  { s with phase := .opened, op := op, map := map, count := 0, overLength := false }

/-- The encoder's initial values (R37). -/
def initEncoder (s : State) : State := { s with run := [], afterFull := false }

/-- The decoder's initial values (R38). -/
def initDecoder (s : State) : State := { s with rem := 0, pz := false, err := none }

/-- The message buffer's initial value (R39). -/
def initMessage (s : State) : State := { s with msg := [] }

/-! ### The encoder (R116) -/

/-- `DATA(b)` at the encoder. -/
def takePlain (b : Byte) (s : State) : State :=
  emitOut (encodeByte s.run b).1
    { s with run := (encodeByte s.run b).2.1, afterFull := (encodeByte s.run b).2.2 }

/-- `END` at the encoder. -/
def endPlain (s : State) : State :=
  conclude (.bytes []) (emitOut (encodeEnd s.run s.afterFull) s)

/-! ### The decoder (R139) -/

/-- `sink(b)` of FDEC: an `OUT` beat. -/
def sinkOut (b : Byte) (s : State) : State := emitOut [b] s

/-- `sink(b)` of RXDEC: the message buffer (R193). -/
def sinkMessage (b : Byte) (s : State) : State := { s with msg := s.msg ++ [b] }

/-- A code byte that opens a block: first the zero owed by the previous LINK block, now that more input
does follow it; then the new block's data count, and whether it will owe a zero. -/
def openBlock (sink : Byte → State → State) (rem : Nat) (pz : Bool) (s : State) : State :=
  { (if s.pz then sink 0x00 s else s) with rem := rem, pz := pz }

/-- The code byte 0x00: the frame is lost (R133). -/
def illegalBlock (s : State) : State := { s with err := some .zeroCode }

/-- A code byte (R72, R139). -/
def takeCode (sink : Byte → State → State) (b : Byte) (s : State) : State :=
  if b = 0x00 then illegalBlock s else openBlock sink (runLength b) (b != 0xFF) s

/-- A data byte, copied verbatim (R71, R137). -/
def takeBlockData (sink : Byte → State → State) (b : Byte) (s : State) : State :=
  { sink b s with rem := s.rem - 1 }

/-- `DATA(b)` at the decoder. -/
def takeFramed (sink : Byte → State → State) (b : Byte) (s : State) : State :=
  if s.err.isSome then s
  else if s.rem = 0 then takeCode sink b s
  else takeBlockData sink b s

/-- The truncation check at `END`: data bytes still owed (R135, R139). -/
def checkTruncated (s : State) : State :=
  if s.err = none ∧ 0 < s.rem then { s with err := some .truncated } else s

/-- `END` at the decoder: the hard failure if there is one (R212), else what the operation goes on to. -/
def endFramed (onward : State → State) (s : State) : State :=
  match (checkTruncated s).err with
  | some c => conclude (.hardFail c) (checkTruncated s)
  | none => onward (checkTruncated s)

/-! ### The register decoder (R181, R188) -/

/-- `DATA(b)` at the register decoder. -/
def takeMessage (b : Byte) (s : State) : State := { s with msg := s.msg ++ [b] }

/-- The shape test and the lookup of R181 in the map the command selected (R188). An entry found leaves the
type decode as the next thing the block does, in the same step (`finishType`); the other outcomes are
reported at once. -/
def lookupMessage (s : State) : State :=
  match s.msg with
  | id :: b :: p =>
    match mapLookup s.tables s.map id with
    | none => conclude (.record (.err id (.unknownRegister id))) s
    | some e => { s with job := some ⟨id, b :: p, e⟩ }
  | _ => conclude .null s

/-- The type decode's result, reported as the transaction's record (R184 to R186). -/
def reportField (tt : Nibble) (bfsel : Byte) (j : TypeJob) (r : Except SoftError Value)
    (s : State) : State :=
  report tt bfsel (.record (recordOf j.reg j.entry.name r)) s

/-! ### The protocol every command shares -/

/-- A `DATA` beat of an open transaction: at most `MAX_LEN` reach the operation; one more marks the
transaction, and that beat and all later ones are dropped (R225 (2)). -/
def receive (take : Byte → State → State) (b : Byte) (s : State) : State :=
  if s.overLength then s
  else if s.count < s.maxLen then take b { s with count := s.count + 1 }
  else { s with overLength := true }

/-- The `END` beat of an open transaction: `Refused(LENGTH)` comes before anything the operation would
answer (R220, R225 (2)). -/
def finish (onEnd : State → State) (s : State) : State :=
  if s.overLength then conclude (.refused .length) s else onEnd s

/-- One beat of a transaction: `CMD` opens it, `DATA` and `END` go to the operation, everything R32 does
not allow is refused (R248), reset is applied (R241), and without a beat the block waits (R255). -/
def transact (accept : State → State) (data : Byte → State → State) (onEnd : State → State)
    (s : State) : Host.Outcome State Fault Refusal :=
  match s.req with
  | [] => .next s
  | .reset :: rest => .next (applyReset { s with req := rest })
  | .cmd _ :: rest =>
    match s.phase with
    | .idle => .next (accept { s with req := rest })
    | .opened => .refused .cmdWhileOpen
  | .data b :: rest =>
    match s.phase, s.job with
    | .idle, _ => .refused .dataWhileIdle
    | .opened, some _ => .refused .beatAfterEnd
    | .opened, none => .next (data b { s with req := rest })
  | .endIn :: rest =>
    match s.phase, s.job with
    | .idle, _ => .refused .endWhileIdle
    | .opened, some _ => .refused .beatAfterEnd
    | .opened, none => .next (onEnd { s with req := rest })

/-! ### Code bytes and type tags -/

/-- The sink of the operation under way, where it is one that reads a stuffed frame (R139). -/
def framedSink : Op → Option (Byte → State → State)
  | .fdec => some sinkOut
  | .rxdec => some sinkMessage
  | .fenc => none
  | .rdec => none
  | .rsvd _ => none

/-- The next `DATA` beat will be read as a code byte: an open FDEC or RXDEC transaction that has lost
neither its frame nor its place in the length bound, at a block boundary (R76, R139). -/
def State.atCode (s : State) : Bool :=
  s.phase == .opened && (framedSink s.op).isSome && s.job.isNone && !s.overLength &&
  decide (s.count < s.maxLen) && s.err.isNone && s.rem == 0

/-- A code byte taken from the `DATA` beat on offer, with the sink of the operation under way. -/
def codeBeat (act : (Byte → State → State) → State → State) (s : State) :
    Host.Outcome State Fault Refusal :=
  match framedSink s.op, s.req with
  | some sink, .data _ :: rest =>
    if s.atCode then .next (act sink { s with req := rest, count := s.count + 1 })
    else .refused .outOfPosition
  | _, _ => .refused .outOfPosition

/-- A type decode under way, finished with a decoder of its payload (R159). -/
def fieldDecode (tt : Nibble) (bfsel : Byte) (decoder : List Byte → Except SoftError Value)
    (s : State) : Host.Outcome State Fault Refusal :=
  match s.job with
  | some j => .next (reportField tt bfsel j (decoder j.payload) s)
  | none => .refused .outOfPosition

end Sys2Proof.Machine
end

