-- ==== Sys2Proof/Machine/BlockClasses.lean ====
section
/-! DEFINITION. The block classes BLK.ILL, BLK.LINK, BLK.CONT: the code bytes of a stuffed frame
(spec/41_framer_decode.md R132 to R134, at the beats of R139). -/

namespace Sys2Proof.Machine

/-- `BLK.ILL` (R133): the hard failure `ZERO_CODE`; the rest of the frame is passed over and `END` reports
it. -/
def execBlkIll (s : State) : Host.Outcome State Fault Refusal :=
  codeBeat (fun _ => illegalBlock) s

/-- `BLK.LINK` (R132): a block of `c - 1` data bytes that owes a zero if more input follows it. -/
def execBlkLink (c : Byte) (s : State) : Host.Outcome State Fault Refusal :=
  codeBeat (fun sink => openBlock sink (runLength c) true) s

/-- `BLK.CONT` (R134): a block of 254 data bytes that never owes a zero. -/
def execBlkCont (s : State) : Host.Outcome State Fault Refusal :=
  codeBeat (fun sink => openBlock sink Config.runCap false) s

end Sys2Proof.Machine
end

