-- ==== Sys2Proof/Machine/FramerOps.lean ====
section
/-! DEFINITION. The framer's operations FENC and FDEC, one beat at a time (spec/40_framer_encode.md R110,
R116; spec/41_framer_decode.md R130, R139). -/

namespace Sys2Proof.Machine

/-- `FENC` (R110, R116). -/
def execFenc (s : State) : Host.Outcome State Fault Refusal :=
  transact (fun t => initEncoder (openAs .fenc .tile t)) (receive takePlain) (finish endPlain) s

/-- `FDEC` (R130, R139). -/
def execFdec (s : State) : Host.Outcome State Fault Refusal :=
  transact (fun t => initDecoder (openAs .fdec .tile t)) (receive (takeFramed sinkOut))
    (finish (endFramed (conclude (.bytes [])))) s

end Sys2Proof.Machine
end

