-- ==== Sys2Proof/Machine/RegisterOps.lean ====
section
/-! DEFINITION. The register decoder's operations RDEC and RXDEC on the two maps, and the reserved command
words, one beat at a time (spec/43_register_decode.md R180, R188, R190, R193; spec/60_exceptions.md
R225). -/

namespace Sys2Proof.Machine

/-- `RDEC.T` (R180, R188): the tile map. -/
def execRdecT (s : State) : Host.Outcome State Fault Refusal :=
  transact (fun t => initMessage (openAs .rdec .tile t)) (receive takeMessage)
    (finish lookupMessage) s

/-- `RDEC.M` (R180, R188): the master map. -/
def execRdecM (s : State) : Host.Outcome State Fault Refusal :=
  transact (fun t => initMessage (openAs .rdec .master t)) (receive takeMessage)
    (finish lookupMessage) s

/-- `RXDEC.T` (R190, R193): the tile map. -/
def execRxdecT (s : State) : Host.Outcome State Fault Refusal :=
  transact (fun t => initMessage (initDecoder (openAs .rxdec .tile t)))
    (receive (takeFramed sinkMessage)) (finish (endFramed lookupMessage)) s

/-- `RXDEC.M` (R190, R193): the master map. -/
def execRxdecM (s : State) : Host.Outcome State Fault Refusal :=
  transact (fun t => initMessage (initDecoder (openAs .rxdec .master t)))
    (receive (takeFramed sinkMessage)) (finish (endFramed lookupMessage)) s

/-- `RSVD.CMD` (R225 (1), R89): the transaction runs to its `END`, its `DATA` beats are dropped, no `OUT`
beat is sent, and `DONE` carries `Refused(CMD)`, however many `DATA` beats there were (R220). -/
def execRsvdCmd (w : Byte) (s : State) : Host.Outcome State Fault Refusal :=
  transact (openAs (.rsvd w) .tile) (fun _ t => t) (conclude (.refused .cmd)) s

end Sys2Proof.Machine
end

