-- ==== Sys2Proof/Machine/TypedFields.lean ====
section
/-! DEFINITION. The typed-field decoders TD.U8 to TD.RAW: what the block does between the map lookup and
`DONE`, selected by the entry's type (spec/42_typed_field_decode.md R150 to R160). -/

namespace Sys2Proof.Machine

/-- `TD.U8` (R150). -/
def execTdU8 (s : State) : Host.Outcome State Fault Refusal :=
  fieldDecode (typeTag (.scalar .uint8)) 0 decodeU8 s

/-- `TD.U16` (R151). -/
def execTdU16 (s : State) : Host.Outcome State Fault Refusal :=
  fieldDecode (typeTag (.scalar .uint16)) 0 decodeU16 s

/-- `TD.I16` (R152). -/
def execTdI16 (s : State) : Host.Outcome State Fault Refusal :=
  fieldDecode (typeTag (.scalar .int16)) 0 decodeI16 s

/-- `TD.U32` (R153). -/
def execTdU32 (s : State) : Host.Outcome State Fault Refusal :=
  fieldDecode (typeTag (.scalar .uint32)) 0 decodeU32 s

/-- `TD.F32` (R154). -/
def execTdF32 (s : State) : Host.Outcome State Fault Refusal :=
  fieldDecode (typeTag (.scalar .float32)) 0 decodeF32 s

/-- `TD.BF` (R155), with the flag names that `BfLookup` gives for the selector (R159); refused where the
tables are not well-formed there (R28, U13). -/
def execTdBf (sel : Byte) (s : State) : Host.Outcome State Fault Refusal :=
  match bfLookup s.tables sel with
  | some flags => fieldDecode (typeTag (.bitfield sel)) sel (decodeBf flags) s
  | none => .refused .malformedTables

/-- `TD.RAW` (R160). -/
def execTdRaw (s : State) : Host.Outcome State Fault Refusal :=
  fieldDecode (typeTag (.unknown "")) 0 decodeRaw s

end Sys2Proof.Machine
end

