-- ==== Sys2Proof/Machine/Dispatch.lean ====
section
/-! DEFINITION. The dispatch of every instruction to its meaning, one arm per constructor. -/

namespace Sys2Proof.Machine

def exec (i : Instr) (s : State) : Host.Outcome State Fault Refusal :=
  match i with
  | .blkIll => Sys2Proof.Machine.execBlkIll s
  | .blkLink c => Sys2Proof.Machine.execBlkLink c s
  | .blkCont => Sys2Proof.Machine.execBlkCont s
  | .fenc => Sys2Proof.Machine.execFenc s
  | .fdec => Sys2Proof.Machine.execFdec s
  | .rdecT => Sys2Proof.Machine.execRdecT s
  | .rdecM => Sys2Proof.Machine.execRdecM s
  | .rxdecT => Sys2Proof.Machine.execRxdecT s
  | .rxdecM => Sys2Proof.Machine.execRxdecM s
  | .rsvdCmd w => Sys2Proof.Machine.execRsvdCmd w s
  | .tdU8 => Sys2Proof.Machine.execTdU8 s
  | .tdU16 => Sys2Proof.Machine.execTdU16 s
  | .tdI16 => Sys2Proof.Machine.execTdI16 s
  | .tdU32 => Sys2Proof.Machine.execTdU32 s
  | .tdF32 => Sys2Proof.Machine.execTdF32 s
  | .tdBf sel => Sys2Proof.Machine.execTdBf sel s
  | .tdRaw => Sys2Proof.Machine.execTdRaw s

end Sys2Proof.Machine
end

