-- ==== Sys2Proof/WellFormed.lean ====
section
/-! DEFINITION. Well-formed instructions: the constraints spec/opcode_table.json puts on the fields of
its two rows with fields. -/

namespace Sys2Proof

/-- The six legal command words (R89). -/
def legalCommand (w : Byte) : Bool :=
  w == 0x01 || w == 0x02 || w == 0x03 || w == 0x0B || w == 0x04 || w == 0x0C

/-- A well-formed instruction: a LINK code is neither 0x00 nor 0xFF (R72), a reserved command is none
of the six legal words (R89). -/
def Instr.wf : Instr → Bool
  | .blkLink c => c != 0x00 && c != 0xFF
  | .rsvdCmd w => !legalCommand w
  | .blkIll => true
  | .blkCont => true
  | .fenc => true
  | .fdec => true
  | .rdecT => true
  | .rdecM => true
  | .rxdecT => true
  | .rxdecM => true
  | .tdU8 => true
  | .tdU16 => true
  | .tdI16 => true
  | .tdU32 => true
  | .tdF32 => true
  | .tdBf _ => true
  | .tdRaw => true

end Sys2Proof
end

