-- ==== Sys2Proof/Decode.lean ====
section
/-! DEFINITION. The decoder, total on any bytes in each of the three formats, rejecting by name, and the
encoder written from the same tables (spec/30_encoding.md R72, R88, R89, R92, R97). -/

namespace Sys2Proof

/-- Why a sequence of bytes is no instruction of a format. -/
inductive Reject where
  /-- The number of bytes is not the format's (one for `stuff` and `cmd`, two for `tt`). -/
  | wrongLength
  /-- A type tag that R92 lists as never produced: 0x5 to 0x7, 0x9 to 0xE. -/
  | reservedTag
  /-- A tag byte whose bits above the four of `TT` are not zero. -/
  | tagHighBits
  /-- A `BFSEL` that is not zero beside a tag that has none (R90: a field that is not valid is zero). -/
  | selectorWithoutBitfield
deriving DecidableEq, Repr, Inhabited

/-- A code byte, read in a code position (R72). -/
def decodeCode (b : Byte) : Instr :=
  if b = 0x00 then .blkIll else if b = 0xFF then .blkCont else .blkLink b

/-- The command word of a `CMD` beat, by its fields (R88, R89): `OP` in bits 2:0, `MAP` in bit 3, bits
7:4 zero, and `MAP` zero for FENC and FDEC. -/
def decodeCommand (w : Byte) : Instr :=
  if w.extractLsb' 4 4 = 0#4 then
    if w.extractLsb' 0 3 = 1#3 ∧ w.getLsbD 3 = false then .fenc
    else if w.extractLsb' 0 3 = 2#3 ∧ w.getLsbD 3 = false then .fdec
    else if w.extractLsb' 0 3 = 3#3 then if w.getLsbD 3 then .rdecM else .rdecT
    else if w.extractLsb' 0 3 = 4#3 then if w.getLsbD 3 then .rxdecM else .rxdecT
    else .rsvdCmd w
  else .rsvdCmd w

/-- A decoder that takes no selector answers only beside a zero `BFSEL` (R90). -/
def withoutSelector (sel : Byte) (i : Instr) : Except Reject Instr :=
  if sel = 0 then .ok i else .error .selectorWithoutBitfield

/-- A type tag with its `BFSEL` (R92). -/
def decodeTag (tag : Nibble) (sel : Byte) : Except Reject Instr :=
  if tag = 0x0 then withoutSelector sel .tdU8
  else if tag = 0x1 then withoutSelector sel .tdU16
  else if tag = 0x2 then withoutSelector sel .tdI16
  else if tag = 0x3 then withoutSelector sel .tdU32
  else if tag = 0x4 then withoutSelector sel .tdF32
  else if tag = 0x8 then .ok (.tdBf sel)
  else if tag = 0xF then withoutSelector sel .tdRaw
  else .error .reservedTag

/-- The decoder: the instruction that some bytes are in a format, or why they are none. -/
def decode : Format → List Byte → Except Reject Instr
  | .stuff, [b] => .ok (decodeCode b)
  | .cmd, [w] => .ok (decodeCommand w)
  | .tt, [t, sel] =>
    if t.extractLsb' 4 4 = 0#4 then decodeTag (t.extractLsb' 0 4) sel else .error .tagHighBits
  | _, _ => .error .wrongLength

/-- The encoder: the format and the bytes of an instruction (R97). -/
def encode : Instr → Format × List Byte
  | .blkIll => (.stuff, [0x00])
  | .blkLink c => (.stuff, [c])
  | .blkCont => (.stuff, [0xFF])
  | .fenc => (.cmd, [0x01])
  | .fdec => (.cmd, [0x02])
  | .rdecT => (.cmd, [0x03])
  | .rdecM => (.cmd, [0x0B])
  | .rxdecT => (.cmd, [0x04])
  | .rxdecM => (.cmd, [0x0C])
  | .rsvdCmd w => (.cmd, [w])
  | .tdU8 => (.tt, [0x00, 0x00])
  | .tdU16 => (.tt, [0x01, 0x00])
  | .tdI16 => (.tt, [0x02, 0x00])
  | .tdU32 => (.tt, [0x03, 0x00])
  | .tdF32 => (.tt, [0x04, 0x00])
  | .tdBf sel => (.tt, [0x08, sel])
  | .tdRaw => (.tt, [0x0F, 0x00])

/-- The format in which a bare number of the opcode table is read. The three groups of the table share
their numbers (0x00 is BLK.ILL, RSVD.CMD and TD.U8), so a number alone fixes no row; the choice is: four
bits are a type tag; of eight bits, a word of an eight-bit row with fixed bits is read in that row's
format, then a word of a four-bit row in that row's, and every other word as a command word, which is
what a block in phase IDLE reads. DESIGN CHOICE, log entry 9. -/
def tableFormat (nbits w : Nat) : Format :=
  if nbits ≤ 4 then .tt
  else if legalCommand (BitVec.ofNat 8 w) then .cmd
  else if w = 0x00 ∨ w = 0xFF then .stuff
  else if w = 0x08 ∨ w = 0x0F then .tt
  else .cmd

/-- The bytes of a number of the opcode table in a format: a type tag has its `BFSEL` in bits 15:8. -/
def tableBytes (f : Format) (w : Nat) : List Byte :=
  match f with
  | .tt => [BitVec.ofNat 8 w, BitVec.ofNat 8 (w / 256)]
  | _ => [BitVec.ofNat 8 w]

/-- The instruction the decoder reads from a number of the opcode table, or `none` where it refuses. A
number with bits above the row's width is none. -/
def decodeTableWord (nbits w : Nat) : Option Instr :=
  if w < 2 ^ nbits then (decode (tableFormat nbits w) (tableBytes (tableFormat nbits w) w)).toOption
  else none

end Sys2Proof
end

