-- ==== Sys2Proof/Machine/Fetch.lean ====
section
/-! DEFINITION. What the block reads next. It has no program counter (R21): the word it acts on is the
command word on offer, the word of the operation under way, a code byte of the frame, or the type tag of
the entry found. -/

namespace Sys2Proof.Machine

/-- The command word of the transaction under way (R88, R89); `MAP` is 0 for FENC and FDEC. -/
def operationWord : Op → MapSel → Byte
  | .fenc, _ => 0x01
  | .fdec, _ => 0x02
  | .rdec, .tile => 0x03
  | .rdec, .master => 0x0B
  | .rxdec, .tile => 0x04
  | .rxdec, .master => 0x0C
  | .rsvd w, _ => w

/-- The word of a type reference: its `TT`, then its `BFSEL` (R90, R92). -/
def typeWord (t : TypeRef) : List Byte := [(typeTag t).zeroExtend 8, typeSelector t]

/-- The format and the bytes of the instruction the block acts on next, or `none` where the host's next
event is not for an instruction: nothing on offer, reset, or a beat that R248 forbids. A type decode under
way is the time between `END` and `DONE`, in which every beat is forbidden. -/
def fetch (s : State) : Option (Format × List Byte) :=
  match s.req, s.job, s.phase with
  | .reset :: _, _, _ => none
  | .data _ :: _, some _, _ => none
  | .endIn :: _, some _, _ => none
  | .cmd _ :: _, some _, _ => none
  | [], some j, _ => some (.tt, typeWord j.entry.type)
  | [], none, _ => none
  | .cmd w :: _, none, .idle => some (.cmd, [w])
  | .cmd _ :: _, none, .opened => some (.cmd, [operationWord s.op s.map])
  | .data _ :: _, none, .idle => none
  | .data b :: _, none, .opened =>
    if s.atCode then some (.stuff, [b]) else some (.cmd, [operationWord s.op s.map])
  | .endIn :: _, none, .idle => none
  | .endIn :: _, none, .opened => some (.cmd, [operationWord s.op s.map])

/-- What the block does where it fetches no instruction: it waits for a beat (R255), is reset (R241), or
meets a protocol violation, which is refused (R248). -/
def withoutInstruction (s : State) : Host.Outcome State Fault Refusal :=
  match s.req, s.job with
  | .reset :: rest, _ => .next (applyReset { s with req := rest })
  | .data _ :: _, some _ => .refused .beatAfterEnd
  | .endIn :: _, some _ => .refused .beatAfterEnd
  | .cmd _ :: _, some _ => .refused .cmdWhileOpen
  | .data _ :: _, none => .refused .dataWhileIdle
  | .endIn :: _, none => .refused .endWhileIdle
  | _, _ => .next s

/-- The type reference that a type word stands for; the tag of an unknown type is not in its word. -/
def typeOfWord (w : Nat) : TypeRef :=
  if w % 16 = 0 then .scalar .uint8
  else if w % 16 = 1 then .scalar .uint16
  else if w % 16 = 2 then .scalar .int16
  else if w % 16 = 3 then .scalar .uint32
  else if w % 16 = 4 then .scalar .float32
  else if w % 16 = 8 then .bitfield (BitVec.ofNat 8 (w / 256))
  else .unknown ""

/-- A state whose next word is a command word: idle, with that word on offer. -/
def placeCommand (w : Nat) (s : State) : State :=
  { s with phase := .idle, job := none, req := .cmd (BitVec.ofNat 8 w) :: s.req }

/-- A state whose next word is a code byte: an open FDEC at the start of its frame, with that byte on
offer. -/
def placeCode (w : Nat) (s : State) : State :=
  { initDecoder (openAs .fdec .tile s) with
    job := none, req := .data (BitVec.ofNat 8 w) :: s.req }

/-- A state whose next word is a type tag: an open RDEC whose lookup has found an entry of that type, with
a payload of four zero bytes, which is long enough for every type. A bitfield's type stands in the table:
selector 0 gets a type without flags. -/
def placeType (w : Nat) (s : State) : State :=
  { initMessage (openAs .rdec .tile s) with
    job := some ⟨0, [0, 0, 0, 0], ⟨"", typeOfWord w⟩⟩
    req := []
    tables :=
      if w = 8 then { s.tables with bfTable := ⟨"", []⟩ :: s.tables.bfTable.tail } else s.tables }

end Sys2Proof.Machine
end

