-- ==== Sys2Proof/Machine/Run.lean ====
section
/-! DEFINITION. Running a word, and the one transition from `END` to `DONE` (spec/43_register_decode.md R188,
R193): the type decode that an operation's `END` asks for runs in the same step. -/

namespace Sys2Proof.Machine

/-- Decode a word of a format and run its instruction. -/
def runWord (f : Format) (bytes : List Byte) (s : State) : Host.Outcome State Fault Refusal :=
  match decode f bytes with
  | .ok i => exec i s
  | .error _ => .refused .undecodable

/-- What follows an instruction in its step: where `END` has left a type decode under way (R181), the
decoder of the entry's type runs at once and sends `DONE`, since R188 and R193 make `END` and `DONE` one
transition. No beat is received in between (R248). Log entry 5. -/
def finishType : Host.Outcome State Fault Refusal → Host.Outcome State Fault Refusal
  | .next t =>
    match t.job with
    | some j => runWord .tt (typeWord j.entry.type) t
    | none => .next t
  | .fault r => .fault r
  | .refused r => .refused r

end Sys2Proof.Machine
end

