-- ==== Sys2Proof/Machine/Step.lean ====
section
/-! DEFINITION. One step of the block: it fetches the word it acts on, decodes it, runs the instruction, and
finishes the type decode that the instruction left under way; and the placing of a word where the next step
fetches it. -/

namespace Sys2Proof.Machine

/-- One step. -/
def step (s : State) : Host.Outcome State Fault Refusal :=
  match fetch s with
  | some (f, bytes) => finishType (runWord f bytes s)
  | none => withoutInstruction s

/-- A number of the opcode table placed where `step` reads its next word, in the format that
`decodeTableWord` reads it in (log entry 9). -/
def State.withFetchWord (s : State) (nbits w : Nat) : State :=
  match tableFormat nbits w with
  | .cmd => placeCommand w s
  | .stuff => placeCode w s
  | .tt => placeType w s

end Sys2Proof.Machine
end

