-- ==== Sys2Proof/Machine/Instances.lean ====
section
/-! DEFINITION. Several instances of the block (spec/60_exceptions.md R229): each with its own ports and
working state, sharing nothing that anyone writes. The host decides which instance takes the next step. -/

namespace Sys2Proof.Machine

/-- Instance `i` takes a step; an instance that does not exist takes none. -/
def stepInstance (i : Nat) (sys : List State) : Host.Outcome (List State) Fault Refusal :=
  match sys[i]? with
  | none => .next sys
  | some s =>
    match step s with
    | .next t => .next (sys.set i t)
    | .fault r => .fault r
    | .refused r => .refused r

/-- Steps of the instances in the order of a schedule, up to the first stop: where one instance meets a beat
that is refused, no instance takes a further step. R229 and R248 leave open what the others do then. DESIGN
CHOICE, safe, log entry 15. -/
def runSchedule : List Nat → List State → Host.Outcome (List State) Fault Refusal
  | [], sys => .next sys
  | i :: rest, sys =>
    match stepInstance i sys with
    | .next sys' => runSchedule rest sys'
    | .fault r => .fault r
    | .refused r => .refused r

end Sys2Proof.Machine
end

