-- ==== Sys2Proof/Safety.lean ====
section
/-! DEFINITION. The terms claims are stated in: runs of steps, the invariant of the working state (the ranges
spec/10_state.md R36 to R39 give it, the premise R28 on the tables), and what each response may hold. -/

namespace Sys2Proof.Machine

/-- `k` steps, up to the first stop. -/
def steps : Nat → State → Host.Outcome State Fault Refusal
  | 0, s => .next s
  | k + 1, s =>
    match step s with
    | .next t => steps k t
    | .fault r => .fault r
    | .refused r => .refused r

/-- The ranges of the working state, and the premises on the constants. Each clause about working state is
under phase OPEN, because in phase IDLE that state is unspecified (R41). -/
structure Inv (s : State) : Prop where
  /-- The tables are well-formed (R28). -/
  tablesWf : s.tables.wf = true
  /-- `MAX_LEN ≥ 2` (R10). -/
  maxLenAtLeastTwo : 2 ≤ s.maxLen
  /-- `count` is 0 to `MAX_LEN` (R36). -/
  countBound : s.phase = .opened → s.count ≤ s.maxLen
  /-- A transaction is over length only once `MAX_LEN` beats have been received (R225). -/
  overFull : s.phase = .opened → s.overLength = true → s.count = s.maxLen
  /-- FENC and FDEC have `MAP = 0` (R88). -/
  framerMap : s.phase = .opened → (s.op = .fenc ∨ s.op = .fdec) → s.map = .tile
  /-- A transaction is refused for its command word only if that word is reserved (R89). -/
  reservedWord : s.phase = .opened → ∀ w, s.op = .rsvd w → legalCommand w = false
  /-- `run` is 0 to 253 non-zero bytes (R37). -/
  runBound : s.phase = .opened → s.op = .fenc → s.run.length ≤ 253 ∧ ∀ b ∈ s.run, b ≠ 0x00
  /-- `after_full` implies `run = []` (R37). -/
  afterFullEmpty : s.phase = .opened → s.op = .fenc → s.afterFull = true → s.run = []
  /-- `rem` is 0 to 254, and truncation is known only at END (R38, R139). -/
  remBound : s.phase = .opened → (s.op = .fdec ∨ s.op = .rxdec) →
    s.rem ≤ 254 ∧ s.err ≠ some .truncated
  /-- `msg` is no longer than the beats received, hence at most `MAX_LEN` (R39). -/
  msgBound : s.phase = .opened → (s.op = .rdec ∨ s.op = .rxdec) → s.msg.length ≤ s.count
  /-- A type decode under way belongs to an open RDEC or RXDEC transaction and holds the entry that the
  lookup found and at least one payload byte (R181). -/
  jobFound : ∀ j, s.job = some j → s.phase = .opened ∧ (s.op = .rdec ∨ s.op = .rxdec) ∧
    mapLookup s.tables s.map j.reg = some j.entry ∧ j.payload ≠ []

/-- The `STATUS` codes that are produced (R91); the other seven are reserved. -/
def legalStatus (st : Nibble) : Bool :=
  st == 0x0 || st == 0x1 || st == 0x2 || st == 0x4 || st == 0x5 || st == 0x8 || st == 0x9 ||
  st == 0xC || st == 0xD

/-- The type tags that are produced (R92). -/
def legalTag (tt : Nibble) : Bool :=
  tt == 0x0 || tt == 0x1 || tt == 0x2 || tt == 0x3 || tt == 0x4 || tt == 0x8 || tt == 0xF

/-- A `DONE` beat as R90 to R92 allow it: a legal status, and every field that is not valid for it zero. -/
def Done.wf (d : Done) : Bool :=
  legalStatus d.status && legalTag d.tt &&
  (d.status == 0x1 || d.status == 0x4 || d.status == 0x5 || d.reg == 0) &&
  (d.status == 0x4 || d.status == 0x5 || d.info == 0) &&
  (d.status == 0x1 || (d.tt == 0 && d.name == "" && d.value == 0)) &&
  ((d.status == 0x1 && d.tt == 0x8) || d.bfsel == 0)

/-- The beats that R248 forbids in a state: what the block refuses. A type decode under way is the time
between `END` and `DONE`; a second `END` there is DEDUCED, log entry 17. -/
def protocolViolation (s : State) : Bool :=
  match s.req with
  | [] => false
  | .reset :: _ => false
  | .cmd _ :: _ => s.phase == .opened
  | .data _ :: _ => s.phase == .idle || s.job.isSome
  | .endIn :: _ => s.phase == .idle || s.job.isSome

/-- An instance between two transactions. -/
def State.atRest (s : State) : Prop := s.phase = .idle ∧ s.job = none

end Sys2Proof.Machine
end

