-- ==== Sys2Proof/Certificates/Slice0/Obligations.lean ====
section
/-! DEFINITION. The statements for the provers, in the order of the spec's files. Each docstring names the
rule it formalises, or says that it is derived and from what. -/

open Sys2Proof Sys2Proof.Machine

/-! ### Encodings (30_encoding.md) -/

/-- Derived (30_encoding.md section 9, the opcode table in prose): words written out bit by bit decode to
the instructions they stand for. -/
def Obligations.WordsOfTheTableDecode : Prop :=
  decode .stuff [0b00000000] = .ok .blkIll ∧
  decode .stuff [0b00000001] = .ok (.blkLink 1) ∧
  decode .stuff [0b11111110] = .ok (.blkLink 254) ∧
  decode .stuff [0b11111111] = .ok .blkCont ∧
  decode .cmd [0b00000001] = .ok .fenc ∧
  decode .cmd [0b00000010] = .ok .fdec ∧
  decode .cmd [0b00000011] = .ok .rdecT ∧
  decode .cmd [0b00001011] = .ok .rdecM ∧
  decode .cmd [0b00000100] = .ok .rxdecT ∧
  decode .cmd [0b00001100] = .ok .rxdecM ∧
  decode .cmd [0b00001001] = .ok (.rsvdCmd 9) ∧
  decode .tt [0b0000, 0] = .ok .tdU8 ∧
  decode .tt [0b0001, 0] = .ok .tdU16 ∧
  decode .tt [0b0010, 0] = .ok .tdI16 ∧
  decode .tt [0b0011, 0] = .ok .tdU32 ∧
  decode .tt [0b0100, 0] = .ok .tdF32 ∧
  decode .tt [0b1000, 7] = .ok (.tdBf 7) ∧
  decode .tt [0b1111, 0] = .ok .tdRaw

/-- Derived (30_encoding.md section 9): every well-formed instruction of every format, with its operand at
every value the encoding admits: decoding its encoding gives it back. -/
def Obligations.DecodeOfEncodeIsTheInstruction : Prop :=
  ∀ i : Instr, i.wf = true → decode (encode i).1 (encode i).2 = .ok i

/-- Derived (30_encoding.md section 9, the rows; section 7, R90, a field that is not valid is zero), the
other direction: what decodes to an instruction is that instruction's encoding, and the instruction is
well-formed; so no two words of a format share a meaning. For the type tags this rests on the model's choice
of log entry 19: a type word is two bytes, and a tag byte above 0x0F or a `BFSEL` that is not zero beside a
tag without one is rejected. -/
def Obligations.EncodeOfDecodeIsTheWord : Prop :=
  ∀ (f : Format) (bytes : List Byte) (i : Instr),
    decode f bytes = .ok i → encode i = (f, bytes) ∧ i.wf = true

/-- Derived (30_encoding.md section 7): the six command words whose fields are legal decode to their
operations and maps; each of the other 250 words decodes to RSVD.CMD. -/
def Obligations.ExactlySixCommandWordsAreLegal : Prop :=
  decodeCommand 0x01 = .fenc ∧ decodeCommand 0x02 = .fdec ∧ decodeCommand 0x03 = .rdecT ∧
  decodeCommand 0x0B = .rdecM ∧ decodeCommand 0x04 = .rxdecT ∧ decodeCommand 0x0C = .rxdecM ∧
  ∀ w : Byte, w ∉ [(0x01 : Byte), 0x02, 0x03, 0x0B, 0x04, 0x0C] → decodeCommand w = .rsvdCmd w

/-! ### The framer at the function level (40_framer_encode.md, 41_framer_decode.md) -/

/-- R115, the round-trip law, and that its converse is not a law. -/
def Obligations.DecodeOfEncodeIsTheInput : Prop :=
  (∀ x : List Byte, dec (enc x) = .ok x) ∧
  ∃ (f x : List Byte), dec f = .ok x ∧ enc x ≠ f

/-- R113: an encoded frame holds no zero byte. -/
def Obligations.EncodedFrameHasNoZeroByte : Prop :=
  ∀ (x : List Byte), ∀ b ∈ enc x, b ≠ 0x00

/-- Derived (the length formula, its bounds and the number of blocks in 40_framer_encode.md section 1,
which the spec marks as derived from its encoder). `q` sums `L_j div 254` over the runs; `e` is 1 where
the last run ends in a CONT block. -/
def Obligations.EncodedFrameLengthAndBlockCount : Prop :=
  ∀ (x : List Byte) (last q e : Nat),
    last = ((runs x).getLast?.getD []).length →
    q = ((runs x).map fun r => r.length / 254).sum →
    e = (if 1 ≤ last / 254 ∧ last % 254 = 0 then 1 else 0) →
    (enc x).length + e = x.length + 1 + q ∧
    x.length + 1 ≤ (enc x).length ∧ (enc x).length ≤ x.length + 1 + x.length / 254 ∧
    ∃ bs, blocks (enc x) = some bs ∧ bs.length + e = (runs x).length + q

/-- Derived (40_framer_encode.md section 1, the two facts about `SrcEnc`, marked derived there): the
encoder is D0's literal one on short runs, and elsewhere the literal one writes a number that is no byte
or is not undone by the decoder. -/
def Obligations.LiteralEncoderAgreesExactlyOnShortRuns : Prop :=
  ∀ x : List Byte,
    (((∀ r ∈ (runs x).dropLast, r.length ≤ 253) ∧ ((runs x).getLast?.getD []).length ≤ 254) →
      (enc x).map BitVec.toNat = srcEnc x) ∧
    (¬ ((∀ r ∈ (runs x).dropLast, r.length ≤ 253) ∧ ((runs x).getLast?.getD []).length ≤ 254) →
      (∃ v ∈ srcEnc x, 255 < v) ∨ dec ((srcEnc x).map (BitVec.ofNat 8)) ≠ .ok x)

/-- R132 to R135, one code byte at a time: 0x00 is the hard failure ZERO_CODE; a block that runs past the
end is the hard failure TRUNCATED; a complete block yields its data, then one zero exactly if its code is
below 0xFF and more input follows, then what the rest yields. -/
def Obligations.DecodeTakesOneBlockAtATime : Prop :=
  ∀ (c : Byte) (data rest : List Byte),
    dec (0x00 :: rest) = .error .zeroCode ∧
    (c ≠ 0x00 → rest.length < c.toNat - 1 → dec (c :: rest) = .error .truncated) ∧
    (c ≠ 0x00 → data.length = c.toNat - 1 →
      dec (c :: data ++ rest) =
        match dec rest with
        | .ok out => .ok (data ++ (if c ≠ 0xFF ∧ rest ≠ [] then [0x00] else []) ++ out)
        | .error e => .error e)

/-- R213, R214: where a frame fails, and that it fails nowhere else: ZERO_CODE exactly if a zero follows a
whole number of blocks, TRUNCATED exactly if an incomplete block does, with D0's two vectors. -/
def Obligations.FramesFailExactlyAtBadBlocks : Prop :=
  (∀ f : List Byte,
    ((∃ out, dec f = .ok out) ↔ (blocks f).isSome = true) ∧
    (dec f = .error .zeroCode ↔
      ∃ pre rest, f = pre ++ 0x00 :: rest ∧ (blocks pre).isSome = true) ∧
    (dec f = .error .truncated ↔
      ∃ pre c rest, f = pre ++ c :: rest ∧ (blocks pre).isSome = true ∧ c ≠ 0x00 ∧
        rest.length < c.toNat - 1)) ∧
  dec [0x00] = .error .zeroCode ∧ dec [0x05, 0x01, 0x02] = .error .truncated

/-- Derived (41_framer_decode.md section 3, totality and bounds, marked derived there): the length of what
a frame of `B` blocks decodes to. -/
def Obligations.DecodedLength : Prop :=
  ∀ (f out : List Byte), dec f = .ok out →
    (∃ bs, blocks f = some bs ∧
      out.length + bs.length = f.length + (bs.dropLast.filter fun b => b.1 != 0xFF).length) ∧
    (f ≠ [] → out.length ≤ f.length - 1) ∧ (f = [] → out = [])

/-! ### Reads, lookups and type decoders (20_memory.md, 42_typed_field_decode.md) -/

/-- R53: the read primitive is the little-endian sum, below `256^n`. -/
def Obligations.MemReadIsTheLittleEndianSum : Prop :=
  ∀ (p : List Byte) (a n : Nat), a + n ≤ p.length →
    memRead p a n = ∑ k ∈ Finset.range n, (p.getD (a + k) 0).toNat * 256 ^ k ∧
    memRead p a n < 256 ^ n

/-- Derived (20_memory.md section 2, what a mixed-width view sees, marked derived there). -/
def Obligations.MixedWidthViewsAgree : Prop :=
  ∀ p : List Byte, 4 ≤ p.length →
    memRead p 0 1 = memRead p 0 2 % 256 ∧ memRead p 0 1 = memRead p 0 4 % 256 ∧
    memRead p 0 2 = memRead p 0 4 % 65536 ∧
    ∀ i < 32, (memRead p 0 4).testBit i = (p.getD (i / 8) 0).getLsbD (i % 8)

/-- R156, R157: with a required byte count `w`, a shorter payload gives `SHORT_PAYLOAD(w)`; one that is
long enough gives a value that depends on its first `w` bytes alone; the raw fallback has no `w` and
returns all of the payload. -/
def Obligations.ShortPayloadsFailAndTrailingBytesAreIgnored : Prop :=
  ∀ (tb : Tables) (t : TypeRef) (p : List Byte),
    (∀ w, requiredBytes tb t = some w →
      (p.length < w → typeDecode tb t p = some (.error (.shortPayload w))) ∧
      (w ≤ p.length → ∃ v, typeDecode tb t p = some (.ok v) ∧
        ∀ q, q.take w = p.take w → typeDecode tb t q = some (.ok v))) ∧
    (∀ tag, t = .unknown tag → typeDecode tb t p = some (.ok (.raw p)))

/-- R158: the bits of a bitfield's last byte above flag `n - 1` (and whatever follows that byte) do not
influence the result, and `VALUE` is zero from bit `n` on. -/
def Obligations.UnusedBitfieldBitsAreIgnored : Prop :=
  ∀ (flags : List Ident) (low : List Byte) (b b' : Byte) (tail tail' : List Byte),
    flags.length % 8 ≠ 0 → low.length + 1 = (flags.length + 7) / 8 →
    b.toNat % 2 ^ (flags.length % 8) = b'.toNat % 2 ^ (flags.length % 8) →
    decodeBf flags (low ++ b :: tail) = decodeBf flags (low ++ b' :: tail') ∧
    ∀ v, decodeBf flags (low ++ b :: tail) = .ok v →
      ∀ i, flags.length ≤ i → (packValue v).getLsbD i = false

/-! ### The register decoder at the function level (43_register_decode.md) -/

/-- R189, the decision table of `RegDecode`, row by row. -/
def Obligations.RegisterDecodeDecisionTable : Prop :=
  ∀ (tb : Tables) (sel : MapSel) (m : List Byte) (id : Byte) (p : List Byte) (e : RegistryEntry),
    (m.length < 2 → regDecode tb sel m = some .null) ∧
    (m = id :: p → 1 ≤ p.length → mapLookup tb sel id = none →
      regDecode tb sel m = some (.record (.err id (.unknownRegister id)))) ∧
    (m = id :: p → 1 ≤ p.length → mapLookup tb sel id = some e →
      (∀ w, requiredBytes tb e.type = some w →
        (p.length < w → regDecode tb sel m = some (.record (.err id (.shortPayload w)))) ∧
        (w ≤ p.length → ∃ v, typeDecode tb e.type p = some (.ok v) ∧
          regDecode tb sel m = some (.record (.ok id e.name v)))) ∧
      (∀ tag, e.type = .unknown tag →
        regDecode tb sel m = some (.record (.ok id e.name (.raw p)))))

/-- Derived (43_register_decode.md section 1, the remark on what an implementation need store): unless the
value is raw, the outcome depends on the first five bytes of the message alone. -/
def Obligations.OnlyTheFirstFiveMessageBytesMatter : Prop :=
  ∀ (tb : Tables) (sel : MapSel) (m m' : List Byte), m.take 5 = m'.take 5 →
    (∀ reg name bs, regDecode tb sel m ≠ some (.record (.ok reg name (.raw bs)))) →
    regDecode tb sel m' = regDecode tb sel m

/-- R26: no admissible tile map defines 0xFE, so a message for it is an unknown register; and the tables of
this instantiation, whatever they are, are admissible. -/
def Obligations.TileRegisterFeIsUnknown : Prop :=
  (∀ (tb : Tables) (b : Byte) (p : List Byte), tb.wf = true →
    mapLookup tb .tile 0xFE = none ∧
    regDecode tb .tile (0xFE :: b :: p) = some (.record (.err 0xFE (.unknownRegister 0xFE)))) ∧
  Config.tables.wf = true

/-- R27: what one map decodes to does not depend on the other map. -/
def Obligations.MapsAreIndependent : Prop :=
  ∀ (tb : Tables) (other : RegMap) (m : List Byte),
    regDecode { tb with masterMap := other } .tile m = regDecode tb .tile m ∧
    regDecode { tb with tileMap := other } .master m = regDecode tb .master m

/-! ### Outcomes on the wire (30_encoding.md R90 to R93) -/

/-- R93: the packing of each value, by type, and that the consumer recovers the value from the `DONE` beat
and the `OUT` beats. -/
def Obligations.PackedValueIsRecovered : Prop :=
  ∀ (tb : Tables) (t : TypeRef) (p : List Byte) (v : Value) (reg : Byte) (name : Ident),
    typeDecode tb t p = some (.ok v) →
    (∀ n, v = .num n → t ≠ .scalar .int16 → ((packValue v).toNat : Int) = n) ∧
    (∀ n, v = .num n → t = .scalar .int16 → (packValue v).toInt = n) ∧
    (∀ bits, v = .f32 bits → packValue v = bits) ∧
    (∀ fs, v = .flags fs → ∀ i : Nat,
      (packValue v).getLsbD i = (fs.getD i ("", false)).2) ∧
    (∀ bs, v = .raw bs → packValue v = 0 ∧ reportBytes (.record (.ok reg name v)) = bs) ∧
    ((∀ bs, v ≠ .raw bs) → reportBytes (.record (.ok reg name v)) = []) ∧
    unpackDone tb (reportBytes (.record (.ok reg name v)))
        (packDone (typeTag t) (typeSelector t) (.record (.ok reg name v))) =
      some (.record (.ok reg name v))

/-! ### The operations, one beat at a time

Each conclusion is an equation with the whole next state, so it says both that the instruction completes
and that everything it does not name (the tables, `MAX_LEN`, the other engines' state) is unchanged. -/

/-- R116: the beats of FENC (with the opening of a transaction, 10_state.md section 6). -/
def Obligations.FencBeats : Prop :=
  ∀ (s : State) (rest : List HostEvent),
    (s.phase = .idle → s.req = .cmd 0x01 :: rest →
      exec .fenc s = .next { s with
        req := rest, phase := .opened, op := .fenc, map := .tile, count := 0, overLength := false
        run := [], afterFull := false }) ∧
    (s.phase = .opened → s.job = none → s.overLength = false → s.count < s.maxLen →
      s.req = .data 0x00 :: rest →
      exec .fenc s = .next { s with
        req := rest, count := s.count + 1, run := [], afterFull := false
        rsp := s.rsp ++ (BitVec.ofNat 8 (s.run.length + 1) :: s.run).map .out }) ∧
    (∀ b : Byte, b ≠ 0x00 →
      s.phase = .opened → s.job = none → s.overLength = false → s.count < s.maxLen →
      s.req = .data b :: rest →
      (s.run.length ≠ 253 → exec .fenc s = .next { s with
        req := rest, count := s.count + 1, run := s.run ++ [b], afterFull := false }) ∧
      (s.run.length = 253 → exec .fenc s = .next { s with
        req := rest, count := s.count + 1, run := [], afterFull := true
        rsp := s.rsp ++ (0xFF :: (s.run ++ [b])).map .out })) ∧
    (s.phase = .opened → s.job = none → s.overLength = false → s.req = .endIn :: rest →
      (s.afterFull = false → exec .fenc s = .next { s with
        req := rest, phase := .idle
        rsp := s.rsp ++ (BitVec.ofNat 8 (s.run.length + 1) :: s.run).map .out ++
          [.done ⟨0x0, 0, 0, 0, 0, "", 0⟩] }) ∧
      (s.afterFull = true → exec .fenc s = .next { s with
        req := rest, phase := .idle, rsp := s.rsp ++ [.done ⟨0x0, 0, 0, 0, 0, "", 0⟩] }))

/-- Derived (41_framer_decode.md section 4, the beat level, with the opening of 10_state.md section 6): the
beats of FDEC, its `sink` being an `OUT` beat. -/
def Obligations.FdecBeats : Prop :=
  ∀ (s : State) (rest : List HostEvent),
    (s.phase = .idle → s.req = .cmd 0x02 :: rest →
      exec .fdec s = .next { s with
        req := rest, phase := .opened, op := .fdec, map := .tile, count := 0, overLength := false
        rem := 0, pz := false, err := none }) ∧
    (∀ b : Byte, s.phase = .opened → s.job = none → s.overLength = false → s.count < s.maxLen →
      s.req = .data b :: rest →
      (s.err ≠ none → exec .fdec s = .next { s with req := rest, count := s.count + 1 }) ∧
      (s.err = none → s.rem = 0 → b = 0x00 → exec .fdec s = .next { s with
        req := rest, count := s.count + 1, err := some .zeroCode }) ∧
      (s.err = none → s.rem = 0 → b ≠ 0x00 → exec .fdec s = .next { s with
        req := rest, count := s.count + 1, rem := b.toNat - 1, pz := decide (b.toNat < 255)
        rsp := s.rsp ++ (if s.pz then [.out 0x00] else []) }) ∧
      (s.err = none → 0 < s.rem → exec .fdec s = .next { s with
        req := rest, count := s.count + 1, rem := s.rem - 1, rsp := s.rsp ++ [.out b] })) ∧
    (s.phase = .opened → s.job = none → s.overLength = false → s.req = .endIn :: rest →
      (s.err = none → s.rem = 0 → exec .fdec s = .next { s with
        req := rest, phase := .idle, rsp := s.rsp ++ [.done ⟨0x0, 0, 0, 0, 0, "", 0⟩] }) ∧
      (s.err = none → 0 < s.rem → exec .fdec s = .next { s with
        req := rest, phase := .idle, err := some .truncated
        rsp := s.rsp ++ [.done ⟨0x9, 0, 0, 0, 0, "", 0⟩] }) ∧
      (s.err = some .zeroCode → exec .fdec s = .next { s with
        req := rest, phase := .idle, rsp := s.rsp ++ [.done ⟨0x8, 0, 0, 0, 0, "", 0⟩] }) ∧
      (s.err = some .truncated → exec .fdec s = .next { s with
        req := rest, phase := .idle, rsp := s.rsp ++ [.done ⟨0x9, 0, 0, 0, 0, "", 0⟩] }))

/-- Derived (41_framer_decode.md sections 2 and 4: the block classes at the beat level): a code byte on
offer at a block boundary of an open FDEC or RXDEC transaction. BLK.LINK and BLK.CONT first pay the zero
that the previous LINK block owes: as an `OUT` beat in FDEC, into the message in RXDEC. -/
def Obligations.BlockClassBeats : Prop :=
  ∀ (s : State) (b c : Byte) (rest : List HostEvent),
    s.phase = .opened → s.job = none → s.overLength = false → s.count < s.maxLen →
    s.err = none → s.rem = 0 → s.req = .data b :: rest →
    ((s.op = .fdec ∨ s.op = .rxdec) → exec .blkIll s = .next { s with
      req := rest, count := s.count + 1, err := some .zeroCode }) ∧
    (s.op = .fdec → c ≠ 0x00 → c ≠ 0xFF → exec (.blkLink c) s = .next { s with
      req := rest, count := s.count + 1, rem := c.toNat - 1, pz := true
      rsp := s.rsp ++ (if s.pz then [.out 0x00] else []) }) ∧
    (s.op = .rxdec → c ≠ 0x00 → c ≠ 0xFF → exec (.blkLink c) s = .next { s with
      req := rest, count := s.count + 1, rem := c.toNat - 1, pz := true
      msg := s.msg ++ (if s.pz then [0x00] else []) }) ∧
    (s.op = .fdec → exec .blkCont s = .next { s with
      req := rest, count := s.count + 1, rem := 254, pz := false
      rsp := s.rsp ++ (if s.pz then [.out 0x00] else []) }) ∧
    (s.op = .rxdec → exec .blkCont s = .next { s with
      req := rest, count := s.count + 1, rem := 254, pz := false
      msg := s.msg ++ (if s.pz then [0x00] else []) })

/-- Derived (43_register_decode.md section 1, the beat level of RDEC, with the opening of 10_state.md
section 6): the beats of RDEC.T and RDEC.M. At END the shape test and the lookup of R181 are made; an
entry found leaves its type decode to the TD instruction, which the same step runs (log entry 5; the whole
of END is RecordEndIsOneStep). -/
def Obligations.RdecBeats : Prop :=
  ∀ (i : Instr) (w : Byte) (m : MapSel) (s : State) (rest : List HostEvent),
    ((i = .rdecT ∧ w = 0x03 ∧ m = .tile) ∨ (i = .rdecM ∧ w = 0x0B ∧ m = .master)) →
    (s.phase = .idle → s.req = .cmd w :: rest →
      exec i s = .next { s with
        req := rest, phase := .opened, op := .rdec, map := m, count := 0, overLength := false
        msg := [] }) ∧
    (∀ b : Byte, s.phase = .opened → s.job = none → s.overLength = false → s.count < s.maxLen →
      s.req = .data b :: rest →
      exec i s = .next { s with
        req := rest, count := s.count + 1, msg := s.msg ++ [b] }) ∧
    (s.phase = .opened → s.job = none → s.overLength = false → s.req = .endIn :: rest →
      (s.msg.length < 2 → exec i s = .next { s with
        req := rest, phase := .idle, rsp := s.rsp ++ [.done ⟨0x2, 0, 0, 0, 0, "", 0⟩] }) ∧
      (∀ id p, s.msg = id :: p → 1 ≤ p.length →
        (mapLookup s.tables s.map id = none → exec i s = .next { s with
          req := rest, phase := .idle
          rsp := s.rsp ++ [.done ⟨0x4, id, id, 0, 0, "", 0⟩] }) ∧
        (∀ e, mapLookup s.tables s.map id = some e → exec i s = .next { s with
          req := rest, job := some ⟨id, p, e⟩ })))

/-- Derived (43_register_decode.md section 2, the beat level of RXDEC, with the opening of 10_state.md
section 6): the beats of RXDEC.T and RXDEC.M: the machine of FDEC with the message buffer for a sink, and
the END of RDEC where the frame is whole. At END an entry found leaves its type decode to the TD
instruction, which the same step runs: that the meaning of RXDEC stops short of `DONE` there is the model's
choice of log entry 5; the whole of END is RecordEndIsOneStep. -/
def Obligations.RxdecBeats : Prop :=
  ∀ (i : Instr) (w : Byte) (m : MapSel) (s : State) (rest : List HostEvent),
    ((i = .rxdecT ∧ w = 0x04 ∧ m = .tile) ∨ (i = .rxdecM ∧ w = 0x0C ∧ m = .master)) →
    (s.phase = .idle → s.req = .cmd w :: rest →
      exec i s = .next { s with
        req := rest, phase := .opened, op := .rxdec, map := m, count := 0, overLength := false
        rem := 0, pz := false, err := none, msg := [] }) ∧
    (∀ b : Byte, s.phase = .opened → s.job = none → s.overLength = false → s.count < s.maxLen →
      s.req = .data b :: rest →
      (s.err ≠ none → exec i s = .next { s with req := rest, count := s.count + 1 }) ∧
      (s.err = none → s.rem = 0 → b = 0x00 → exec i s = .next { s with
        req := rest, count := s.count + 1, err := some .zeroCode }) ∧
      (s.err = none → s.rem = 0 → b ≠ 0x00 → exec i s = .next { s with
        req := rest, count := s.count + 1, rem := b.toNat - 1, pz := decide (b.toNat < 255)
        msg := s.msg ++ (if s.pz then [0x00] else []) }) ∧
      (s.err = none → 0 < s.rem → exec i s = .next { s with
        req := rest, count := s.count + 1, rem := s.rem - 1, msg := s.msg ++ [b] })) ∧
    (s.phase = .opened → s.job = none → s.overLength = false → s.req = .endIn :: rest →
      (s.err = some .zeroCode → exec i s = .next { s with
        req := rest, phase := .idle, rsp := s.rsp ++ [.done ⟨0x8, 0, 0, 0, 0, "", 0⟩] }) ∧
      (s.err = some .truncated → exec i s = .next { s with
        req := rest, phase := .idle, rsp := s.rsp ++ [.done ⟨0x9, 0, 0, 0, 0, "", 0⟩] }) ∧
      (s.err = none → 0 < s.rem → exec i s = .next { s with
        req := rest, phase := .idle, err := some .truncated
        rsp := s.rsp ++ [.done ⟨0x9, 0, 0, 0, 0, "", 0⟩] }) ∧
      (s.err = none → s.rem = 0 → s.msg.length < 2 → exec i s = .next { s with
        req := rest, phase := .idle, rsp := s.rsp ++ [.done ⟨0x2, 0, 0, 0, 0, "", 0⟩] }) ∧
      (∀ id p, s.err = none → s.rem = 0 → s.msg = id :: p → 1 ≤ p.length →
        (mapLookup s.tables s.map id = none → exec i s = .next { s with
          req := rest, phase := .idle
          rsp := s.rsp ++ [.done ⟨0x4, id, id, 0, 0, "", 0⟩] }) ∧
        (∀ e, mapLookup s.tables s.map id = some e → exec i s = .next { s with
          req := rest, job := some ⟨id, p, e⟩ })))

/-- R225: (1) a reserved command word opens a transaction whose `DATA` beats are dropped, however many,
and whose `DONE` carries Refused(CMD); (2) a legal transaction that receives a `DATA` beat when `count` is
`MAX_LEN` drops it and all later ones, and answers Refused(LENGTH) at END; the `OUT` beats of both are
void. `overLength` is the model's name for the state that (2) implies (log entry 4). -/
def Obligations.RefusedRequestBeats : Prop :=
  ∀ (s : State) (rest : List HostEvent),
    (∀ w : Byte, legalCommand w = false →
      (s.phase = .idle → s.req = .cmd w :: rest →
        ∃ t, exec (.rsvdCmd w) s = .next t ∧ t.phase = .opened ∧ t.job = s.job ∧ t.req = rest ∧
          t.rsp = s.rsp ∧ t.tables = s.tables ∧ t.maxLen = s.maxLen) ∧
      (∀ b : Byte, s.phase = .opened → s.job = none → s.req = .data b :: rest →
        exec (.rsvdCmd w) s = .next { s with req := rest }) ∧
      (s.phase = .opened → s.job = none → s.req = .endIn :: rest →
        exec (.rsvdCmd w) s = .next { s with
          req := rest, phase := .idle, rsp := s.rsp ++ [.done ⟨0xC, 0, 0, 0, 0, "", 0⟩] })) ∧
    (∀ i ∈ [Instr.fenc, .fdec, .rdecT, .rdecM, .rxdecT, .rxdecM],
      s.phase = .opened → s.job = none →
      (∀ b : Byte, s.overLength = false → s.count = s.maxLen → s.req = .data b :: rest →
        exec i s = .next { s with req := rest, overLength := true }) ∧
      (∀ b : Byte, s.overLength = true → s.req = .data b :: rest →
        exec i s = .next { s with req := rest }) ∧
      (s.overLength = true → s.req = .endIn :: rest →
        exec i s = .next { s with
          req := rest, phase := .idle, rsp := s.rsp ++ [.done ⟨0xD, 0, 0, 0, 0, "", 0⟩] })) ∧
    (∀ outs : List Byte,
      unpackDone s.tables outs ⟨0xC, 0, 0, 0, 0, "", 0⟩ = some (.refused .cmd) ∧
      unpackDone s.tables outs ⟨0xD, 0, 0, 0, 0, "", 0⟩ = some (.refused .length))

/-! ### The typed-field decoders (42_typed_field_decode.md)

Each finishes the type decode that a lookup has left under way (`job`, log entry 5). -/

/-- R150: TD.U8, on a payload that is long enough and on one that is not. -/
def Obligations.TdU8Reports : Prop :=
  ∀ (s : State) (reg : Byte) (p : List Byte) (e : RegistryEntry), s.job = some ⟨reg, p, e⟩ →
    (∀ b0 tail, p = b0 :: tail → exec .tdU8 s = .next { s with
      phase := .idle, job := none
      rsp := s.rsp ++ [.done ⟨0x1, reg, 0, 0x0, 0, e.name, b0.zeroExtend 32⟩] }) ∧
    (p = [] → exec .tdU8 s = .next { s with
      phase := .idle, job := none, rsp := s.rsp ++ [.done ⟨0x5, reg, 1, 0, 0, "", 0⟩] })

/-- R151, R152: TD.U16 zero-extends and TD.I16 sign-extends the same 16 bits, first byte lowest. -/
def Obligations.TdU16AndI16Report : Prop :=
  ∀ (s : State) (reg : Byte) (p : List Byte) (e : RegistryEntry), s.job = some ⟨reg, p, e⟩ →
    (∀ b0 b1 tail, p = b0 :: b1 :: tail →
      exec .tdU16 s = .next { s with
        phase := .idle, job := none
        rsp := s.rsp ++ [.done ⟨0x1, reg, 0, 0x1, 0, e.name, (b1 ++ b0).zeroExtend 32⟩] } ∧
      exec .tdI16 s = .next { s with
        phase := .idle, job := none
        rsp := s.rsp ++ [.done ⟨0x1, reg, 0, 0x2, 0, e.name, (b1 ++ b0).signExtend 32⟩] }) ∧
    (p.length ≤ 1 → ∀ i ∈ [Instr.tdU16, .tdI16], exec i s = .next { s with
      phase := .idle, job := none, rsp := s.rsp ++ [.done ⟨0x5, reg, 2, 0, 0, "", 0⟩] })

/-- R153, R154: TD.U32 and TD.F32 deliver the same 32 bits, first byte lowest, under their own tags. -/
def Obligations.TdU32AndF32Report : Prop :=
  ∀ (s : State) (reg : Byte) (p : List Byte) (e : RegistryEntry), s.job = some ⟨reg, p, e⟩ →
    (∀ b0 b1 b2 b3 tail, p = b0 :: b1 :: b2 :: b3 :: tail →
      exec .tdU32 s = .next { s with
        phase := .idle, job := none
        rsp := s.rsp ++ [.done ⟨0x1, reg, 0, 0x3, 0, e.name, b3 ++ b2 ++ b1 ++ b0⟩] } ∧
      exec .tdF32 s = .next { s with
        phase := .idle, job := none
        rsp := s.rsp ++ [.done ⟨0x1, reg, 0, 0x4, 0, e.name, b3 ++ b2 ++ b1 ++ b0⟩] }) ∧
    (p.length ≤ 3 → ∀ i ∈ [Instr.tdU32, .tdF32], exec i s = .next { s with
      phase := .idle, job := none, rsp := s.rsp ++ [.done ⟨0x5, reg, 4, 0, 0, "", 0⟩] })

/-- R155: TD.BF with a well-formed bitfield type at its selector (R28): flag `i` is bit `i mod 8` of payload
byte `i div 8`, every other bit of `VALUE` is zero, and a payload of fewer than `ceil(n/8)` bytes is
short. -/
def Obligations.TdBfReports : Prop :=
  ∀ (s : State) (sel reg : Byte) (p : List Byte) (e : RegistryEntry) (name : Ident)
    (flags : List Ident), s.job = some ⟨reg, p, e⟩ →
    s.tables.bfTable[sel.toNat]? = some ⟨name, flags⟩ → flags.length ≤ 32 → flags.Nodup →
    ((flags.length + 7) / 8 ≤ p.length → ∃ value : Word32,
      exec (.tdBf sel) s = .next { s with
        phase := .idle, job := none
        rsp := s.rsp ++ [.done ⟨0x1, reg, 0, 0x8, sel, e.name, value⟩] } ∧
      ∀ i : Nat, value.getLsbD i =
        (decide (i < flags.length) && (p.getD (i / 8) 0).getLsbD (i % 8))) ∧
    (p.length < (flags.length + 7) / 8 → exec (.tdBf sel) s = .next { s with
      phase := .idle, job := none
      rsp := s.rsp ++
        [.done ⟨0x5, reg, BitVec.ofNat 8 ((flags.length + 7) / 8), 0, 0, "", 0⟩] })

/-- R160: TD.RAW sends all payload bytes as `OUT` beats, then the success record with `VALUE` zero; it never
fails. -/
def Obligations.TdRawReports : Prop :=
  ∀ (s : State) (reg : Byte) (p : List Byte) (e : RegistryEntry), s.job = some ⟨reg, p, e⟩ →
    exec .tdRaw s = .next { s with
      phase := .idle, job := none
      rsp := s.rsp ++ p.map .out ++ [.done ⟨0x1, reg, 0, 0xF, 0, e.name, 0⟩] }

/-! ### The step -/

/-- Derived (the step of this model; 30_encoding.md section 9 gives the words; log entry 5): a step runs the
decoded instruction. Where the bytes the block fetches decode to `i`, `step` is `exec i` at the same state,
with nothing added, unless `i` leaves a type decode under way: then the step goes on with the TD instruction
of that type. -/
def Obligations.StepRunsTheDecodedInstruction : Prop :=
  ∀ (s : State) (f : Format) (bytes : List Byte) (i : Instr),
    fetch s = some (f, bytes) → decode f bytes = .ok i →
    (∀ r, exec i s = .refused r → step s = .refused r) ∧
    (∀ t, exec i s = .next t → t.job = none → step s = .next t) ∧
    (∀ t j, exec i s = .next t → t.job = some j →
      ∃ td, decode .tt (typeWord j.entry.type) = .ok td ∧ step s = exec td t)

/-- Derived (30_encoding.md section 2, 41_framer_decode.md section 4: where a code byte stands;
42_typed_field_decode.md section 1: the decoder by the entry's type): which instruction a step runs: the
command on offer in phase IDLE, the code byte at a block boundary, the operation under way otherwise; and
after it, where a lookup has left a type decode under way, the decoder of the entry's type (`finishType`).
That this decoder is an instruction of its own within the step, and that a state with a type decode under
way can be placed and stepped, is the model's choice (log entries 5, 9). -/
def Obligations.StepRunsTheInstructionInPosition : Prop :=
  ∀ (s : State) (rest : List HostEvent),
    (∀ w, s.phase = .idle → s.job = none → s.req = .cmd w :: rest →
      step s = exec (decodeCommand w) s) ∧
    (∀ b, s.phase = .opened → s.job = none → s.req = .data b :: rest →
      (s.op = .fenc → step s = exec .fenc s) ∧
      (s.op = .rdec → step s = exec (match s.map with | .tile => .rdecT | .master => .rdecM) s) ∧
      (∀ w, s.op = .rsvd w → legalCommand w = false → step s = exec (.rsvdCmd w) s) ∧
      (s.overLength = false → s.count < s.maxLen → s.err = none → s.rem = 0 →
        (s.op = .fdec ∨ s.op = .rxdec) →
        step s = exec (if b = 0x00 then .blkIll else if b = 0xFF then .blkCont else .blkLink b) s) ∧
      ((s.overLength = true ∨ s.maxLen ≤ s.count ∨ s.err ≠ none ∨ 0 < s.rem) →
        (s.op = .fdec → step s = exec .fdec s) ∧
        (s.op = .rxdec →
          step s = exec (match s.map with | .tile => .rxdecT | .master => .rxdecM) s))) ∧
    (s.phase = .opened → s.job = none → s.req = .endIn :: rest →
      (s.op = .fenc → step s = exec .fenc s) ∧ (s.op = .fdec → step s = exec .fdec s) ∧
      (s.op = .rdec →
        step s = finishType (exec (match s.map with | .tile => .rdecT | .master => .rdecM) s)) ∧
      (s.op = .rxdec →
        step s = finishType (exec (match s.map with | .tile => .rxdecT | .master => .rxdecM) s)) ∧
      (∀ w, s.op = .rsvd w → legalCommand w = false → step s = exec (.rsvdCmd w) s)) ∧
    (s.job = none → finishType (.next s) = .next s) ∧
    (∀ j, s.job = some j →
      finishType (.next s) = exec (match j.entry.type with
        | .scalar .uint8 => .tdU8
        | .scalar .uint16 => .tdU16
        | .scalar .int16 => .tdI16
        | .scalar .uint32 => .tdU32
        | .scalar .float32 => .tdF32
        | .bitfield sel => .tdBf sel
        | .unknown _ => .tdRaw) s ∧
      (s.req = [] → step s = finishType (.next s)))

/-- Derived (30_encoding.md sections 7 and 9): every word the block ever fetches, and every type word it runs
after a lookup, is the encoding of a well-formed instruction, so no step is refused as undecodable. -/
def Obligations.EveryFetchedWordIsAnInstruction : Prop :=
  (∀ (s : State) (f : Format) (bytes : List Byte), fetch s = some (f, bytes) →
    ∃ i, decode f bytes = .ok i ∧ i.wf = true ∧ encode i = (f, bytes)) ∧
  (∀ t : TypeRef, ∃ i, decode .tt (typeWord t) = .ok i ∧ i.wf = true ∧ encode i = (.tt, typeWord t)) ∧
  ∀ s : State, step s ≠ .refused .undecodable

/-- R248: the beats that have no meaning are refused, each by name. A type decode under way is the time
after END and before DONE; a `CMD` beat in phase OPEN is refused there as at any other time. -/
def Obligations.ProtocolViolationsAreRefusedByName : Prop :=
  ∀ (s : State) (b w : Byte) (rest : List HostEvent),
    (s.phase = .idle → s.job = none → s.req = .data b :: rest → step s = .refused .dataWhileIdle) ∧
    (s.phase = .idle → s.job = none → s.req = .endIn :: rest → step s = .refused .endWhileIdle) ∧
    (s.phase = .opened → s.req = .cmd w :: rest → step s = .refused .cmdWhileOpen) ∧
    (s.job ≠ none → s.req = .data b :: rest → step s = .refused .beatAfterEnd)

/-- Derived, the model's own stops, each by name: a code byte executed off a block boundary, a type tag
executed where no type decode is under way (log entry 10); TD.BF where the table has no well-formed type at
its selector (93_implementation_defined.md U13, log entry 13); a second END before DONE (log entry 17). -/
def Obligations.OwnStopsAreRefusedByName : Prop :=
  ∀ s : State,
    (s.atCode = false → ∀ c, ∀ i ∈ [Instr.blkIll, .blkLink c, .blkCont],
      exec i s = .refused .outOfPosition) ∧
    (s.job = none → ∀ i ∈ [Instr.tdU8, .tdU16, .tdI16, .tdU32, .tdF32, .tdRaw],
      exec i s = .refused .outOfPosition) ∧
    (∀ sel : Byte, s.tables.bfTable.length ≤ sel.toNat →
      exec (.tdBf sel) s = .refused .malformedTables) ∧
    (∀ (sel : Byte) (name : Ident) (flags : List Ident),
      s.tables.bfTable[sel.toNat]? = some ⟨name, flags⟩ → (32 < flags.length ∨ ¬ flags.Nodup) →
      exec (.tdBf sel) s = .refused .malformedTables) ∧
    (∀ rest, s.job ≠ none → s.req = .endIn :: rest → step s = .refused .beatAfterEnd)

/-- Derived (the model's form of "the block waits for the host's beats", 70_reset_and_hazards.md section
4, log entry 6): with nothing on offer and no type decode under way the block stays as it is. -/
def Obligations.WithoutABeatTheBlockWaits : Prop :=
  ∀ s : State, s.req = [] → s.job = none → step s = .next s

/-! ### Reset (70_reset_and_hazards.md) -/

/-- R241, R242: reset, at any time: phase IDLE, no type decode, the tables unchanged; no `OUT` and no
`DONE` is sent, and what was sent since the last `DONE` is void; after it the block accepts any command,
and `DATA` or `END` without one is a protocol violation. -/
def Obligations.ResetAbandonsTheTransaction : Prop :=
  ∀ (s : State) (rest : List HostEvent), s.req = .reset :: rest →
    ∃ t new, step s = .next t ∧ t.phase = .idle ∧ t.job = none ∧ t.tables = s.tables ∧
      t.maxLen = s.maxLen ∧ t.req = rest ∧ t.rsp = s.rsp ++ new ∧
      (∀ b, .out b ∉ new) ∧ (∀ d, .done d ∉ new) ∧
      (∀ outs later, readOutcomes s.tables outs (new ++ later) = readOutcomes s.tables [] later) ∧
      (∀ w r, rest = .cmd w :: r → ∃ u, step t = .next u ∧ u.phase = .opened ∧ u.req = r) ∧
      (∀ b r, rest = .data b :: r → step t = .refused .dataWhileIdle) ∧
      (∀ r, rest = .endIn :: r → step t = .refused .endWhileIdle)

/-- Derived: what reset leaves. Phase IDLE and the constant tables are the spec's (10_state.md section 7);
that nothing is on the ports is the model's form of a start (log entries 6, 7); the values of the other
cells are the model's choice, which that section allows (log entry 3), and nothing is stated of them. -/
def Obligations.ResetStateIsIdleWithTheConstantTables : Prop :=
  State.reset.phase = .idle ∧ State.reset.job = none ∧ State.reset.tables = Config.tables ∧
  State.reset.maxLen = Config.maxLen ∧ State.reset.req = [] ∧ State.reset.rsp = []

/-! ### Invariants and whole-machine rules -/

/-- Derived: the invariant of the working state holds at reset. -/
def Obligations.ResetKeepsTheRanges : Prop := Inv State.reset

/-- Derived (10_state.md section 6, the ranges of the working state): every step from every state in which
the working state lies in the ranges of R36 to R39 (and the tables are as R28 asks) leads to such a state.
-/
def Obligations.EveryStepKeepsTheRanges : Prop :=
  ∀ s t : State, Inv s → step s = .next t → Inv t

/-- R29: no step, reset included, writes the tables or `MAX_LEN`. -/
def Obligations.NoStepWritesTheTables : Prop :=
  ∀ s t : State, step s = .next t → t.tables = s.tables ∧ t.maxLen = s.maxLen

/-- Derived (30_encoding.md section 7: codes never produced, fields that are not valid read as zero): a step
only adds to what has been sent; every `DONE` beat it sends has a status that is produced, a tag that is
produced and zero in every field that is not valid for its status; it is the last beat of its step, and it
puts the block in phase IDLE (R36). -/
def Obligations.EveryDoneBeatIsLegal : Prop :=
  ∀ s t : State, step s = .next t →
    ∃ new, t.rsp = s.rsp ++ new ∧
      (∀ d, .done d ∈ new → d.wf = true ∧ t.phase = .idle ∧ t.job = none ∧
        ∃ outs : List Byte, new = outs.map .out ++ [.done d])

/-- Derived (70_reset_and_hazards.md section 3, protocol violations): from a state in the ranges, a step is
refused exactly on `protocolViolation`; in every other case it takes a next state (there is no fault). That
a second END before `DONE` is a violation is the model's reading (log entry 17). -/
def Obligations.StepsStopExactlyOnProtocolViolations : Prop :=
  ∀ s : State, Inv s →
    ((∃ r, step s = .refused r) ↔ protocolViolation s = true) ∧
    ((∃ t, step s = .next t) ↔ protocolViolation s = false)

/-- R255: once END is on offer in an open transaction, and whatever the host offers after it, `DONE` follows
after finitely many steps. -/
def Obligations.DoneFollowsEndAfterFinitelyManySteps : Prop :=
  ∀ (s : State) (rest : List HostEvent), Inv s → s.phase = .opened → s.job = none →
    s.req = .endIn :: rest →
    ∃ k t outs d, steps k s = .next t ∧ t.phase = .idle ∧ t.job = none ∧
      t.req = rest ∧ t.rsp = s.rsp ++ List.map RspEvent.out outs ++ [.done d]

/-! ### Whole transactions: the beat level refines the function level

The instance is at rest, whatever its working state, with one transaction on offer and anything at all after
it: END and `DONE` are one step, so what comes after END is received after `DONE`. -/

/-- Derived (40_framer_encode.md section 2, the refinement, marked derived there): a FENC transaction
sends exactly `Enc(x)` and then BYTES. -/
def Obligations.FencTransactionSendsTheEncoding : Prop :=
  ∀ (s : State) (x : List Byte) (rest : List HostEvent),
    s.atRest → s.req = transactionBeats 0x01 x ++ rest → x.length ≤ s.maxLen →
    ∃ t, steps (x.length + 2) s = .next t ∧ t.atRest ∧ t.req = rest ∧ t.tables = s.tables ∧
      t.maxLen = s.maxLen ∧
      t.rsp = s.rsp ++ (enc x).map .out ++ [.done ⟨0x0, 0, 0, 0, 0, "", 0⟩]

/-- Derived (41_framer_decode.md section 4, the refinement, marked derived there): an FDEC transaction
sends `Dec(f)` and BYTES, or FAIL with the same cause after `OUT` beats that are void. -/
def Obligations.FdecTransactionSendsTheDecoding : Prop :=
  ∀ (s : State) (f : List Byte) (rest : List HostEvent),
    s.atRest → s.req = transactionBeats 0x02 f ++ rest → f.length ≤ s.maxLen →
    ∃ t, steps (f.length + 2) s = .next t ∧ t.atRest ∧ t.req = rest ∧ t.tables = s.tables ∧
      t.maxLen = s.maxLen ∧
      (∀ out, dec f = .ok out →
        t.rsp = s.rsp ++ out.map .out ++ [.done ⟨0x0, 0, 0, 0, 0, "", 0⟩]) ∧
      (dec f = .error .zeroCode → ∃ outs : List Byte,
        t.rsp = s.rsp ++ outs.map .out ++ [.done ⟨0x8, 0, 0, 0, 0, "", 0⟩]) ∧
      (dec f = .error .truncated → ∃ outs : List Byte,
        t.rsp = s.rsp ++ outs.map .out ++ [.done ⟨0x9, 0, 0, 0, 0, "", 0⟩])

/-- Derived (43_register_decode.md sections 1 and 2, the beat level of RDEC and RXDEC): such a transaction
sends no `OUT` beat but those of a raw value, then one `DONE`, from which the host reads `RegDecode` of
the message, or `RxDecode` of the frame. The number of steps, one for each beat, is the model's (log entries
5, 6). -/
def Obligations.RecordTransactionsSendTheRecord : Prop :=
  ∀ (s : State) (w : Byte) (sel : MapSel) (x : List Byte) (rest : List HostEvent) (o : CodecOutcome),
    s.atRest → s.req = transactionBeats w x ++ rest → x.length ≤ s.maxLen →
    ((w = 0x03 ∧ sel = .tile ∧ regDecode s.tables sel x = some o) ∨
      (w = 0x0B ∧ sel = .master ∧ regDecode s.tables sel x = some o) ∨
      (w = 0x04 ∧ sel = .tile ∧ rxDecode s.tables sel x = some o) ∨
      (w = 0x0C ∧ sel = .master ∧ rxDecode s.tables sel x = some o)) →
    ∃ t d, steps (x.length + 2) s = .next t ∧ t.atRest ∧ t.req = rest ∧
      t.tables = s.tables ∧ t.maxLen = s.maxLen ∧
      t.rsp = s.rsp ++ (reportBytes o).map .out ++ [.done d] ∧
      unpackDone s.tables (reportBytes o) d = some o

/-- R32, the transaction shape: every transaction the protocol allows, with any of the 256 command words
and any input, and whatever the host offers after it, is answered by some `OUT` beats and then exactly one
`DONE`, from which the host reads exactly the function-level outcome, in the order of priority of
60_exceptions.md section 4 (`transactionOutcome`). -/
def Obligations.EveryTransactionEndsWithItsOutcome : Prop :=
  ∀ (s : State) (w : Byte) (x : List Byte) (rest : List HostEvent) (o : CodecOutcome),
    s.atRest → s.req = transactionBeats w x ++ rest →
    transactionOutcome s.tables s.maxLen w x = some o →
    ∃ k t outs d, steps k s = .next t ∧ t.atRest ∧ t.req = rest ∧ t.tables = s.tables ∧
      t.maxLen = s.maxLen ∧ t.rsp = s.rsp ++ List.map RspEvent.out outs ++ [.done d] ∧
      unpackDone s.tables outs d = some o

/-- R220: which outcome a transaction has when several conditions hold: the first that applies. -/
def Obligations.OutcomesFollowThePriority : Prop :=
  ∀ (tb : Tables) (maxLen : Nat) (w : Byte) (x : List Byte),
    (legalCommand w = false → transactionOutcome tb maxLen w x = some (.refused .cmd)) ∧
    (legalCommand w = true → maxLen < x.length →
      transactionOutcome tb maxLen w x = some (.refused .length)) ∧
    (legalCommand w = true → x.length ≤ maxLen →
      (w = 0x01 → transactionOutcome tb maxLen w x = some (.bytes (enc x))) ∧
      (∀ c, (w = 0x02 ∨ w = 0x04 ∨ w = 0x0C) → dec x = .error c →
        transactionOutcome tb maxLen w x = some (.hardFail c)) ∧
      (∀ out, w = 0x02 → dec x = .ok out → transactionOutcome tb maxLen w x = some (.bytes out)) ∧
      (∀ sel m, ((w = 0x03 ∧ sel = .tile ∧ m = x) ∨ (w = 0x0B ∧ sel = .master ∧ m = x) ∨
          (w = 0x04 ∧ sel = .tile ∧ dec x = .ok m) ∨
          (w = 0x0C ∧ sel = .master ∧ dec x = .ok m)) →
        (m.length < 2 → transactionOutcome tb maxLen w x = some .null) ∧
        (∀ id b p, m = id :: b :: p →
          (mapLookup tb sel id = none →
            transactionOutcome tb maxLen w x = some (.record (.err id (.unknownRegister id)))) ∧
          (∀ e, mapLookup tb sel id = some e →
            (∀ n, typeDecode tb e.type (b :: p) = some (.error (.shortPayload n)) →
              transactionOutcome tb maxLen w x = some (.record (.err id (.shortPayload n)))) ∧
            (∀ v, typeDecode tb e.type (b :: p) = some (.ok v) →
              transactionOutcome tb maxLen w x = some (.record (.ok id e.name v)))))))

/-- Derived (60_exceptions.md section 1, every transaction ends in one outcome): with well-formed tables
the functions are total. -/
def Obligations.WellFormedTablesGiveEveryTransactionAnOutcome : Prop :=
  ∀ (tb : Tables) (maxLen : Nat) (w : Byte) (x : List Byte), tb.wf = true →
    ∃ o, transactionOutcome tb maxLen w x = some o

/-- R40: two instances at rest with the same tables and the same requests answer the same, step for
step, whatever their working state and whatever they have answered before. -/
def Obligations.ResponsesIgnoreTheStaleWorkingState : Prop :=
  ∀ (s₁ s₂ : State) (k : Nat), s₁.atRest → s₂.atRest → s₁.tables = s₂.tables →
    s₁.maxLen = s₂.maxLen → s₁.req = s₂.req →
    match steps k s₁, steps k s₂ with
    | .next t₁, .next t₂ => t₁.phase = t₂.phase ∧ t₁.req = t₂.req ∧ t₁.job = t₂.job ∧
        ∃ new, t₁.rsp = s₁.rsp ++ new ∧ t₂.rsp = s₂.rsp ++ new
    | .refused r₁, .refused r₂ => r₁ = r₂
    | _, _ => False

/-- Derived (60_exceptions.md section 8, several instances): in any interleaving of the steps of several
instances that runs to its end, each instance ends where it would have ended alone after as many steps as
the schedule gave it. That the instances are separate states, with no shared copy of the tables, is the
model's choice (log entry 15), and the independence follows from it. A schedule in which an instance is
refused is not covered: the model stops all of them there (log entry 15). -/
def Obligations.InterleavedInstancesRunAsIfAlone : Prop :=
  ∀ (schedule : List Nat) (sys sys' : List State), runSchedule schedule sys = .next sys' →
    sys'.length = sys.length ∧
    ∀ i s, sys[i]? = some s → ∃ t, sys'[i]? = some t ∧ steps (schedule.count i) s = .next t

/-! ### END and DONE are one transition -/

/-- Derived (43_register_decode.md sections 1 and 2, R188 and R193 at END): the step that takes END in an
RDEC transaction, or in an RXDEC transaction whose frame is whole, sends the bytes of a raw value and `DONE`
with `RegDecode` of the message, in that one step. -/
def Obligations.RecordEndIsOneStep : Prop :=
  ∀ (s : State) (rest : List HostEvent) (o : CodecOutcome),
    s.phase = .opened → s.job = none → s.overLength = false → s.req = .endIn :: rest →
    (s.op = .rdec ∨ (s.op = .rxdec ∧ s.err = none ∧ s.rem = 0)) →
    regDecode s.tables s.map s.msg = some o →
    ∃ d, step s = .next { s with
        req := rest, phase := .idle
        rsp := s.rsp ++ (reportBytes o).map .out ++ [.done d] } ∧
      unpackDone s.tables (reportBytes o) d = some o

/-- Derived (43_register_decode.md sections 1 and 2; 70_reset_and_hazards.md section 3): no step leaves a
type decode under way, so the block receives no beat after END and before `DONE`. -/
def Obligations.NoStepLeavesATypeDecodeUnderWay : Prop :=
  ∀ s t : State, step s = .next t → t.job = none
end

