-- ==== Sys2Proof/Laws/State.lean ====
section
/-! SUPPORT. What each update of the state makes of each field: one lemma per field per update, true by
computation, so that no later proof unfolds a record update. -/

namespace Sys2Proof.Machine

/-! ### `emitOut` -/

@[simp] theorem emitOut_tables (bs : List Byte) (s : State) :
    (emitOut bs s).tables = s.tables := rfl
@[simp] theorem emitOut_maxLen (bs : List Byte) (s : State) :
    (emitOut bs s).maxLen = s.maxLen := rfl
@[simp] theorem emitOut_phase (bs : List Byte) (s : State) :
    (emitOut bs s).phase = s.phase := rfl
@[simp] theorem emitOut_op (bs : List Byte) (s : State) :
    (emitOut bs s).op = s.op := rfl
@[simp] theorem emitOut_map (bs : List Byte) (s : State) :
    (emitOut bs s).map = s.map := rfl
@[simp] theorem emitOut_count (bs : List Byte) (s : State) :
    (emitOut bs s).count = s.count := rfl
@[simp] theorem emitOut_run (bs : List Byte) (s : State) :
    (emitOut bs s).run = s.run := rfl
@[simp] theorem emitOut_afterFull (bs : List Byte) (s : State) :
    (emitOut bs s).afterFull = s.afterFull := rfl
@[simp] theorem emitOut_rem (bs : List Byte) (s : State) :
    (emitOut bs s).rem = s.rem := rfl
@[simp] theorem emitOut_pz (bs : List Byte) (s : State) :
    (emitOut bs s).pz = s.pz := rfl
@[simp] theorem emitOut_err (bs : List Byte) (s : State) :
    (emitOut bs s).err = s.err := rfl
@[simp] theorem emitOut_msg (bs : List Byte) (s : State) :
    (emitOut bs s).msg = s.msg := rfl
@[simp] theorem emitOut_overLength (bs : List Byte) (s : State) :
    (emitOut bs s).overLength = s.overLength := rfl
@[simp] theorem emitOut_job (bs : List Byte) (s : State) :
    (emitOut bs s).job = s.job := rfl
@[simp] theorem emitOut_req (bs : List Byte) (s : State) :
    (emitOut bs s).req = s.req := rfl
@[simp] theorem emitOut_rsp (bs : List Byte) (s : State) :
    (emitOut bs s).rsp = s.rsp ++ bs.map .out := rfl

/-! ### `report` -/

@[simp] theorem report_tables (tt : Nibble) (bfsel : Byte) (o : CodecOutcome) (s : State) :
    (report tt bfsel o s).tables = s.tables := rfl
@[simp] theorem report_maxLen (tt : Nibble) (bfsel : Byte) (o : CodecOutcome) (s : State) :
    (report tt bfsel o s).maxLen = s.maxLen := rfl
@[simp] theorem report_phase (tt : Nibble) (bfsel : Byte) (o : CodecOutcome) (s : State) :
    (report tt bfsel o s).phase = .idle := rfl
@[simp] theorem report_op (tt : Nibble) (bfsel : Byte) (o : CodecOutcome) (s : State) :
    (report tt bfsel o s).op = s.op := rfl
@[simp] theorem report_map (tt : Nibble) (bfsel : Byte) (o : CodecOutcome) (s : State) :
    (report tt bfsel o s).map = s.map := rfl
@[simp] theorem report_count (tt : Nibble) (bfsel : Byte) (o : CodecOutcome) (s : State) :
    (report tt bfsel o s).count = s.count := rfl
@[simp] theorem report_run (tt : Nibble) (bfsel : Byte) (o : CodecOutcome) (s : State) :
    (report tt bfsel o s).run = s.run := rfl
@[simp] theorem report_afterFull (tt : Nibble) (bfsel : Byte) (o : CodecOutcome) (s : State) :
    (report tt bfsel o s).afterFull = s.afterFull := rfl
@[simp] theorem report_rem (tt : Nibble) (bfsel : Byte) (o : CodecOutcome) (s : State) :
    (report tt bfsel o s).rem = s.rem := rfl
@[simp] theorem report_pz (tt : Nibble) (bfsel : Byte) (o : CodecOutcome) (s : State) :
    (report tt bfsel o s).pz = s.pz := rfl
@[simp] theorem report_err (tt : Nibble) (bfsel : Byte) (o : CodecOutcome) (s : State) :
    (report tt bfsel o s).err = s.err := rfl
@[simp] theorem report_msg (tt : Nibble) (bfsel : Byte) (o : CodecOutcome) (s : State) :
    (report tt bfsel o s).msg = s.msg := rfl
@[simp] theorem report_overLength (tt : Nibble) (bfsel : Byte) (o : CodecOutcome) (s : State) :
    (report tt bfsel o s).overLength = s.overLength := rfl
@[simp] theorem report_job (tt : Nibble) (bfsel : Byte) (o : CodecOutcome) (s : State) :
    (report tt bfsel o s).job = none := rfl
@[simp] theorem report_req (tt : Nibble) (bfsel : Byte) (o : CodecOutcome) (s : State) :
    (report tt bfsel o s).req = s.req := rfl
@[simp] theorem report_rsp (tt : Nibble) (bfsel : Byte) (o : CodecOutcome) (s : State) :
    (report tt bfsel o s).rsp = s.rsp ++ (reportBytes o).map .out ++ [.done (packDone tt bfsel o)] := rfl

/-! ### `conclude` -/

@[simp] theorem conclude_tables (o : CodecOutcome) (s : State) :
    (conclude o s).tables = s.tables := rfl
@[simp] theorem conclude_maxLen (o : CodecOutcome) (s : State) :
    (conclude o s).maxLen = s.maxLen := rfl
@[simp] theorem conclude_phase (o : CodecOutcome) (s : State) :
    (conclude o s).phase = .idle := rfl
@[simp] theorem conclude_op (o : CodecOutcome) (s : State) :
    (conclude o s).op = s.op := rfl
@[simp] theorem conclude_map (o : CodecOutcome) (s : State) :
    (conclude o s).map = s.map := rfl
@[simp] theorem conclude_count (o : CodecOutcome) (s : State) :
    (conclude o s).count = s.count := rfl
@[simp] theorem conclude_run (o : CodecOutcome) (s : State) :
    (conclude o s).run = s.run := rfl
@[simp] theorem conclude_afterFull (o : CodecOutcome) (s : State) :
    (conclude o s).afterFull = s.afterFull := rfl
@[simp] theorem conclude_rem (o : CodecOutcome) (s : State) :
    (conclude o s).rem = s.rem := rfl
@[simp] theorem conclude_pz (o : CodecOutcome) (s : State) :
    (conclude o s).pz = s.pz := rfl
@[simp] theorem conclude_err (o : CodecOutcome) (s : State) :
    (conclude o s).err = s.err := rfl
@[simp] theorem conclude_msg (o : CodecOutcome) (s : State) :
    (conclude o s).msg = s.msg := rfl
@[simp] theorem conclude_overLength (o : CodecOutcome) (s : State) :
    (conclude o s).overLength = s.overLength := rfl
@[simp] theorem conclude_job (o : CodecOutcome) (s : State) :
    (conclude o s).job = none := rfl
@[simp] theorem conclude_req (o : CodecOutcome) (s : State) :
    (conclude o s).req = s.req := rfl
@[simp] theorem conclude_rsp (o : CodecOutcome) (s : State) :
    (conclude o s).rsp = s.rsp ++ (reportBytes o).map .out ++ [.done (packDone 0 0 o)] := rfl

/-! ### `applyReset` -/

@[simp] theorem applyReset_tables (s : State) :
    (applyReset s).tables = s.tables := rfl
@[simp] theorem applyReset_maxLen (s : State) :
    (applyReset s).maxLen = s.maxLen := rfl
@[simp] theorem applyReset_phase (s : State) :
    (applyReset s).phase = .idle := rfl
@[simp] theorem applyReset_op (s : State) :
    (applyReset s).op = .fenc := rfl
@[simp] theorem applyReset_map (s : State) :
    (applyReset s).map = .tile := rfl
@[simp] theorem applyReset_count (s : State) :
    (applyReset s).count = 0 := rfl
@[simp] theorem applyReset_run (s : State) :
    (applyReset s).run = [] := rfl
@[simp] theorem applyReset_afterFull (s : State) :
    (applyReset s).afterFull = false := rfl
@[simp] theorem applyReset_rem (s : State) :
    (applyReset s).rem = 0 := rfl
@[simp] theorem applyReset_pz (s : State) :
    (applyReset s).pz = false := rfl
@[simp] theorem applyReset_err (s : State) :
    (applyReset s).err = none := rfl
@[simp] theorem applyReset_msg (s : State) :
    (applyReset s).msg = [] := rfl
@[simp] theorem applyReset_overLength (s : State) :
    (applyReset s).overLength = false := rfl
@[simp] theorem applyReset_job (s : State) :
    (applyReset s).job = none := rfl
@[simp] theorem applyReset_req (s : State) :
    (applyReset s).req = s.req := rfl
@[simp] theorem applyReset_rsp (s : State) :
    (applyReset s).rsp = s.rsp ++ [.resetSeen] := rfl

/-! ### `openAs` -/

@[simp] theorem openAs_tables (o : Op) (m : MapSel) (s : State) :
    (openAs o m s).tables = s.tables := rfl
@[simp] theorem openAs_maxLen (o : Op) (m : MapSel) (s : State) :
    (openAs o m s).maxLen = s.maxLen := rfl
@[simp] theorem openAs_phase (o : Op) (m : MapSel) (s : State) :
    (openAs o m s).phase = .opened := rfl
@[simp] theorem openAs_op (o : Op) (m : MapSel) (s : State) :
    (openAs o m s).op = o := rfl
@[simp] theorem openAs_map (o : Op) (m : MapSel) (s : State) :
    (openAs o m s).map = m := rfl
@[simp] theorem openAs_count (o : Op) (m : MapSel) (s : State) :
    (openAs o m s).count = 0 := rfl
@[simp] theorem openAs_run (o : Op) (m : MapSel) (s : State) :
    (openAs o m s).run = s.run := rfl
@[simp] theorem openAs_afterFull (o : Op) (m : MapSel) (s : State) :
    (openAs o m s).afterFull = s.afterFull := rfl
@[simp] theorem openAs_rem (o : Op) (m : MapSel) (s : State) :
    (openAs o m s).rem = s.rem := rfl
@[simp] theorem openAs_pz (o : Op) (m : MapSel) (s : State) :
    (openAs o m s).pz = s.pz := rfl
@[simp] theorem openAs_err (o : Op) (m : MapSel) (s : State) :
    (openAs o m s).err = s.err := rfl
@[simp] theorem openAs_msg (o : Op) (m : MapSel) (s : State) :
    (openAs o m s).msg = s.msg := rfl
@[simp] theorem openAs_overLength (o : Op) (m : MapSel) (s : State) :
    (openAs o m s).overLength = false := rfl
@[simp] theorem openAs_job (o : Op) (m : MapSel) (s : State) :
    (openAs o m s).job = s.job := rfl
@[simp] theorem openAs_req (o : Op) (m : MapSel) (s : State) :
    (openAs o m s).req = s.req := rfl
@[simp] theorem openAs_rsp (o : Op) (m : MapSel) (s : State) :
    (openAs o m s).rsp = s.rsp := rfl

/-! ### `initEncoder` -/

@[simp] theorem initEncoder_tables (s : State) :
    (initEncoder s).tables = s.tables := rfl
@[simp] theorem initEncoder_maxLen (s : State) :
    (initEncoder s).maxLen = s.maxLen := rfl
@[simp] theorem initEncoder_phase (s : State) :
    (initEncoder s).phase = s.phase := rfl
@[simp] theorem initEncoder_op (s : State) :
    (initEncoder s).op = s.op := rfl
@[simp] theorem initEncoder_map (s : State) :
    (initEncoder s).map = s.map := rfl
@[simp] theorem initEncoder_count (s : State) :
    (initEncoder s).count = s.count := rfl
@[simp] theorem initEncoder_run (s : State) :
    (initEncoder s).run = [] := rfl
@[simp] theorem initEncoder_afterFull (s : State) :
    (initEncoder s).afterFull = false := rfl
@[simp] theorem initEncoder_rem (s : State) :
    (initEncoder s).rem = s.rem := rfl
@[simp] theorem initEncoder_pz (s : State) :
    (initEncoder s).pz = s.pz := rfl
@[simp] theorem initEncoder_err (s : State) :
    (initEncoder s).err = s.err := rfl
@[simp] theorem initEncoder_msg (s : State) :
    (initEncoder s).msg = s.msg := rfl
@[simp] theorem initEncoder_overLength (s : State) :
    (initEncoder s).overLength = s.overLength := rfl
@[simp] theorem initEncoder_job (s : State) :
    (initEncoder s).job = s.job := rfl
@[simp] theorem initEncoder_req (s : State) :
    (initEncoder s).req = s.req := rfl
@[simp] theorem initEncoder_rsp (s : State) :
    (initEncoder s).rsp = s.rsp := rfl

/-! ### `initDecoder` -/

@[simp] theorem initDecoder_tables (s : State) :
    (initDecoder s).tables = s.tables := rfl
@[simp] theorem initDecoder_maxLen (s : State) :
    (initDecoder s).maxLen = s.maxLen := rfl
@[simp] theorem initDecoder_phase (s : State) :
    (initDecoder s).phase = s.phase := rfl
@[simp] theorem initDecoder_op (s : State) :
    (initDecoder s).op = s.op := rfl
@[simp] theorem initDecoder_map (s : State) :
    (initDecoder s).map = s.map := rfl
@[simp] theorem initDecoder_count (s : State) :
    (initDecoder s).count = s.count := rfl
@[simp] theorem initDecoder_run (s : State) :
    (initDecoder s).run = s.run := rfl
@[simp] theorem initDecoder_afterFull (s : State) :
    (initDecoder s).afterFull = s.afterFull := rfl
@[simp] theorem initDecoder_rem (s : State) :
    (initDecoder s).rem = 0 := rfl
@[simp] theorem initDecoder_pz (s : State) :
    (initDecoder s).pz = false := rfl
@[simp] theorem initDecoder_err (s : State) :
    (initDecoder s).err = none := rfl
@[simp] theorem initDecoder_msg (s : State) :
    (initDecoder s).msg = s.msg := rfl
@[simp] theorem initDecoder_overLength (s : State) :
    (initDecoder s).overLength = s.overLength := rfl
@[simp] theorem initDecoder_job (s : State) :
    (initDecoder s).job = s.job := rfl
@[simp] theorem initDecoder_req (s : State) :
    (initDecoder s).req = s.req := rfl
@[simp] theorem initDecoder_rsp (s : State) :
    (initDecoder s).rsp = s.rsp := rfl

/-! ### `initMessage` -/

@[simp] theorem initMessage_tables (s : State) :
    (initMessage s).tables = s.tables := rfl
@[simp] theorem initMessage_maxLen (s : State) :
    (initMessage s).maxLen = s.maxLen := rfl
@[simp] theorem initMessage_phase (s : State) :
    (initMessage s).phase = s.phase := rfl
@[simp] theorem initMessage_op (s : State) :
    (initMessage s).op = s.op := rfl
@[simp] theorem initMessage_map (s : State) :
    (initMessage s).map = s.map := rfl
@[simp] theorem initMessage_count (s : State) :
    (initMessage s).count = s.count := rfl
@[simp] theorem initMessage_run (s : State) :
    (initMessage s).run = s.run := rfl
@[simp] theorem initMessage_afterFull (s : State) :
    (initMessage s).afterFull = s.afterFull := rfl
@[simp] theorem initMessage_rem (s : State) :
    (initMessage s).rem = s.rem := rfl
@[simp] theorem initMessage_pz (s : State) :
    (initMessage s).pz = s.pz := rfl
@[simp] theorem initMessage_err (s : State) :
    (initMessage s).err = s.err := rfl
@[simp] theorem initMessage_msg (s : State) :
    (initMessage s).msg = [] := rfl
@[simp] theorem initMessage_overLength (s : State) :
    (initMessage s).overLength = s.overLength := rfl
@[simp] theorem initMessage_job (s : State) :
    (initMessage s).job = s.job := rfl
@[simp] theorem initMessage_req (s : State) :
    (initMessage s).req = s.req := rfl
@[simp] theorem initMessage_rsp (s : State) :
    (initMessage s).rsp = s.rsp := rfl

/-! ### `sinkOut` -/

@[simp] theorem sinkOut_tables (b : Byte) (s : State) :
    (sinkOut b s).tables = s.tables := rfl
@[simp] theorem sinkOut_maxLen (b : Byte) (s : State) :
    (sinkOut b s).maxLen = s.maxLen := rfl
@[simp] theorem sinkOut_phase (b : Byte) (s : State) :
    (sinkOut b s).phase = s.phase := rfl
@[simp] theorem sinkOut_op (b : Byte) (s : State) :
    (sinkOut b s).op = s.op := rfl
@[simp] theorem sinkOut_map (b : Byte) (s : State) :
    (sinkOut b s).map = s.map := rfl
@[simp] theorem sinkOut_count (b : Byte) (s : State) :
    (sinkOut b s).count = s.count := rfl
@[simp] theorem sinkOut_run (b : Byte) (s : State) :
    (sinkOut b s).run = s.run := rfl
@[simp] theorem sinkOut_afterFull (b : Byte) (s : State) :
    (sinkOut b s).afterFull = s.afterFull := rfl
@[simp] theorem sinkOut_rem (b : Byte) (s : State) :
    (sinkOut b s).rem = s.rem := rfl
@[simp] theorem sinkOut_pz (b : Byte) (s : State) :
    (sinkOut b s).pz = s.pz := rfl
@[simp] theorem sinkOut_err (b : Byte) (s : State) :
    (sinkOut b s).err = s.err := rfl
@[simp] theorem sinkOut_msg (b : Byte) (s : State) :
    (sinkOut b s).msg = s.msg := rfl
@[simp] theorem sinkOut_overLength (b : Byte) (s : State) :
    (sinkOut b s).overLength = s.overLength := rfl
@[simp] theorem sinkOut_job (b : Byte) (s : State) :
    (sinkOut b s).job = s.job := rfl
@[simp] theorem sinkOut_req (b : Byte) (s : State) :
    (sinkOut b s).req = s.req := rfl
@[simp] theorem sinkOut_rsp (b : Byte) (s : State) :
    (sinkOut b s).rsp = s.rsp ++ [.out b] := rfl

/-! ### `sinkMessage` -/

@[simp] theorem sinkMessage_tables (b : Byte) (s : State) :
    (sinkMessage b s).tables = s.tables := rfl
@[simp] theorem sinkMessage_maxLen (b : Byte) (s : State) :
    (sinkMessage b s).maxLen = s.maxLen := rfl
@[simp] theorem sinkMessage_phase (b : Byte) (s : State) :
    (sinkMessage b s).phase = s.phase := rfl
@[simp] theorem sinkMessage_op (b : Byte) (s : State) :
    (sinkMessage b s).op = s.op := rfl
@[simp] theorem sinkMessage_map (b : Byte) (s : State) :
    (sinkMessage b s).map = s.map := rfl
@[simp] theorem sinkMessage_count (b : Byte) (s : State) :
    (sinkMessage b s).count = s.count := rfl
@[simp] theorem sinkMessage_run (b : Byte) (s : State) :
    (sinkMessage b s).run = s.run := rfl
@[simp] theorem sinkMessage_afterFull (b : Byte) (s : State) :
    (sinkMessage b s).afterFull = s.afterFull := rfl
@[simp] theorem sinkMessage_rem (b : Byte) (s : State) :
    (sinkMessage b s).rem = s.rem := rfl
@[simp] theorem sinkMessage_pz (b : Byte) (s : State) :
    (sinkMessage b s).pz = s.pz := rfl
@[simp] theorem sinkMessage_err (b : Byte) (s : State) :
    (sinkMessage b s).err = s.err := rfl
@[simp] theorem sinkMessage_msg (b : Byte) (s : State) :
    (sinkMessage b s).msg = s.msg ++ [b] := rfl
@[simp] theorem sinkMessage_overLength (b : Byte) (s : State) :
    (sinkMessage b s).overLength = s.overLength := rfl
@[simp] theorem sinkMessage_job (b : Byte) (s : State) :
    (sinkMessage b s).job = s.job := rfl
@[simp] theorem sinkMessage_req (b : Byte) (s : State) :
    (sinkMessage b s).req = s.req := rfl
@[simp] theorem sinkMessage_rsp (b : Byte) (s : State) :
    (sinkMessage b s).rsp = s.rsp := rfl

/-! ### `takeMessage` -/

@[simp] theorem takeMessage_tables (b : Byte) (s : State) :
    (takeMessage b s).tables = s.tables := rfl
@[simp] theorem takeMessage_maxLen (b : Byte) (s : State) :
    (takeMessage b s).maxLen = s.maxLen := rfl
@[simp] theorem takeMessage_phase (b : Byte) (s : State) :
    (takeMessage b s).phase = s.phase := rfl
@[simp] theorem takeMessage_op (b : Byte) (s : State) :
    (takeMessage b s).op = s.op := rfl
@[simp] theorem takeMessage_map (b : Byte) (s : State) :
    (takeMessage b s).map = s.map := rfl
@[simp] theorem takeMessage_count (b : Byte) (s : State) :
    (takeMessage b s).count = s.count := rfl
@[simp] theorem takeMessage_run (b : Byte) (s : State) :
    (takeMessage b s).run = s.run := rfl
@[simp] theorem takeMessage_afterFull (b : Byte) (s : State) :
    (takeMessage b s).afterFull = s.afterFull := rfl
@[simp] theorem takeMessage_rem (b : Byte) (s : State) :
    (takeMessage b s).rem = s.rem := rfl
@[simp] theorem takeMessage_pz (b : Byte) (s : State) :
    (takeMessage b s).pz = s.pz := rfl
@[simp] theorem takeMessage_err (b : Byte) (s : State) :
    (takeMessage b s).err = s.err := rfl
@[simp] theorem takeMessage_msg (b : Byte) (s : State) :
    (takeMessage b s).msg = s.msg ++ [b] := rfl
@[simp] theorem takeMessage_overLength (b : Byte) (s : State) :
    (takeMessage b s).overLength = s.overLength := rfl
@[simp] theorem takeMessage_job (b : Byte) (s : State) :
    (takeMessage b s).job = s.job := rfl
@[simp] theorem takeMessage_req (b : Byte) (s : State) :
    (takeMessage b s).req = s.req := rfl
@[simp] theorem takeMessage_rsp (b : Byte) (s : State) :
    (takeMessage b s).rsp = s.rsp := rfl

/-! ### `illegalBlock` -/

@[simp] theorem illegalBlock_tables (s : State) :
    (illegalBlock s).tables = s.tables := rfl
@[simp] theorem illegalBlock_maxLen (s : State) :
    (illegalBlock s).maxLen = s.maxLen := rfl
@[simp] theorem illegalBlock_phase (s : State) :
    (illegalBlock s).phase = s.phase := rfl
@[simp] theorem illegalBlock_op (s : State) :
    (illegalBlock s).op = s.op := rfl
@[simp] theorem illegalBlock_map (s : State) :
    (illegalBlock s).map = s.map := rfl
@[simp] theorem illegalBlock_count (s : State) :
    (illegalBlock s).count = s.count := rfl
@[simp] theorem illegalBlock_run (s : State) :
    (illegalBlock s).run = s.run := rfl
@[simp] theorem illegalBlock_afterFull (s : State) :
    (illegalBlock s).afterFull = s.afterFull := rfl
@[simp] theorem illegalBlock_rem (s : State) :
    (illegalBlock s).rem = s.rem := rfl
@[simp] theorem illegalBlock_pz (s : State) :
    (illegalBlock s).pz = s.pz := rfl
@[simp] theorem illegalBlock_err (s : State) :
    (illegalBlock s).err = some .zeroCode := rfl
@[simp] theorem illegalBlock_msg (s : State) :
    (illegalBlock s).msg = s.msg := rfl
@[simp] theorem illegalBlock_overLength (s : State) :
    (illegalBlock s).overLength = s.overLength := rfl
@[simp] theorem illegalBlock_job (s : State) :
    (illegalBlock s).job = s.job := rfl
@[simp] theorem illegalBlock_req (s : State) :
    (illegalBlock s).req = s.req := rfl
@[simp] theorem illegalBlock_rsp (s : State) :
    (illegalBlock s).rsp = s.rsp := rfl

end Sys2Proof.Machine
end

