-- ==== Sys2Proof/Laws/Ops.lean ====
section
/-! SUPPORT. What each shared operation can do, said once: the provers cite these instead of unfolding the
operations, and `step_cases` instead of unfolding the step. -/

namespace Sys2Proof.Machine

/-! ### The commands by what they do with each kind of beat -/

/-- What a command does with its `CMD` beat. -/
def commandOpen : Instr → State → State
  | .fenc => fun t => initEncoder (openAs .fenc .tile t)
  | .fdec => fun t => initDecoder (openAs .fdec .tile t)
  | .rdecT => fun t => initMessage (openAs .rdec .tile t)
  | .rdecM => fun t => initMessage (openAs .rdec .master t)
  | .rxdecT => fun t => initMessage (initDecoder (openAs .rxdec .tile t))
  | .rxdecM => fun t => initMessage (initDecoder (openAs .rxdec .master t))
  | .rsvdCmd w => openAs (.rsvd w) .tile
  | _ => id

/-- What a command does with a `DATA` beat. -/
def commandData : Instr → Byte → State → State
  | .fenc => receive takePlain
  | .fdec => receive (takeFramed sinkOut)
  | .rdecT => receive takeMessage
  | .rdecM => receive takeMessage
  | .rxdecT => receive (takeFramed sinkMessage)
  | .rxdecM => receive (takeFramed sinkMessage)
  | _ => fun _ t => t

/-- What a command does with its `END` beat. -/
def commandEnd : Instr → State → State
  | .fenc => finish endPlain
  | .fdec => finish (endFramed (conclude (.bytes [])))
  | .rdecT => finish lookupMessage
  | .rdecM => finish lookupMessage
  | .rxdecT => finish (endFramed lookupMessage)
  | .rxdecM => finish (endFramed lookupMessage)
  | .rsvdCmd _ => conclude (.refused .cmd)
  | _ => id

/-- The command instruction of the transaction under way. -/
def underWay (s : State) : Instr := decodeCommand (operationWord s.op s.map)

/-- The seven command instructions are the protocol with their three parts. -/
theorem exec_decodeCommand (w : Byte) (s : State) :
    exec (decodeCommand w) s =
      transact (commandOpen (decodeCommand w)) (commandData (decodeCommand w))
        (commandEnd (decodeCommand w)) s := by
  unfold decodeCommand
  split_ifs <;> rfl

@[simp] theorem underWay_fenc (s : State) (h : s.op = .fenc) : underWay s = .fenc := by
  unfold underWay; rw [h]; cases s.map <;> rfl

@[simp] theorem underWay_fdec (s : State) (h : s.op = .fdec) : underWay s = .fdec := by
  unfold underWay; rw [h]; cases s.map <;> rfl

theorem underWay_rdec (s : State) (h : s.op = .rdec) :
    underWay s = match s.map with | .tile => .rdecT | .master => .rdecM := by
  unfold underWay; rw [h]; cases s.map <;> rfl

theorem underWay_rxdec (s : State) (h : s.op = .rxdec) :
    underWay s = match s.map with | .tile => .rxdecT | .master => .rxdecM := by
  unfold underWay; rw [h]; cases s.map <;> rfl

theorem underWay_rsvd (s : State) (w : Byte) (h : s.op = .rsvd w) :
    underWay s = decodeCommand w := by
  unfold underWay; rw [h]; rfl

/-! ### The shared operations -/

/-- A `DATA` beat of an open transaction reaches the operation, marks the transaction, or is dropped. -/
theorem receive_cases (take : Byte → State → State) (b : Byte) (s : State) :
    (s.overLength = true ∧ receive take b s = s) ∨
    (s.overLength = false ∧ s.count < s.maxLen ∧
      receive take b s = take b { s with count := s.count + 1 }) ∨
    (s.overLength = false ∧ s.maxLen ≤ s.count ∧
      receive take b s = { s with overLength := true }) := by
  unfold receive
  cases h : s.overLength
  · by_cases h' : s.count < s.maxLen
    · exact .inr (.inl ⟨rfl, h', by simp [h']⟩)
    · exact .inr (.inr ⟨rfl, by omega, by simp [h']⟩)
  · exact .inl ⟨rfl, by simp⟩

/-- `END` answers `Refused(LENGTH)` or goes to the operation. -/
theorem finish_cases (onEnd : State → State) (s : State) :
    (s.overLength = true ∧ finish onEnd s = conclude (.refused .length) s) ∨
    (s.overLength = false ∧ finish onEnd s = onEnd s) := by
  unfold finish
  cases s.overLength <;> simp

/-- What a byte does at the encoder: a zero ends a block, the 254th byte fills one, any other waits. -/
theorem encodeByte_cases (run : List Byte) (b : Byte) :
    (b = 0x00 ∧ encodeByte run b = (blockOf run, [], false)) ∨
    (b ≠ 0x00 ∧ run.length = 253 ∧ encodeByte run b = (0xFF :: (run ++ [b]), [], true)) ∨
    (b ≠ 0x00 ∧ run.length ≠ 253 ∧ encodeByte run b = ([], run ++ [b], false)) := by
  unfold encodeByte
  by_cases h : b = 0x00
  · exact .inl ⟨h, if_pos h⟩
  · rw [if_neg h]
    by_cases h' : run.length = 253
    · exact .inr (.inl ⟨h, h', by simp [h', Config.runCap]⟩)
    · exact .inr (.inr ⟨h, h', by simp [h', Config.runCap]⟩)

/-- What a byte does at the decoder: nothing after a failure; an illegal code; a block opened; or data. -/
theorem takeFramed_cases (sink : Byte → State → State) (b : Byte) (s : State) :
    (s.err ≠ none ∧ takeFramed sink b s = s) ∨
    (s.err = none ∧ s.rem = 0 ∧ b = 0x00 ∧ takeFramed sink b s = illegalBlock s) ∨
    (s.err = none ∧ s.rem = 0 ∧ b ≠ 0x00 ∧
      takeFramed sink b s = openBlock sink (runLength b) (b != 0xFF) s) ∨
    (s.err = none ∧ 0 < s.rem ∧ takeFramed sink b s = takeBlockData sink b s) := by
  unfold takeFramed takeCode
  cases he : s.err with
  | some c => exact .inl ⟨by simp, by simp⟩
  | none =>
    by_cases hr : s.rem = 0
    · by_cases hb : b = 0x00
      · exact .inr (.inl ⟨rfl, hr, hb, by rw [if_pos hb]; simp [hr]⟩)
      · exact .inr (.inr (.inl ⟨rfl, hr, hb, by rw [if_neg hb]; simp [hr]⟩))
    · exact .inr (.inr (.inr ⟨rfl, by omega, by simp [hr]⟩))

/-- `END` at the decoder: truncated, failed before, or onward. -/
theorem endFramed_cases (onward : State → State) (s : State) :
    (s.err = none ∧ 0 < s.rem ∧
      endFramed onward s = conclude (.hardFail .truncated) { s with err := some .truncated }) ∨
    (∃ c, s.err = some c ∧ endFramed onward s = conclude (.hardFail c) s) ∨
    (s.err = none ∧ s.rem = 0 ∧ endFramed onward s = onward s) := by
  unfold endFramed checkTruncated
  cases he : s.err with
  | some c => exact .inr (.inl ⟨c, rfl, by simp [he]⟩)
  | none =>
    by_cases hr : 0 < s.rem
    · exact .inl ⟨rfl, hr, by simp [hr]⟩
    · exact .inr (.inr ⟨rfl, by omega, by simp [hr, he]⟩)

/-- The shape test and the lookup: null, unknown, or an entry whose type decode comes next. -/
theorem lookupMessage_cases (s : State) :
    (s.msg.length < 2 ∧ lookupMessage s = conclude .null s) ∨
    (∃ id b p, s.msg = id :: b :: p ∧ mapLookup s.tables s.map id = none ∧
      lookupMessage s = conclude (.record (.err id (.unknownRegister id))) s) ∨
    (∃ id b p e, s.msg = id :: b :: p ∧ mapLookup s.tables s.map id = some e ∧
      lookupMessage s = { s with job := some ⟨id, b :: p, e⟩ }) := by
  unfold lookupMessage
  match hm : s.msg with
  | [] => exact .inl ⟨by simp, rfl⟩
  | [id] => exact .inl ⟨by simp, rfl⟩
  | id :: b :: p =>
    cases he : mapLookup s.tables s.map id with
    | none => exact .inr (.inl ⟨id, b, p, rfl, he, by simp [he]⟩)
    | some e => exact .inr (.inr ⟨id, b, p, e, rfl, he, by simp [he]⟩)

/-- A fixed-width decoder fails short or reads the leading bytes. -/
theorem fixedWidth_cases (w : Nat) (value : Nat → Value) (p : List Byte) :
    (p.length < w ∧ fixedWidth w value p = .error (.shortPayload w)) ∨
    (w ≤ p.length ∧ fixedWidth w value p = .ok (value (memRead p 0 w))) := by
  unfold fixedWidth
  by_cases h : p.length < w
  · exact .inl ⟨h, by simp [h]⟩
  · exact .inr ⟨by omega, by simp [h]⟩

/-- A selector has flag names exactly where the table has a well-formed type. -/
theorem bfLookup_eq_some (t : Tables) (sel : Byte) (flags : List Ident) :
    bfLookup t sel = some flags ↔
      ∃ b, t.bfTable[sel.toNat]? = some b ∧ b.wf = true ∧ b.flags = flags := by
  unfold bfLookup
  cases t.bfTable[sel.toNat]? with
  | none => simp
  | some b => cases hb : b.wf <;> simp [hb]

/-- A code byte completes exactly at a block boundary, with the sink of the operation under way. -/
theorem codeBeat_eq (act : (Byte → State → State) → State → State) (s : State)
    (sink : Byte → State → State) (b : Byte) (rest : List HostEvent)
    (hs : framedSink s.op = some sink) (hr : s.req = .data b :: rest) (hc : s.atCode = true) :
    codeBeat act s = .next (act sink { s with req := rest, count := s.count + 1 }) := by
  simp [codeBeat, hs, hr, hc]

/-- Off a block boundary a code byte is refused. -/
theorem codeBeat_off (act : (Byte → State → State) → State → State) (s : State)
    (hc : s.atCode = false) : codeBeat act s = .refused .outOfPosition := by
  unfold codeBeat
  split
  · simp [hc]
  · rfl

/-- What a state at a block boundary looks like. -/
theorem atCode_iff (s : State) :
    s.atCode = true ↔ s.phase = .opened ∧ (framedSink s.op).isSome = true ∧ s.job = none ∧
      s.overLength = false ∧ s.count < s.maxLen ∧ s.err = none ∧ s.rem = 0 := by
  simp [State.atCode, and_assoc]

/-- At a block boundary the code byte's class does what the framer's own reading of the byte does. -/
theorem exec_decodeCode (s : State) (b : Byte) (rest : List HostEvent)
    (sink : Byte → State → State) (hs : framedSink s.op = some sink)
    (hr : s.req = .data b :: rest) (hc : s.atCode = true) :
    exec (decodeCode b) s = .next (receive (takeFramed sink) b { s with req := rest }) := by
  obtain ⟨-, -, -, ho, hn, he, h0⟩ := (atCode_iff s).1 hc
  have key : receive (takeFramed sink) b { s with req := rest } =
      takeCode sink b { s with req := rest, count := s.count + 1 } := by
    simp [receive, takeFramed, ho, hn, he, h0]
  rw [key]
  unfold decodeCode
  by_cases h1 : b = 0x00
  · rw [if_pos h1, takeCode, if_pos h1]
    exact codeBeat_eq _ s sink b rest hs hr hc
  · by_cases h2 : b = 0xFF
    · rw [if_neg h1, if_pos h2, takeCode, if_neg h1]
      subst h2
      exact codeBeat_eq _ s sink _ rest hs hr hc
    · rw [if_neg h1, if_neg h2, takeCode, if_neg h1, bne_iff_ne.2 h2]
      exact codeBeat_eq _ s sink b rest hs hr hc

/-- The sink of the operation under way decides which framed data step the command takes. -/
theorem commandData_underWay (s : State) (sink : Byte → State → State)
    (hs : framedSink s.op = some sink) : commandData (underWay s) = receive (takeFramed sink) := by
  cases ho : s.op with
  | fdec => rw [ho] at hs; cases hs; rw [underWay_fdec s ho]; rfl
  | rxdec => rw [ho] at hs; cases hs; rw [underWay_rxdec s ho]; cases s.map <;> rfl
  | fenc => rw [ho] at hs; cases hs
  | rdec => rw [ho] at hs; cases hs
  | rsvd w => rw [ho] at hs; cases hs

/-- The data step of RDEC, on either map. -/
theorem commandData_rdec (s : State) (h : s.op = .rdec) :
    commandData (underWay s) = receive takeMessage := by
  rw [underWay_rdec s h]; cases s.map <;> rfl

/-- The END of RDEC, on either map. -/
theorem commandEnd_rdec (s : State) (h : s.op = .rdec) :
    commandEnd (underWay s) = finish lookupMessage := by
  rw [underWay_rdec s h]; cases s.map <;> rfl

/-- The END of RXDEC, on either map. -/
theorem commandEnd_rxdec (s : State) (h : s.op = .rxdec) :
    commandEnd (underWay s) = finish (endFramed lookupMessage) := by
  rw [underWay_rxdec s h]; cases s.map <;> rfl

/-- The seven commands by their words. -/
theorem decodeCommand_cases (w : Byte) :
    (w = 0x01 ∧ decodeCommand w = .fenc) ∨ (w = 0x02 ∧ decodeCommand w = .fdec) ∨
    (w = 0x03 ∧ decodeCommand w = .rdecT) ∨ (w = 0x0B ∧ decodeCommand w = .rdecM) ∨
    (w = 0x04 ∧ decodeCommand w = .rxdecT) ∨ (w = 0x0C ∧ decodeCommand w = .rxdecM) ∨
    (legalCommand w = false ∧ decodeCommand w = .rsvdCmd w) := by
  revert w; decide +kernel

/-! ### The step -/

/-- The instruction of a type reference. -/
def typeInstr : TypeRef → Instr
  | .scalar .uint8 => .tdU8
  | .scalar .uint16 => .tdU16
  | .scalar .int16 => .tdI16
  | .scalar .uint32 => .tdU32
  | .scalar .float32 => .tdF32
  | .bitfield sel => .tdBf sel
  | .unknown _ => .tdRaw

theorem decode_typeWord (t : TypeRef) : decode .tt (typeWord t) = .ok (typeInstr t) := by
  cases t with
  | scalar s => cases s <;> rfl
  | bitfield sel => change decode .tt [0x08, sel] = .ok (.tdBf sel); rfl
  | unknown tag => change decode .tt [0x0F, 0x00] = .ok .tdRaw; rfl

/-- A type decode under way ends in the record of `TypeDecode`, or is refused where the tables are not
well-formed. -/
theorem exec_typeInstr (s : State) (j : TypeJob) (hj : s.job = some j) :
    exec (typeInstr j.entry.type) s =
      match typeDecode s.tables j.entry.type j.payload with
      | some r => .next (reportField (typeTag j.entry.type) (typeSelector j.entry.type) j r s)
      | none => .refused .malformedTables := by
  match ht : j.entry.type with
  | .scalar .uint8 => simp [typeInstr, exec, execTdU8, fieldDecode, hj, typeDecode, typeSelector]
  | .scalar .uint16 => simp [typeInstr, exec, execTdU16, fieldDecode, hj, typeDecode, typeSelector]
  | .scalar .int16 => simp [typeInstr, exec, execTdI16, fieldDecode, hj, typeDecode, typeSelector]
  | .scalar .uint32 => simp [typeInstr, exec, execTdU32, fieldDecode, hj, typeDecode, typeSelector]
  | .scalar .float32 => simp [typeInstr, exec, execTdF32, fieldDecode, hj, typeDecode, typeSelector]
  | .unknown tag =>
    simp [typeInstr, exec, execTdRaw, fieldDecode, hj, typeDecode, typeSelector, typeTag]
  | .bitfield sel =>
    cases hb : bfLookup s.tables sel <;>
      simp [typeInstr, exec, execTdBf, fieldDecode, hj, typeDecode, typeSelector, hb]

@[simp] theorem finishType_refused (r : Refusal) : finishType (.refused r) = .refused r := rfl

/-- An instruction that leaves no type decode under way is the whole of its step. -/
theorem finishType_none {t : State} (h : t.job = none) : finishType (.next t) = .next t := by
  simp [finishType, h]

/-- A type decode that an instruction leaves under way ends in the same step. -/
theorem finishType_some {t : State} {j : TypeJob} (h : t.job = some j) :
    finishType (.next t) =
      match typeDecode t.tables j.entry.type j.payload with
      | some r => .next (reportField (typeTag j.entry.type) (typeSelector j.entry.type) j r t)
      | none => .refused .malformedTables := by
  simp [finishType, runWord, h, decode_typeWord, exec_typeInstr t j h]

/-- What `finishType` makes of a state, if it answers a next state: nothing, or its record. -/
theorem finishType_cases {u t : State} (h : finishType (.next u) = .next t) :
    (u.job = none ∧ t = u) ∨
    (∃ j r, u.job = some j ∧ typeDecode u.tables j.entry.type j.payload = some r ∧
      t = reportField (typeTag j.entry.type) (typeSelector j.entry.type) j r u) := by
  cases hj : u.job with
  | none =>
    rw [finishType_none hj] at h
    exact .inl ⟨rfl, (Host.Outcome.next.inj h).symm⟩
  | some j =>
    rw [finishType_some hj] at h
    cases hd : typeDecode u.tables j.entry.type j.payload with
    | none => simp [hd] at h
    | some r => exact .inr ⟨j, r, rfl, hd, by simpa [hd] using h.symm⟩

/-- Opening a transaction starts no type decode. -/
@[simp] theorem commandOpen_job (i : Instr) (s : State) : (commandOpen i s).job = s.job := by
  cases i <;> rfl

@[simp] theorem takePlain_job (b : Byte) (s : State) : (takePlain b s).job = s.job := rfl

@[simp] theorem takeFramed_sinkOut_job (b : Byte) (s : State) :
    (takeFramed sinkOut b s).job = s.job := by
  rcases takeFramed_cases sinkOut b s with ⟨-, h⟩ | ⟨-, -, -, h⟩ | ⟨-, -, -, h⟩ | ⟨-, -, h⟩ <;> rw [h]
  · rfl
  · unfold openBlock; cases s.pz <;> rfl
  · rfl

@[simp] theorem takeFramed_sinkMessage_job (b : Byte) (s : State) :
    (takeFramed sinkMessage b s).job = s.job := by
  rcases takeFramed_cases sinkMessage b s with ⟨-, h⟩ | ⟨-, -, -, h⟩ | ⟨-, -, -, h⟩ | ⟨-, -, h⟩ <;>
    rw [h]
  · rfl
  · unfold openBlock; cases s.pz <;> rfl
  · rfl

theorem receive_job {take : Byte → State → State} (h : ∀ b s, (take b s).job = s.job) (b : Byte)
    (s : State) : (receive take b s).job = s.job := by
  rcases receive_cases take b s with ⟨-, e⟩ | ⟨-, -, e⟩ | ⟨-, -, e⟩ <;> rw [e]
  rw [h]

/-- A `DATA` beat starts no type decode. -/
@[simp] theorem commandData_job (i : Instr) (b : Byte) (s : State) :
    (commandData i b s).job = s.job := by
  cases i <;> first
    | rfl
    | exact receive_job takePlain_job b s
    | exact receive_job takeFramed_sinkOut_job b s
    | exact receive_job takeFramed_sinkMessage_job b s
    | exact receive_job (take := takeMessage) (fun _ _ => rfl) b s

/-- What a step does, by what is on offer: the one place where `step` is unfolded. -/
theorem step_eq (s : State) :
    step s =
      match s.req, s.job, s.phase with
      | .reset :: rest, _, _ => .next (applyReset { s with req := rest })
      | .data _ :: _, some _, _ => .refused .beatAfterEnd
      | .endIn :: _, some _, _ => .refused .beatAfterEnd
      | .cmd _ :: _, some _, _ => .refused .cmdWhileOpen
      | [], some j, _ =>
        (match typeDecode s.tables j.entry.type j.payload with
        | some r => .next (reportField (typeTag j.entry.type) (typeSelector j.entry.type) j r s)
        | none => .refused .malformedTables)
      | [], none, _ => .next s
      | .cmd w :: rest, none, .idle =>
        .next (commandOpen (decodeCommand w) { s with req := rest })
      | .cmd _ :: _, none, .opened => .refused .cmdWhileOpen
      | .data _ :: _, none, .idle => .refused .dataWhileIdle
      | .data b :: rest, none, .opened =>
        .next (commandData (underWay s) b { s with req := rest })
      | .endIn :: _, none, .idle => .refused .endWhileIdle
      | .endIn :: rest, none, .opened =>
        finishType (.next (commandEnd (underWay s) { s with req := rest })) := by
  match hr : s.req, hj : s.job, hp : s.phase with
  | .reset :: rest, _, _ => subst hj hp; simp [step, fetch, withoutInstruction, hr]
  | .data _ :: _, some _, _ => simp [step, fetch, withoutInstruction, hr, hj]
  | .endIn :: _, some _, _ => simp [step, fetch, withoutInstruction, hr, hj]
  | .cmd _ :: _, some _, _ => simp [step, fetch, withoutInstruction, hr, hj]
  | [], some j, _ =>
    simp only [step, fetch, hr, hj, runWord, decode_typeWord, exec_typeInstr s j hj]
    cases typeDecode s.tables j.entry.type j.payload with
    | none => rfl
    | some r => exact finishType_none rfl
  | [], none, _ => simp [step, fetch, withoutInstruction, hr, hj]
  | .cmd w :: rest, none, .idle =>
    simp only [step, fetch, hr, hj, hp, runWord, decode, exec_decodeCommand, transact]
    exact finishType_none (by simp)
  | .cmd w :: rest, none, .opened =>
    simp [step, fetch, hr, hj, hp, runWord, decode, exec_decodeCommand, transact]
  | .data b :: rest, none, .idle => simp [step, fetch, withoutInstruction, hr, hj, hp]
  | .endIn :: rest, none, .idle => simp [step, fetch, withoutInstruction, hr, hj, hp]
  | .endIn :: rest, none, .opened =>
    simp [step, fetch, hr, hj, hp, runWord, decode, exec_decodeCommand, transact, underWay]
  | .data b :: rest, none, .opened =>
    have key : step s = finishType (.next (commandData (underWay s) b { s with req := rest })) := by
      cases hc : s.atCode with
      | false =>
        simp [step, fetch, hr, hj, hp, hc, runWord, decode, exec_decodeCommand, transact, underWay]
      | true =>
        obtain ⟨sink, hs⟩ := Option.isSome_iff_exists.1 ((atCode_iff s).1 hc).2.1
        simp [step, fetch, hr, hj, hp, hc, runWord, decode, exec_decodeCode s b rest sink hs hr hc,
          commandData_underWay s sink hs]
    rw [key, finishType_none (by simp [hj])]
    simp [hj, hp]

/-- If a step answers a next state, then it waited, was reset, opened a transaction, took a data byte, took
END (and with it finished a type decode), or finished a type decode that was under way. -/
theorem step_cases {s t : State} (h : step s = .next t) :
    (s.req = [] ∧ s.job = none ∧ t = s) ∨
    (∃ rest, s.req = .reset :: rest ∧ t = applyReset { s with req := rest }) ∨
    (∃ w rest, s.req = .cmd w :: rest ∧ s.job = none ∧ s.phase = .idle ∧
      t = commandOpen (decodeCommand w) { s with req := rest }) ∨
    (∃ b rest, s.req = .data b :: rest ∧ s.job = none ∧ s.phase = .opened ∧
      t = commandData (underWay s) b { s with req := rest }) ∨
    (∃ rest u, s.req = .endIn :: rest ∧ s.job = none ∧ s.phase = .opened ∧
      u = commandEnd (underWay s) { s with req := rest } ∧
      ((u.job = none ∧ t = u) ∨
        ∃ j r, u.job = some j ∧ typeDecode u.tables j.entry.type j.payload = some r ∧
          t = reportField (typeTag j.entry.type) (typeSelector j.entry.type) j r u)) ∨
    (∃ j r, s.job = some j ∧ s.req = [] ∧
      typeDecode s.tables j.entry.type j.payload = some r ∧
      t = reportField (typeTag j.entry.type) (typeSelector j.entry.type) j r s) := by
  rw [step_eq] at h
  match hr : s.req, hj : s.job, hp : s.phase with
  | .reset :: rest, _, _ => simp [hr] at h; exact .inr (.inl ⟨rest, rfl, h.symm⟩)
  | .data _ :: _, some _, _ => simp [hr, hj] at h
  | .endIn :: _, some _, _ => simp [hr, hj] at h
  | .cmd _ :: _, some _, _ => simp [hr, hj] at h
  | [], some j, _ =>
    cases hd : typeDecode s.tables j.entry.type j.payload with
    | none => simp [hr, hj, hd] at h
    | some r =>
      simp [hr, hj, hd] at h
      exact .inr (.inr (.inr (.inr (.inr ⟨j, r, rfl, rfl, hd, h.symm⟩))))
  | [], none, _ => simp [hr, hj] at h; exact .inl ⟨rfl, rfl, h.symm⟩
  | .cmd w :: rest, none, .idle =>
    simp [hr, hj, hp] at h
    exact .inr (.inr (.inl ⟨w, rest, rfl, rfl, rfl, h.symm⟩))
  | .cmd w :: rest, none, .opened => simp [hr, hj, hp] at h
  | .data b :: rest, none, .idle => simp [hr, hj, hp] at h
  | .endIn :: rest, none, .idle => simp [hr, hj, hp] at h
  | .data b :: rest, none, .opened =>
    simp [hr, hj, hp] at h
    exact .inr (.inr (.inr (.inl ⟨b, rest, rfl, rfl, rfl, h.symm⟩)))
  | .endIn :: rest, none, .opened =>
    simp only [hr, hj, hp] at h
    exact .inr (.inr (.inr (.inr (.inl ⟨rest, _, rfl, rfl, rfl, rfl, finishType_cases h⟩))))

end Sys2Proof.Machine
end

