-- ==== Sys2Proof/Laws/PerInstr.lean ====
section
/-! SUPPORT. Statements made instruction by instruction: the shape of each instruction's encoding. -/

namespace Sys2Proof.Laws.EncodeShape

/-- How many bytes a format's words have. -/
def formatLength : Format → Nat
  | .stuff => 1
  | .cmd => 1
  | .tt => 2

/-- The encoding has as many bytes as its format's words. -/
def Statement (i : Instr) : Prop := (encode i).2.length = formatLength (encode i).1

theorem blkIll : Statement .blkIll := rfl
theorem blkLink (c : Byte) : Statement (.blkLink c) := rfl
theorem blkCont : Statement .blkCont := rfl
theorem fenc : Statement .fenc := rfl
theorem fdec : Statement .fdec := rfl
theorem rdecT : Statement .rdecT := rfl
theorem rdecM : Statement .rdecM := rfl
theorem rxdecT : Statement .rxdecT := rfl
theorem rxdecM : Statement .rxdecM := rfl
theorem rsvdCmd (w : Byte) : Statement (.rsvdCmd w) := rfl
theorem tdU8 : Statement .tdU8 := rfl
theorem tdU16 : Statement .tdU16 := rfl
theorem tdI16 : Statement .tdI16 := rfl
theorem tdU32 : Statement .tdU32 := rfl
theorem tdF32 : Statement .tdF32 := rfl
theorem tdBf (sel : Byte) : Statement (.tdBf sel) := rfl
theorem tdRaw : Statement .tdRaw := rfl

end Sys2Proof.Laws.EncodeShape
end

