-- ==== Sys2Proof/Tests/Slice0.lean ====
section
/-! SUPPORT. Tests with expected values from spec/95_test_vectors.md and spec/30_encoding.md, and for each
statement with hypotheses a witness that they can be met together. -/

namespace Sys2Proof.Tests

open Sys2Proof Sys2Proof.Machine

set_option Elab.async false

/-! ### Helpers: the fixture tables of 95_test_vectors.md section 0 and small states -/

def bfA : BitfieldType := ⟨"BF_A", ["alive", "arm_ready", "arm_active"]⟩

def bfB : BitfieldType := ⟨"BF_B", ["b0", "b1", "b2", "b3", "b4", "b5", "b6", "b7", "b8", "b9"]⟩

def fixture : Tables where
  bfTable := [bfA, bfB]
  tileMap := [
    (0x01, ⟨"t_u8", .scalar .uint8⟩), (0x02, ⟨"t_u16", .scalar .uint16⟩),
    (0x03, ⟨"t_i16", .scalar .int16⟩), (0x04, ⟨"t_u32", .scalar .uint32⟩),
    (0x05, ⟨"t_f32", .scalar .float32⟩), (0x10, ⟨"t_status", .bitfield 0⟩),
    (0x11, ⟨"t_wide", .bitfield 1⟩), (0x20, ⟨"t_unknown", .unknown "q15"⟩)]
  masterMap := [
    (0x01, ⟨"m_power", .scalar .float32⟩), (0x02, ⟨"m_flags", .bitfield 0⟩),
    (0xFE, ⟨"m_u16", .scalar .uint16⟩)]

/-- A state in phase IDLE with some host events on offer. -/
def idleState (req : List HostEvent) : State :=
  { State.reset with tables := fixture, maxLen := 600, req := req }

/-- An open transaction with some host events on offer. -/
def openState (op : Op) (m : MapSel) (req : List HostEvent) : State :=
  { idleState req with phase := .opened, op := op, map := m }

/-- An open RDEC.T whose lookup has found the tile map's entry of a register. -/
def jobState (reg : Byte) (payload : List Byte) (e : RegistryEntry) (req : List HostEvent) : State :=
  { openState .rdec .tile req with msg := reg :: payload, count := payload.length + 1
                                   job := some ⟨reg, payload, e⟩ }

/-- The state after a step. -/
def after : Host.Outcome State Fault Refusal → Option State
  | .next t => some t
  | _ => none

/-- Everything sent by the end of a step. -/
def sent (o : Host.Outcome State Fault Refusal) : Option (List RspEvent) := (after o).map (·.rsp)

/-- `N x B` of 95_test_vectors.md. -/
abbrev rep (n : Nat) (b : Byte) : List Byte := List.replicate n b

/-! ### Well-formedness: one ill-formed term for each check -/

theorem test_wf_refuses_link_zero : (Instr.blkLink 0x00).wf = false := by decide
theorem test_wf_refuses_link_cont : (Instr.blkLink 0xFF).wf = false := by decide
theorem test_wf_refuses_legal_commands :
    ∀ w ∈ [(0x01 : Byte), 0x02, 0x03, 0x0B, 0x04, 0x0C], (Instr.rsvdCmd w).wf = false := by decide
/-- 95_test_vectors.md section 0: the fixtures are admissible. -/
theorem test_fixture_wf : fixture.wf = true := by decide
/-- R28, R26: each premise on the tables is checked. -/
theorem test_tables_wf_refuses :
    Tables.wf ⟨[(1, ⟨"a", .bitfield 0⟩)], [], []⟩ = false ∧
    Tables.wf ⟨[], [(1, ⟨"a", .bitfield 2⟩)], [bfA, bfB]⟩ = false ∧
    Tables.wf ⟨[(0xFE, ⟨"a", .scalar .uint8⟩)], [], []⟩ = false ∧
    Tables.wf ⟨[], [], [⟨"d", ["x", "x"]⟩]⟩ = false ∧
    Tables.wf ⟨[], [(2, ⟨"a", .scalar .uint8⟩), (2, ⟨"b", .scalar .uint8⟩)], []⟩ = false ∧
    BitfieldType.wf ⟨"n", (List.range 33).map toString⟩ = false := by decide +kernel

/-! ### Decoding: words written out from R72, R88, R89, R92 -/

theorem test_decode_blk : decode .stuff [0b00000000] = .ok .blkIll ∧
    decode .stuff [0b00000101] = .ok (.blkLink 5) ∧ decode .stuff [0b11111110] = .ok (.blkLink 254) ∧
    decode .stuff [0b11111111] = .ok .blkCont := by decide
theorem test_decode_framer : decode .cmd [0b00000001] = .ok .fenc ∧
    decode .cmd [0b00000010] = .ok .fdec := by decide
theorem test_decode_register : decode .cmd [0b00000011] = .ok .rdecT ∧
    decode .cmd [0b00001011] = .ok .rdecM ∧ decode .cmd [0b00000100] = .ok .rxdecT ∧
    decode .cmd [0b00001100] = .ok .rxdecM := by decide
/-- Z1 to Z6. -/
theorem test_decode_reserved :
    ∀ w ∈ [(0x00 : Byte), 0x05, 0x09, 0x0A, 0x13, 0xFF], decode .cmd [w] = .ok (.rsvdCmd w) := by
  decide
theorem test_decode_types : decode .tt [0b0000, 0] = .ok .tdU8 ∧ decode .tt [0b0001, 0] = .ok .tdU16 ∧
    decode .tt [0b0010, 0] = .ok .tdI16 ∧ decode .tt [0b0011, 0] = .ok .tdU32 ∧
    decode .tt [0b0100, 0] = .ok .tdF32 ∧ decode .tt [0b1000, 1] = .ok (.tdBf 1) ∧
    decode .tt [0b1111, 0] = .ok .tdRaw := by decide
theorem test_decode_rejects_length : decode .stuff [] = .error .wrongLength ∧
    decode .cmd [1, 1] = .error .wrongLength ∧ decode .tt [0] = .error .wrongLength := by decide
theorem test_decode_rejects_tags :
    (∀ t ∈ [(0x05 : Byte), 0x06, 0x07, 0x09, 0x0A, 0x0B, 0x0C, 0x0D, 0x0E],
      decode .tt [t, 0] = .error .reservedTag) ∧
    decode .tt [0x18, 0] = .error .tagHighBits ∧
    decode .tt [0x01, 1] = .error .selectorWithoutBitfield := by decide
theorem test_table_word : decodeTableWord 8 0x0B = some .rdecM ∧
    decodeTableWord 8 0xFF = some .blkCont ∧ decodeTableWord 4 0x8 = some (.tdBf 0) ∧
    decodeTableWord 8 0x0F = some .tdRaw ∧ decodeTableWord 8 0x05 = some (.rsvdCmd 5) := by decide
/-- A placed word is the next one that `step` runs: a command, a code byte, a type tag. -/
theorem test_fetch_word :
    (after (step (State.reset.withFetchWord 8 0x03))).map (fun t => (t.phase, t.op)) =
      some (.opened, .rdec) ∧
    (after (step (State.reset.withFetchWord 8 0xFF))).map (·.rem) = some 254 ∧
    sent (step (State.reset.withFetchWord 8 0x08)) =
      some [.done ⟨0x1, 0, 0, 0x8, 0, "", 0⟩] := by decide +kernel

/-! ### Function-level vectors (95_test_vectors.md parts 1 and 2) -/

/-- E1, E6, E7, E10. -/
theorem test_enc_short : enc [] = [0x01] ∧ enc [0x00, 0x11, 0x00] = [0x01, 0x02, 0x11, 0x01] ∧
    enc [0x11, 0x22, 0x00, 0x33] = [0x03, 0x11, 0x22, 0x02, 0x33] ∧
    enc [0x11, 0x00, 0x00, 0x22] = [0x02, 0x11, 0x01, 0x02, 0x22] := by decide +kernel
/-- E14, E17, E22, E28. -/
theorem test_enc_long : enc (rep 253 0x41) = 0xFE :: rep 253 0x41 ∧
    enc (rep 254 0x41) = 0xFF :: rep 254 0x41 ∧
    enc (rep 254 0x41 ++ [0x00, 0x42]) = 0xFF :: rep 254 0x41 ++ [0x01, 0x02, 0x42] ∧
    enc (rep 509 0x41) = 0xFF :: rep 254 0x41 ++ 0xFF :: rep 254 0x41 ++ [0x02, 0x41] := by
  decide +kernel
/-- The last table of section 2.1: the literal encoder. -/
theorem test_srcEnc : srcEnc (rep 254 0x41 ++ [0x00]) = 255 :: List.replicate 254 0x41 ++ [1] ∧
    dec (0xFF :: rep 254 0x41 ++ [0x01]) = .ok (rep 254 0x41) := by decide +kernel
/-- F1, F4, F9, F11, F12, F17, F18, F19. -/
theorem test_dec : dec [] = .ok [] ∧ dec [0x01, 0x01, 0x01] = .ok [0x00, 0x00] ∧
    dec [0x05, 0x01, 0x02] = .error .truncated ∧ dec [0x02, 0x11, 0x00] = .error .zeroCode ∧
    dec [0x03, 0x11, 0x00, 0x01] = .ok [0x11, 0x00, 0x00] ∧
    dec (0xFF :: rep 254 0x07 ++ [0x01]) = .ok (rep 254 0x07) ∧
    dec (0xFF :: rep 254 0x07 ++ [0x02, 0x09]) = .ok (rep 254 0x07 ++ [0x09]) ∧
    dec (0xFE :: rep 253 0x07 ++ [0x02, 0x09]) = .ok (rep 253 0x07 ++ [0x00, 0x09]) := by
  decide +kernel
/-- T9, T14, T20, T26, T29. -/
theorem test_type_decoders : decodeI16 [0x00, 0x80] = .ok (.num (-32768)) ∧
    decodeU32 [0x01, 0x02, 0x03] = .error (.shortPayload 4) ∧
    decodeBf bfA.flags [0xFD] =
      .ok (.flags [("alive", true), ("arm_ready", false), ("arm_active", true)]) ∧
    (decodeBf bfB.flags [0x00, 0xFC]).toOption.map packValue = some 0 ∧
    decodeBf [] [] = .ok (.flags []) := by decide +kernel
/-- R162: 1.0, a NaN pattern, negative zero (T15 to T17). -/
theorem test_readF32 : readF32 0x3F800000 = .finite false (2 ^ 23) (-23) ∧
    readF32 0x7FC00000 = .nan ∧ readF32 0x80000000 = .finite true 0 (-149) := by decide +kernel
/-- M2, M8, M21, X3, X7, X13, Z8. -/
theorem test_outcomes :
    transactionOutcome fixture 600 0x03 [0xFE] = some .null ∧
    transactionOutcome fixture 600 0x03 [0x02, 0x34, 0x12, 0x99, 0x99] =
      some (.record (.ok 0x02 "t_u16" (.num 4660))) ∧
    transactionOutcome fixture 600 0x0B [0x01, 0xFF] = some (.record (.err 0x01 (.shortPayload 4))) ∧
    transactionOutcome fixture 600 0x0C [0x02, 0x01, 0x01] =
      some (.record (.err 0x01 (.shortPayload 4))) ∧
    transactionOutcome fixture 600 0x04 [0x02, 0x20, 0x01, 0x02, 0x07] =
      some (.record (.ok 0x20 "t_unknown" (.raw [0x00, 0x00, 0x07]))) ∧
    transactionOutcome fixture 600 0x04 [0x05, 0x02, 0x34] = some (.hardFail .truncated) ∧
    transactionOutcome fixture 4 0x01 [0x11, 0x22, 0x33, 0x44, 0x55] = some (.refused .length) := by
  decide +kernel

/-! ### One step of each instruction -/

/-- V3. -/
theorem test_blkIll : (after (exec .blkIll (openState .fdec .tile [.data 0x00]))).map (·.err) =
    some (some .zeroCode) := by decide
/-- Program 2, the fourth row of the decoder trace: the owed zero is sent first. -/
theorem test_blkLink : (after (exec (.blkLink 0x02)
      { openState .fdec .tile [.data 0x02] with pz := true })).map (fun t => (t.rem, t.pz, t.rsp)) =
    some (1, true, [.out 0x00]) := by decide
/-- Program 1, transaction 2: RXDEC owes nothing before its first block. -/
theorem test_blkLink_rxdec : (after (exec (.blkLink 0x05)
      (openState .rxdec .tile [.data 0x05]))).map (fun t => (t.rem, t.pz, t.msg)) =
    some (4, true, []) := by decide
/-- Program 3, decoder trace. -/
theorem test_blkCont : (after (exec .blkCont (openState .fdec .tile [.data 0xFF]))).map
    (fun t => (t.rem, t.pz, t.rsp)) = some (254, false, []) := by decide
/-- R134 after a LINK block, in RXDEC: the owed zero goes into the message. -/
theorem test_blkCont_rxdec : (after (exec .blkCont
      { openState .rxdec .master [.data 0xFF] with pz := true, msg := [0x11] })).map
    (fun t => (t.rem, t.pz, t.msg)) = some (254, false, [0x11, 0x00]) := by decide
/-- Program 2, encoder trace, first `DATA(00)`. -/
theorem test_fenc_zero : (after (exec .fenc
      { openState .fenc .tile [.data 0x00] with run := [0x11], count := 1 })).map
    (fun t => (t.run, t.rsp)) = some ([], [.out 0x02, .out 0x11]) := by decide
/-- Program 2, encoder trace, `END`. -/
theorem test_fenc_end : sent (exec .fenc { openState .fenc .tile [.endIn] with run := [0x22] }) =
    some [.out 0x02, .out 0x22, .done ⟨0x0, 0, 0, 0, 0, "", 0⟩] := by decide +kernel
/-- Program 2, decoder trace, `DATA(11)`. -/
theorem test_fdec_data : (after (exec .fdec
      { openState .fdec .tile [.data 0x11] with rem := 1, pz := true })).map
    (fun t => (t.rem, t.pz, t.rsp)) = some (0, true, [.out 0x11]) := by decide
/-- V4, at `END`: two data bytes are owed. -/
theorem test_fdec_truncated : sent (exec .fdec { openState .fdec .tile [.endIn] with rem := 2 }) =
    some [.done ⟨0x9, 0, 0, 0, 0, "", 0⟩] := by decide +kernel
/-- V7. -/
theorem test_rdecT_unknown :
    sent (exec .rdecT { openState .rdec .tile [.endIn] with msg := [0xFE, 0x00] }) =
      some [.done ⟨0x4, 0xFE, 0xFE, 0, 0, "", 0⟩] := by decide +kernel
/-- V9. -/
theorem test_rdecT_null : sent (exec .rdecT { openState .rdec .tile [.endIn] with msg := [0x02] }) =
    some [.done ⟨0x2, 0, 0, 0, 0, "", 0⟩] := by decide +kernel
/-- M23: the master map has an entry at FE. -/
theorem test_rdecM_found :
    (after (exec .rdecM { openState .rdec .master [.endIn] with msg := [0xFE, 0x34, 0x12] })).map
      (·.job) = some (some ⟨0xFE, [0x34, 0x12], ⟨"m_u16", .scalar .uint16⟩⟩) := by decide +kernel
/-- M24. -/
theorem test_rdecM_unknown :
    sent (exec .rdecM { openState .rdec .master [.endIn] with msg := [0x10, 0x05] }) =
      some [.done ⟨0x4, 0x10, 0x10, 0, 0, "", 0⟩] := by decide +kernel
/-- Program 1, transaction 2, `DATA(01)`. -/
theorem test_rxdecT_data : (after (exec .rxdecT
      { openState .rxdec .tile [.data 0x01] with rem := 4, pz := true, count := 1 })).map
    (fun t => (t.rem, t.msg)) = some (3, [0x01]) := by decide
/-- X9. -/
theorem test_rxdecT_null :
    sent (exec .rxdecT { openState .rxdec .tile [.endIn] with msg := [0x02], pz := true }) =
      some [.done ⟨0x2, 0, 0, 0, 0, "", 0⟩] := by decide +kernel
/-- X12, at `END`. -/
theorem test_rxdecM_zeroCode :
    sent (exec .rxdecM { openState .rxdec .master [.endIn] with err := some .zeroCode }) =
      some [.done ⟨0x8, 0, 0, 0, 0, "", 0⟩] := by decide +kernel
/-- X4 against the master map. -/
theorem test_rxdecM_unknown :
    sent (exec .rxdecM
      { openState .rxdec .master [.endIn] with msg := [0x05, 0x00, 0x00, 0x80, 0x3F] }) =
      some [.done ⟨0x4, 0x05, 0x05, 0, 0, "", 0⟩] := by decide +kernel
/-- Z1. -/
theorem test_rsvdCmd : (after (exec (.rsvdCmd 0x00) (openState (.rsvd 0x00) .tile [.data 0x11]))).map
      (fun t => (t.phase, t.req, t.rsp)) = some (.opened, [], []) ∧
    sent (exec (.rsvdCmd 0x00) (openState (.rsvd 0x00) .tile [.endIn])) =
      some [.done ⟨0xC, 0, 0, 0, 0, "", 0⟩] := by decide +kernel
/-- T2. -/
theorem test_tdU8 : sent (exec .tdU8 (jobState 0x01 [0xFF] ⟨"t_u8", .scalar .uint8⟩ [])) =
    some [.done ⟨0x1, 0x01, 0, 0x0, 0, "t_u8", 0x000000FF⟩] := by decide +kernel
/-- M7. -/
theorem test_tdU16 : sent (exec .tdU16 (jobState 0x02 [0x34, 0x12] ⟨"t_u16", .scalar .uint16⟩ [])) =
    some [.done ⟨0x1, 0x02, 0, 0x1, 0, "t_u16", 0x00001234⟩] := by decide +kernel
/-- M6. -/
theorem test_tdU16_short : sent (exec .tdU16 (jobState 0x02 [0x34] ⟨"t_u16", .scalar .uint16⟩ [])) =
    some [.done ⟨0x5, 0x02, 0x02, 0, 0, "", 0⟩] := by decide +kernel
/-- M10. -/
theorem test_tdI16 : sent (exec .tdI16 (jobState 0x03 [0x2E, 0xFB] ⟨"t_i16", .scalar .int16⟩ [])) =
    some [.done ⟨0x1, 0x03, 0, 0x2, 0, "t_i16", 0xFFFFFB2E⟩] := by decide +kernel
/-- M11. -/
theorem test_tdU32 :
    sent (exec .tdU32 (jobState 0x04 [0x78, 0x56, 0x34, 0x12] ⟨"t_u32", .scalar .uint32⟩ [])) =
      some [.done ⟨0x1, 0x04, 0, 0x3, 0, "t_u32", 0x12345678⟩] := by decide +kernel
/-- M12. -/
theorem test_tdU32_short :
    sent (exec .tdU32 (jobState 0x04 [0x01, 0x02, 0x03] ⟨"t_u32", .scalar .uint32⟩ [])) =
      some [.done ⟨0x5, 0x04, 0x04, 0, 0, "", 0⟩] := by decide +kernel
/-- M13. -/
theorem test_tdF32 :
    sent (exec .tdF32 (jobState 0x05 [0x00, 0x00, 0x80, 0x3F] ⟨"t_f32", .scalar .float32⟩ [])) =
      some [.done ⟨0x1, 0x05, 0, 0x4, 0, "t_f32", 0x3F800000⟩] := by decide +kernel
/-- V8. -/
theorem test_tdF32_short :
    sent (exec .tdF32 (jobState 0x05 [0x00, 0x00] ⟨"t_f32", .scalar .float32⟩ [])) =
      some [.done ⟨0x5, 0x05, 0x04, 0, 0, "", 0⟩] := by decide +kernel
/-- M17. -/
theorem test_tdBf : sent (exec (.tdBf 1) (jobState 0x11 [0x01, 0x02] ⟨"t_wide", .bitfield 1⟩ [])) =
    some [.done ⟨0x1, 0x11, 0, 0x8, 1, "t_wide", 0x00000201⟩] := by decide +kernel
/-- M16. -/
theorem test_tdBf_short : sent (exec (.tdBf 1) (jobState 0x11 [0x01] ⟨"t_wide", .bitfield 1⟩ [])) =
    some [.done ⟨0x5, 0x11, 0x02, 0, 0, "", 0⟩] := by decide +kernel
/-- M18. -/
theorem test_tdRaw :
    sent (exec .tdRaw (jobState 0x20 [0xDE, 0xAD] ⟨"t_unknown", .unknown "q15"⟩ [])) =
      some [.out 0xDE, .out 0xAD, .done ⟨0x1, 0x20, 0, 0xF, 0, "t_unknown", 0⟩] := by decide +kernel
/-- Z8: the fifth byte where `MAX_LEN` is 4, and the answer. -/
theorem test_overLength :
    (after (exec .fenc { openState .fenc .tile [.data 0x55] with maxLen := 4, count := 4 })).map
      (fun t => (t.overLength, t.count)) = some (true, 4) ∧
    sent (exec .fenc { openState .fenc .tile [.endIn] with overLength := true }) =
      some [.done ⟨0xD, 0, 0, 0, 0, "", 0⟩] := by decide +kernel
/-- Program 1, the last beat of transaction 1, with the next command on offer: `END` and `DONE` are one
step (R193). -/
theorem test_end_is_one_step :
    (after (step { openState .rxdec .tile [.endIn, .cmd 0x04] with msg := [0x02, 0x34, 0x12] })).map
      (fun t => (t.phase, t.job, t.req, t.rsp)) =
      some (.idle, none, [.cmd 0x04], [.done ⟨0x1, 0x02, 0, 0x1, 0, "t_u16", 0x00001234⟩]) := by
  decide +kernel
/-- R248: a command between `END` and `DONE` is refused. -/
theorem test_cmd_before_done :
    step (jobState 0x02 [0x34, 0x12] ⟨"t_u16", .scalar .uint16⟩ [.cmd 0x04]) =
      .refused .cmdWhileOpen := rfl
/-- Program 5: reset in mid-transaction. -/
theorem test_reset : (after (step { openState .rxdec .tile [.reset, .data 0x34] with rem := 2 })).map
    (fun t => (t.phase, t.req, t.rsp)) = some (.idle, [.data 0x34], [.resetSeen]) := by decide +kernel

/-! ### Witnesses: hypotheses of the statements that can be met, at the ends of their ranges -/

/-- DecodeOfEncodeIsTheInstruction: every constructor with operands at both ends. -/
theorem witness_wellFormed : ∀ i ∈ [Instr.blkIll, .blkLink 1, .blkLink 254, .blkCont, .fenc, .fdec,
    .rdecT, .rdecM, .rxdecT, .rxdecM, .rsvdCmd 0x00, .rsvdCmd 0xFF, .tdU8, .tdU16, .tdI16, .tdU32,
    .tdF32, .tdBf 0, .tdBf 255, .tdRaw], i.wf = true := by decide
/-- EncodeOfDecodeIsTheWord. -/
theorem witness_decodes : decode .stuff [0xFE] = .ok (.blkLink 0xFE) ∧
    decode .cmd [0x09] = .ok (.rsvdCmd 0x09) ∧ decode .tt [0x08, 0xFF] = .ok (.tdBf 0xFF) := by decide
/-- ExactlySixCommandWordsAreLegal, the last clause; RefusedRequestBeats, the first. -/
theorem witness_reservedWords : ∀ w ∈ [(0x00 : Byte), 0x05, 0x09, 0xFF],
    w ∉ [(0x01 : Byte), 0x02, 0x03, 0x0B, 0x04, 0x0C] ∧ legalCommand w = false := by decide
/-- EncodedFrameLengthAndBlockCount: E17 (`e = 1`) and E22 (`q = 1`, `e = 0`). -/
theorem witness_frameLength :
    (254 = ((runs (rep 254 0x41)).getLast?.getD []).length ∧
      1 = ((runs (rep 254 0x41)).map fun r => r.length / 254).sum ∧
      1 = (if 1 ≤ 254 / 254 ∧ 254 % 254 = 0 then 1 else 0)) ∧
    (1 = ((runs (rep 254 0x41 ++ [0x00, 0x42])).getLast?.getD []).length ∧
      1 = ((runs (rep 254 0x41 ++ [0x00, 0x42])).map fun r => r.length / 254).sum ∧
      0 = (if 1 ≤ 1 / 254 ∧ 1 % 254 = 0 then 1 else 0)) := by decide +kernel
/-- LiteralEncoderAgreesExactlyOnShortRuns: the longest inputs of the first clause, the shortest of the
second. -/
theorem witness_shortRuns :
    (∀ x ∈ [rep 253 0x41 ++ [0x00], rep 254 0x41], (∀ r ∈ (runs x).dropLast, r.length ≤ 253) ∧
      ((runs x).getLast?.getD []).length ≤ 254) ∧
    (∀ x ∈ [rep 254 0x41 ++ [0x00], rep 255 0x41], ¬ ((∀ r ∈ (runs x).dropLast, r.length ≤ 253) ∧
      ((runs x).getLast?.getD []).length ≤ 254)) := by decide +kernel
/-- DecodeTakesOneBlockAtATime: one byte too few, and exactly enough, for the codes 02 and FF. -/
theorem witness_oneBlock :
    ((0x02 : Byte) ≠ 0x00 ∧ ([] : List Byte).length < (0x02 : Byte).toNat - 1) ∧
    ((0xFF : Byte) ≠ 0x00 ∧ (rep 253 0x01).length < (0xFF : Byte).toNat - 1) ∧
    ((0x01 : Byte) ≠ 0x00 ∧ ([] : List Byte).length = (0x01 : Byte).toNat - 1) ∧
    (rep 254 0x07).length = (0xFF : Byte).toNat - 1 := by decide +kernel
/-- DecodedLength: F1, F16. -/
theorem witness_decodedLength : dec [] = .ok [] ∧
    (dec (0xFF :: rep 254 0x07) = .ok (rep 254 0x07) ∧ 0xFF :: rep 254 0x07 ≠ []) := by decide +kernel
/-- MemReadIsTheLittleEndianSum, MixedWidthViewsAgree. -/
theorem witness_memRead : 0 + 4 ≤ [0x78, 0x56, 0x34, (0x12 : Byte)].length ∧
    4 + 0 ≤ [0x78, 0x56, 0x34, (0x12 : Byte)].length ∧
    4 ≤ [0x78, 0x56, 0x34, (0x12 : Byte)].length := by decide
/-- ShortPayloadsFailAndTrailingBytesAreIgnored: on both sides of `w`, for a scalar and a bitfield. -/
theorem witness_payloads :
    (requiredBytes fixture (.scalar .uint16) = some 2 ∧ [(0x34 : Byte)].length < 2 ∧
      2 ≤ [(0x34 : Byte), 0x12].length ∧ [(0x34 : Byte), 0x12, 0x99].take 2 = [0x34, 0x12].take 2) ∧
    (requiredBytes fixture (.bitfield 1) = some 2 ∧ [(0x01 : Byte)].length < 2 ∧
      2 ≤ [(0x01 : Byte), 0x02].length) ∧
    TypeRef.unknown "q15" = .unknown "q15" := by decide +kernel
/-- UnusedBitfieldBitsAreIgnored: T19 with T20, and T26. -/
theorem witness_unusedBits :
    (bfA.flags.length % 8 ≠ 0 ∧ ([] : List Byte).length + 1 = (bfA.flags.length + 7) / 8 ∧
      (0x05 : Byte).toNat % 2 ^ (bfA.flags.length % 8) =
        (0xFD : Byte).toNat % 2 ^ (bfA.flags.length % 8) ∧
      decodeBf bfA.flags ([] ++ 0x05 :: []) =
        .ok (.flags [("alive", true), ("arm_ready", false), ("arm_active", true)])) ∧
    (bfB.flags.length % 8 ≠ 0 ∧ [(0x00 : Byte)].length + 1 = (bfB.flags.length + 7) / 8 ∧
      (0xFC : Byte).toNat % 2 ^ (bfB.flags.length % 8) =
        (0x00 : Byte).toNat % 2 ^ (bfB.flags.length % 8)) := by decide +kernel
/-- RegisterDecodeDecisionTable: M3; M4; M6, M7; M18. -/
theorem witness_decisionTable : [(0x02 : Byte)].length < 2 ∧
    (1 ≤ [(0x00 : Byte)].length ∧ mapLookup fixture .tile 0xFE = none) ∧
    (mapLookup fixture .tile 0x02 = some ⟨"t_u16", .scalar .uint16⟩ ∧
      requiredBytes fixture (.scalar .uint16) = some 2 ∧ 1 ≤ [(0x34 : Byte)].length ∧
      [(0x34 : Byte)].length < 2 ∧ 2 ≤ [(0x34 : Byte), 0x12].length) ∧
    mapLookup fixture .tile 0x20 = some ⟨"t_unknown", .unknown "q15"⟩ := by decide +kernel
/-- OnlyTheFirstFiveMessageBytesMatter: M11 with a byte more; no raw value is decoded from it. -/
theorem witness_firstFive :
    [(0x04 : Byte), 0x78, 0x56, 0x34, 0x12].take 5 = [0x04, 0x78, 0x56, 0x34, 0x12, 0x99].take 5 ∧
    ∀ reg name bs, regDecode fixture .tile [0x04, 0x78, 0x56, 0x34, 0x12] ≠
      some (.record (.ok reg name (.raw bs))) := by
  have h : regDecode fixture .tile [0x04, 0x78, 0x56, 0x34, 0x12] =
      some (.record (.ok 0x04 "t_u32" (.num 305419896))) := by decide +kernel
  exact ⟨rfl, fun _ _ _ e => by rw [h] at e; simp at e⟩
/-- TileRegisterFeIsUnknown, WellFormedTablesGiveEveryTransactionAnOutcome. -/
theorem witness_tablesWf : fixture.wf = true ∧ Tables.empty.wf = true := by decide
/-- PackedValueIsRecovered: one value of each kind (T13, T9, T16, T25, T27). -/
theorem witness_packedValues :
    typeDecode fixture (.scalar .uint32) [0xFF, 0xFF, 0xFF, 0xFF] = some (.ok (.num 4294967295)) ∧
    typeDecode fixture (.scalar .int16) [0x00, 0x80] = some (.ok (.num (-32768))) ∧
    typeDecode fixture (.scalar .float32) [0x00, 0x00, 0xC0, 0x7F] = some (.ok (.f32 0x7FC00000)) ∧
    typeDecode fixture (.bitfield 1) [0xFF, 0xFF] =
      some (.ok (.flags (bfB.flags.map fun f => (f, true)))) ∧
    typeDecode fixture (.unknown "q15") [0xDE, 0xAD] = some (.ok (.raw [0xDE, 0xAD])) := by
  decide +kernel
/-- The opening clauses of FencBeats, FdecBeats, RdecBeats, RxdecBeats, RefusedRequestBeats. -/
theorem witness_opening : ∀ w ∈ [(0x01 : Byte), 0x02, 0x03, 0x0B, 0x04, 0x0C, 0x00],
    (idleState [.cmd w, .endIn]).phase = .idle ∧
    (idleState [.cmd w, .endIn]).req = .cmd w :: [.endIn] := by decide
/-- The `DATA` clauses of FencBeats, at 0 and 253 bytes of `run`, the last beat that is accepted. -/
theorem witness_fencData :
    let s := { openState .fenc .tile [.data 0x41] with run := rep 253 0x41, count := 599 }
    (0x41 : Byte) ≠ 0x00 ∧ s.phase = .opened ∧ s.job = none ∧ s.overLength = false ∧
    s.count < s.maxLen ∧ s.req = .data 0x41 :: [] ∧ s.run.length = 253 ∧
    (openState .fenc .tile [.data 0x41]).run.length ≠ 253 := by decide +kernel
/-- The `END` clauses of FencBeats. -/
theorem witness_fencEnd : ∀ full ∈ [true, false],
    let s := { openState .fenc .tile [.endIn] with afterFull := full }
    s.phase = .opened ∧ s.job = none ∧ s.overLength = false ∧ s.req = .endIn :: [] ∧
    s.afterFull = full := by decide
/-- The `DATA` clauses of FdecBeats and RxdecBeats: each `err`, `rem` at 0, 1 and 254. -/
theorem witness_framedData : ∀ op ∈ [Op.fdec, .rxdec], ∀ b ∈ [(0x00 : Byte), 0x01, 0xFF],
    ∀ e ∈ [none, some Cause.zeroCode], ∀ r ∈ [0, 1, 254],
    let s := { openState op .tile [.data b] with err := e, rem := r }
    s.phase = .opened ∧ s.job = none ∧ s.overLength = false ∧ s.count < s.maxLen ∧
    s.req = .data b :: [] ∧ s.err = e ∧ s.rem = r := by decide
/-- The `END` clauses of FdecBeats and RxdecBeats that end in a hard failure, and FDEC's success. -/
theorem witness_framedEnd : ∀ op ∈ [Op.fdec, .rxdec],
    ∀ e ∈ [none, some Cause.zeroCode, some Cause.truncated], ∀ r ∈ [0, 1, 254],
    let s := { openState op .master [.endIn] with err := e, rem := r }
    s.phase = .opened ∧ s.job = none ∧ s.overLength = false ∧ s.req = .endIn :: [] ∧
    s.err = e ∧ s.rem = r := by decide
/-- BlockClassBeats: both operations, with and without an owed zero, codes at both ends. -/
theorem witness_blockClasses : ∀ op ∈ [Op.fdec, .rxdec], ∀ z ∈ [true, false],
    ∀ c ∈ [(0x01 : Byte), 0xFE],
    let s := { openState op .tile [.data c] with pz := z }
    s.phase = .opened ∧ s.job = none ∧ s.overLength = false ∧ s.count < s.maxLen ∧ s.err = none ∧
    s.rem = 0 ∧ s.req = .data c :: [] ∧ s.op = op ∧ c ≠ 0x00 ∧ c ≠ 0xFF := by decide
/-- RdecBeats and RxdecBeats at `END`: a message of 1 byte; of 2 with and without an entry. -/
theorem witness_recordEnd : ∀ op ∈ [Op.rdec, .rxdec], ∀ sel ∈ [MapSel.tile, .master],
    (let s := { openState op sel [.endIn] with msg := [0x02] };
      s.phase = .opened ∧ s.job = none ∧ s.overLength = false ∧ s.err = none ∧ s.rem = 0 ∧
      s.req = .endIn :: [] ∧ s.msg.length < 2) ∧
    (let s := { openState op sel [.endIn] with msg := [0x30, 0x00] };
      s.msg = 0x30 :: [0x00] ∧ 1 ≤ [(0x00 : Byte)].length ∧
      mapLookup s.tables s.map 0x30 = none) ∧
    (let s := { openState op sel [.endIn] with msg := [0x01, 0x00] };
      s.msg = 0x01 :: [0x00] ∧ (mapLookup s.tables s.map 0x01).isSome = true) := by decide +kernel
/-- RdecBeats at `DATA`, and the premise on `i`, `w`, `m` of RdecBeats and RxdecBeats. -/
theorem witness_recordData :
    (let s := openState .rdec .tile [.data 0x02];
      s.phase = .opened ∧ s.job = none ∧ s.overLength = false ∧ s.count < s.maxLen ∧
      s.req = .data 0x02 :: []) ∧
    (Instr.rdecM = .rdecM ∧ (0x0B : Byte) = 0x0B ∧ MapSel.master = .master) := by decide
/-- RefusedRequestBeats: a reserved word's beats; a legal transaction at the bound and beyond it. -/
theorem witness_refusedRequest :
    (let s := openState (.rsvd 0x09) .tile [.data 0x11];
      legalCommand 0x09 = false ∧ s.phase = .opened ∧ s.job = none ∧ s.req = .data 0x11 :: []) ∧
    (let s := openState (.rsvd 0x09) .tile [.endIn];
      s.phase = .opened ∧ s.job = none ∧ s.req = .endIn :: []) ∧
    (let s := { openState .rdec .tile [.data 0x99] with maxLen := 4, count := 4 };
      s.phase = .opened ∧ s.job = none ∧ s.overLength = false ∧ s.count = s.maxLen ∧
      s.req = .data 0x99 :: []) ∧
    (∀ e ∈ [HostEvent.data 0x99, .endIn],
      let s := { openState .rdec .tile [e] with maxLen := 4, count := 4, overLength := true }
      s.phase = .opened ∧ s.job = none ∧ s.overLength = true ∧ s.req = e :: []) := by decide
/-- TdU8Reports to TdRawReports: payloads of exactly the width, and one byte short of it. -/
theorem witness_typeJobs : ∀ p ∈ [([] : List Byte), [0x34], [0x34, 0x12], [0x01, 0x02, 0x03],
    [0x78, 0x56, 0x34, 0x12]],
    (jobState 0x02 p ⟨"n", .unknown "q15"⟩ []).job = some ⟨0x02, p, ⟨"n", .unknown "q15"⟩⟩ := by
  decide
/-- TdBfReports: BF_B on both sides of its 2 bytes. OwnStopsAreRefusedByName: a selector out of range, 33
flags, a name twice. -/
theorem witness_bitfields :
    (fixture.bfTable[(1 : Byte).toNat]? = some ⟨"BF_B", bfB.flags⟩ ∧ bfB.flags.length ≤ 32 ∧
      bfB.flags.Nodup ∧ (bfB.flags.length + 7) / 8 ≤ [(0x01 : Byte), 0x02].length ∧
      [(0x01 : Byte)].length < (bfB.flags.length + 7) / 8) ∧
    fixture.bfTable.length ≤ (2 : Byte).toNat ∧
    (let flags := (List.range 33).map toString;
      ([⟨"big", flags⟩] : List BitfieldType)[(0 : Byte).toNat]? = some ⟨"big", flags⟩ ∧
        32 < flags.length) ∧
    (([⟨"d", ["x", "x"]⟩] : List BitfieldType)[(0 : Byte).toNat]? = some ⟨"d", ["x", "x"]⟩ ∧
      ¬ ["x", "x"].Nodup) := by decide +kernel
/-- StepRunsTheDecodedInstruction, its clauses: refused, whole, and with a type decode left. -/
theorem witness_runs :
    (fetch (openState .fenc .tile [.cmd 0x01]) = some (.cmd, [0x01]) ∧
      exec .fenc (openState .fenc .tile [.cmd 0x01]) = .refused .cmdWhileOpen) ∧
    (∃ t, exec .rdecM (idleState [.cmd 0x0B]) = .next t ∧ t.job = none) ∧
    (let s := { openState .rdec .tile [.endIn] with msg := [0x02, 0x34, 0x12] };
      fetch s = some (.cmd, [0x03]) ∧ ∃ t, exec .rdecT s = .next t ∧
        t.job = some ⟨0x02, [0x34, 0x12], ⟨"t_u16", .scalar .uint16⟩⟩) :=
  ⟨⟨rfl, rfl⟩, ⟨_, rfl, rfl⟩, rfl, _, rfl, by decide +kernel⟩
/-- StepRunsTheDecodedInstruction, EveryFetchedWordIsAnInstruction: one word of each format. -/
theorem witness_fetch :
    (fetch (idleState [.cmd 0x0B]) = some (.cmd, [0x0B]) ∧ decode .cmd [0x0B] = .ok .rdecM) ∧
    (fetch (openState .fdec .tile [.data 0x05]) = some (.stuff, [0x05]) ∧
      decode .stuff [0x05] = .ok (.blkLink 5)) ∧
    (fetch (jobState 0x11 [0x01] ⟨"t_wide", .bitfield 1⟩ []) = some (.tt, [0x08, 0x01]) ∧
      decode .tt [0x08, 0x01] = .ok (.tdBf 1)) := by decide
/-- StepRunsTheInstructionInPosition, its clauses, and each disjunct of the code-byte one. -/
theorem witness_positions :
    (let s := idleState [.cmd 0x03];
      s.phase = .idle ∧ s.job = none ∧ s.req = .cmd 0x03 :: []) ∧
    (∀ op ∈ [Op.fenc, .fdec, .rdec, .rxdec, .rsvd 0x05], ∀ e ∈ [HostEvent.data 0x02, .endIn],
      let s := openState op .tile [e];
      s.phase = .opened ∧ s.job = none ∧ s.req = e :: [] ∧ s.op = op ∧ s.overLength = false ∧
      s.count < s.maxLen ∧ s.err = none ∧ s.rem = 0) ∧
    legalCommand 0x05 = false ∧
    (let s := openState .rxdec .master [.data 0x02];
      { s with overLength := true }.overLength = true ∧
      { s with count := 600 }.maxLen ≤ { s with count := 600 }.count ∧
      { s with err := some .zeroCode }.err ≠ none ∧ 0 < { s with rem := 1 }.rem) ∧
    (let j := jobState 0x01 [0x00] ⟨"t_u8", .scalar .uint8⟩;
      (j []).job = some ⟨0x01, [0x00], ⟨"t_u8", .scalar .uint8⟩⟩ ∧ (j []).req = []) := by decide
/-- ProtocolViolationsAreRefusedByName: its four clauses. OwnStopsAreRefusedByName: the last. -/
theorem witness_violations :
    (let s := idleState [.data 0x00];
      s.phase = .idle ∧ s.job = none ∧ s.req = .data 0x00 :: []) ∧
    (let s := idleState [.endIn];
      s.phase = .idle ∧ s.job = none ∧ s.req = .endIn :: []) ∧
    (let s := openState .fenc .tile [.cmd 0x01];
      s.phase = .opened ∧ s.req = .cmd 0x01 :: []) ∧
    (let s := jobState 0x01 [0x00] ⟨"t_u8", .scalar .uint8⟩ [.cmd 0x01];
      s.phase = .opened ∧ s.req = .cmd 0x01 :: []) ∧
    (∀ e ∈ [HostEvent.data 0x00, .endIn],
      let s := jobState 0x01 [0x00] ⟨"t_u8", .scalar .uint8⟩ [e];
      s.job ≠ none ∧ s.req = e :: []) := by decide
/-- OwnStopsAreRefusedByName, WithoutABeatTheBlockWaits. -/
theorem witness_outOfPosition : (idleState [.data 0x05]).atCode = false ∧
    (idleState [.data 0x05]).job = none ∧
    ((idleState []).req = [] ∧ (idleState []).job = none) := by decide
/-- ResetAbandonsTheTransaction: reset in an open transaction, and what may follow. -/
theorem witness_reset : ∀ e ∈ [HostEvent.cmd 0x04, .data 0x34, .endIn],
    (openState .rxdec .tile [.reset, e]).req = .reset :: [e] := by decide

/-- An open FDEC at the start of its frame lies in the ranges. -/
theorem openFdec_inv (req : List HostEvent) : Inv (openState .fdec .tile req) where
  tablesWf := test_fixture_wf
  maxLenAtLeastTwo := by simp [openState, idleState]
  countBound := by simp [openState, idleState, State.reset]
  overFull := by simp [openState, idleState, State.reset]
  framerMap := by simp [openState]
  reservedWord := by simp [openState]
  runBound := by simp [openState]
  afterFullEmpty := by simp [openState]
  remBound := by simp [openState, idleState, State.reset]
  msgBound := by simp [openState]
  jobFound := by simp [openState, idleState, State.reset]

/-- EveryStepKeepsTheRanges, NoStepWritesTheTables, EveryDoneBeatIsLegal,
NoStepLeavesATypeDecodeUnderWay: a step that sends `DONE`. -/
theorem witness_step : Inv (openState .fdec .tile [.endIn]) ∧
    ∃ t, step (openState .fdec .tile [.endIn]) = .next t ∧
      .done ⟨0x0, 0, 0, 0, 0, "", 0⟩ ∈ t.rsp :=
  ⟨openFdec_inv _, _, rfl, by decide +kernel⟩
/-- StepsStopExactlyOnProtocolViolations: a state on each side. -/
theorem witness_stops :
    (Inv (openState .fdec .tile [.cmd 0x01]) ∧
      protocolViolation (openState .fdec .tile [.cmd 0x01]) = true) ∧
    (Inv (openState .fdec .tile [.data 0x00]) ∧
      protocolViolation (openState .fdec .tile [.data 0x00]) = false) :=
  ⟨⟨openFdec_inv _, by decide⟩, openFdec_inv _, by decide⟩
/-- DoneFollowsEndAfterFinitelyManySteps. -/
theorem witness_done : ∀ rest ∈ [[], [HostEvent.cmd 0x01], [.data 0x00], [.reset]],
    Inv (openState .fdec .tile (.endIn :: rest)) ∧
    (openState .fdec .tile (.endIn :: rest)).phase = .opened ∧
    (openState .fdec .tile (.endIn :: rest)).job = none ∧
    (openState .fdec .tile (.endIn :: rest)).req = .endIn :: rest :=
  fun _ _ => ⟨openFdec_inv _, rfl, rfl, rfl⟩
/-- FencTransactionSendsTheEncoding, FdecTransactionSendsTheDecoding: E10; F6, F8, F9; `x` empty and at
`MAX_LEN`. -/
theorem witness_framerTransactions : ∀ w ∈ [(0x01 : Byte), 0x02],
    ∀ x ∈ [[], [0x11, 0x00, 0x00, (0x22 : Byte)], [0x00], [0x05, 0x01, 0x02], rep 600 0x41],
    let s := idleState (transactionBeats w x ++ [.cmd 0x01]);
    s.phase = .idle ∧ s.job = none ∧ s.req = transactionBeats w x ++ [.cmd 0x01] ∧
    x.length ≤ s.maxLen := by decide +kernel
/-- The three clauses on `dec` of FdecTransactionSendsTheDecoding. -/
theorem witness_fdecOutcomes : dec [0x03, 0x11, 0x22, 0x02, 0x33] = .ok [0x11, 0x22, 0x00, 0x33] ∧
    dec [0x00] = .error .zeroCode ∧ dec [0x05, 0x01, 0x02] = .error .truncated := by decide
/-- RecordTransactionsSendTheRecord: M7, M23, X1, X4 (the last against the master map). -/
theorem witness_recordTransactions :
    (∀ c ∈ [((0x03 : Byte), [(0x02 : Byte), 0x34, 0x12]), (0x0B, [0xFE, 0x34, 0x12]),
        (0x04, [0x04, 0x02, 0x34, 0x12]), (0x0C, [0x02, 0x05, 0x01, 0x03, 0x80, 0x3F])],
      let s := idleState (transactionBeats c.1 c.2 ++ [.cmd 0x01]);
      s.phase = .idle ∧ s.job = none ∧ s.req = transactionBeats c.1 c.2 ++ [.cmd 0x01] ∧
      c.2.length ≤ s.maxLen) ∧
    regDecode fixture .tile [0x02, 0x34, 0x12] = some (.record (.ok 0x02 "t_u16" (.num 4660))) ∧
    regDecode fixture .master [0xFE, 0x34, 0x12] =
      some (.record (.ok 0xFE "m_u16" (.num 4660))) ∧
    rxDecode fixture .tile [0x04, 0x02, 0x34, 0x12] =
      some (.record (.ok 0x02 "t_u16" (.num 4660))) ∧
    rxDecode fixture .master [0x02, 0x05, 0x01, 0x03, 0x80, 0x3F] =
      some (.record (.err 0x05 (.unknownRegister 0x05))) := by decide +kernel
/-- EveryTransactionEndsWithItsOutcome: X1 with another command behind it, a refused word, and one with more
than `MAX_LEN` beats. -/
theorem witness_everyTransaction :
    (let s := idleState (transactionBeats 0x04 [0x04, 0x02, 0x34, 0x12] ++ [.cmd 0x04]);
      s.phase = .idle ∧ s.job = none ∧
      s.req = transactionBeats 0x04 [0x04, 0x02, 0x34, 0x12] ++ [.cmd 0x04] ∧
      transactionOutcome s.tables s.maxLen 0x04 [0x04, 0x02, 0x34, 0x12] =
        some (.record (.ok 0x02 "t_u16" (.num 4660)))) ∧
    (let s := idleState (transactionBeats 0x07 [0x11, 0x22] ++ []);
      s.phase = .idle ∧ s.job = none ∧ s.req = transactionBeats 0x07 [0x11, 0x22] ++ [] ∧
      transactionOutcome s.tables s.maxLen 0x07 [0x11, 0x22] = some (.refused .cmd)) ∧
    (let s := { idleState (transactionBeats 0x01 (rep 5 0x11) ++ []) with maxLen := 4 };
      s.phase = .idle ∧ s.job = none ∧ s.req = transactionBeats 0x01 (rep 5 0x11) ++ [] ∧
      transactionOutcome s.tables s.maxLen 0x01 (rep 5 0x11) = some (.refused .length)) := by
  decide +kernel
/-- OutcomesFollowThePriority: each clause, the length at `MAX_LEN` and one above. -/
theorem witness_priority :
    legalCommand 0x00 = false ∧ (legalCommand 0x0C = true ∧ 4 < (rep 5 0x11).length) ∧
    (legalCommand 0x01 = true ∧ (rep 4 0x11).length ≤ 4) ∧
    (legalCommand 0x04 = true ∧ dec [0x00] = .error .zeroCode) ∧
    (legalCommand 0x02 = true ∧ dec [0x02, 0x11] = .ok [0x11]) ∧
    (dec [0x02, 0x02] = .ok [0x02] ∧ [(0x02 : Byte)].length < 2) ∧
    (dec [0x02, 0xFE, 0x01] = .ok [0xFE, 0x00] ∧ mapLookup fixture .tile 0xFE = none) ∧
    (mapLookup fixture .tile 0x02 = some ⟨"t_u16", .scalar .uint16⟩ ∧
      typeDecode fixture (.scalar .uint16) [0x34] = some (.error (.shortPayload 2)) ∧
      typeDecode fixture (.scalar .uint16) [0x34, 0x12] = some (.ok (.num 4660))) := by
  decide +kernel
/-- ResponsesIgnoreTheStaleWorkingState: two instances at rest with different working state. -/
theorem witness_staleState :
    let s := idleState [.cmd 0x04, .data 0x01, .endIn];
    let t := { s with run := [0x11], rem := 7, pz := true, err := some .zeroCode, msg := [0x02] }
    (s.phase = .idle ∧ s.job = none) ∧ (t.phase = .idle ∧ t.job = none) ∧ s.tables = t.tables ∧
    s.maxLen = t.maxLen ∧ s.req = t.req ∧ s ≠ t :=
  ⟨⟨rfl, rfl⟩, ⟨rfl, rfl⟩, rfl, rfl, rfl, fun h => absurd (congrArg State.rem h) (by decide)⟩
/-- RecordEndIsOneStep: M7 for RDEC, X1 for RXDEC; a raw value, M18. -/
theorem witness_recordEndStep :
    (∀ op ∈ [Op.rdec, .rxdec], ∀ m ∈ [[0x02, 0x34, (0x12 : Byte)], [0x20, 0xDE, 0xAD]],
      let s := { openState op .tile [.endIn, .cmd 0x01] with msg := m };
      s.phase = .opened ∧ s.job = none ∧ s.overLength = false ∧ s.req = .endIn :: [.cmd 0x01] ∧
      s.err = none ∧ s.rem = 0 ∧ (regDecode s.tables s.map s.msg).isSome = true) := by decide +kernel
/-- InterleavedInstancesRunAsIfAlone: two instances, the schedule 0, 1, 0. -/
theorem witness_interleaving :
    (∃ sys, runSchedule [0, 1, 0] [idleState [.cmd 0x01, .endIn], idleState [.cmd 0x03]] = .next sys) ∧
    [idleState [.cmd 0x01, .endIn], idleState [.cmd 0x03]][1]? = some (idleState [.cmd 0x03]) :=
  ⟨⟨_, rfl⟩, rfl⟩

end Sys2Proof.Tests
end

section
/-! SUPPORT. The constant tables: what the register decoder reads of them (R26 to R29), and that no beat
writes them. -/

namespace Sys2Proof.Machine

/-! ### What the register decoder reads of the tables (R26, R27) -/

/-- A type decode reads the bitfield table and neither map. -/
theorem typeDecode_congr {tb tb' : Tables} (h : tb.bfTable = tb'.bfTable) (t : TypeRef)
    (p : List Byte) : typeDecode tb t p = typeDecode tb' t p := by
  cases t with
  | scalar s => cases s <;> rfl
  | bitfield sel => simp only [typeDecode, bfLookup, h]
  | unknown tag => rfl

/-- A register decode reads the map it is given and the bitfield table. -/
theorem regDecode_congr {tb tb' : Tables} {sel : MapSel} (hm : tableOf tb sel = tableOf tb' sel)
    (hb : tb.bfTable = tb'.bfTable) (m : List Byte) :
    regDecode tb sel m = regDecode tb' sel m := by
  match m with
  | [] => rfl
  | [_] => rfl
  | id :: b :: p => simp only [regDecode, mapLookup, hm, typeDecode_congr hb]

/-- Settles O19: each side changes only the map that the decode does not read. -/
theorem mapsAreIndependent : Obligations.MapsAreIndependent := fun _ _ m =>
  ⟨regDecode_congr rfl rfl m, regDecode_congr rfl rfl m⟩

/-- Well-formed tables leave 0xFE out of the tile map. -/
theorem tile_lookup_undefined {tb : Tables} (h : tb.wf = true) : mapLookup tb .tile 0xFE = none := by
  simp only [Tables.wf, Bool.and_eq_true, Option.isNone_iff_eq_none] at h
  exact h.2

/-- A message for an identifier that its map does not define is an unknown register (R185). -/
theorem regDecode_unknown {tb : Tables} {sel : MapSel} {id : Byte}
    (h : mapLookup tb sel id = none) (b : Byte) (p : List Byte) :
    regDecode tb sel (id :: b :: p) = some (.record (.err id (.unknownRegister id))) := by
  simp only [regDecode, h]

/-- The tables of the instantiation are well-formed, whatever the free value is. -/
theorem config_tables_wf : Config.tables.wf = true := by
  unfold Config.tables
  split
  · assumption
  · decide

/-- Settles O18: well-formedness has a clause for 0xFE. -/
theorem tileRegisterFeIsUnknown : Obligations.TileRegisterFeIsUnknown :=
  ⟨fun _ b p h => ⟨tile_lookup_undefined h, regDecode_unknown (tile_lookup_undefined h) b p⟩,
    config_tables_wf⟩

/-! ### What the beats of a transaction leave unchanged -/

/-- What every beat leaves unchanged: the constants of the block and the beats still on offer. -/
structure KeepsConstants (s t : State) : Prop where
  tables : t.tables = s.tables
  maxLen : t.maxLen = s.maxLen
  req : t.req = s.req

/-- What a `DATA` beat leaves unchanged: the transaction stays open as it is, and nothing but `OUT` beats
is sent. -/
structure KeepsTransaction (s t : State) : Prop extends KeepsConstants s t where
  phase : t.phase = s.phase
  op : t.op = s.op
  map : t.map = s.map
  job : t.job = s.job
  sends : ∃ outs : List Byte, t.rsp = s.rsp ++ outs.map .out

/-- What an operation leaves unchanged when it takes a byte: also the account of the bytes received. -/
structure TakeKeeps (s t : State) : Prop extends KeepsTransaction s t where
  count : t.count = s.count
  overLength : t.overLength = s.overLength

theorem TakeKeeps.refl (s : State) : TakeKeeps s s :=
  ⟨⟨⟨rfl, rfl, rfl⟩, rfl, rfl, rfl, rfl, [], by simp⟩, rfl, rfl⟩

theorem takePlain_keeps (b : Byte) (s : State) : TakeKeeps s (takePlain b s) :=
  ⟨⟨⟨rfl, rfl, rfl⟩, rfl, rfl, rfl, rfl, _, rfl⟩, rfl, rfl⟩

theorem takeMessage_keeps (b : Byte) (s : State) : TakeKeeps s (takeMessage b s) :=
  { TakeKeeps.refl s with }

theorem sinkOut_keeps (b : Byte) (s : State) : TakeKeeps s (sinkOut b s) :=
  ⟨⟨⟨rfl, rfl, rfl⟩, rfl, rfl, rfl, rfl, [b], rfl⟩, rfl, rfl⟩

theorem sinkMessage_keeps (b : Byte) (s : State) : TakeKeeps s (sinkMessage b s) :=
  { TakeKeeps.refl s with }

/-- A code byte that opens a block leaves unchanged what its sink does. -/
theorem openBlock_keeps {sink : Byte → State → State} (hsink : ∀ b s, TakeKeeps s (sink b s))
    (rem : Nat) (pz : Bool) (s : State) : TakeKeeps s (openBlock sink rem pz s) := by
  unfold openBlock
  cases s.pz with
  | true => exact { hsink 0x00 s with }
  | false => exact { TakeKeeps.refl s with }

/-- The decoder leaves unchanged what its sink does. -/
theorem takeFramed_keeps {sink : Byte → State → State} (hsink : ∀ b s, TakeKeeps s (sink b s))
    (b : Byte) (s : State) : TakeKeeps s (takeFramed sink b s) := by
  rcases takeFramed_cases sink b s with ⟨-, h⟩ | ⟨-, -, -, h⟩ | ⟨-, -, -, h⟩ | ⟨-, -, h⟩ <;> rw [h]
  · exact TakeKeeps.refl s
  · exact { TakeKeeps.refl s with }
  · exact openBlock_keeps hsink _ _ s
  · exact { hsink b s with }

theorem receive_keeps {take : Byte → State → State} (htake : ∀ b s, TakeKeeps s (take b s))
    (b : Byte) (s : State) : KeepsTransaction s (receive take b s) := by
  rcases receive_cases take b s with ⟨-, h⟩ | ⟨-, -, h⟩ | ⟨-, -, h⟩ <;> rw [h]
  · exact (TakeKeeps.refl s).toKeepsTransaction
  · exact { htake b { s with count := s.count + 1 } with }
  · exact { TakeKeeps.refl s with }

/-- An operation but the reserved ones bounds the `DATA` beats it takes; the others pass them over. -/
theorem commandData_cases (i : Instr) :
    (∃ take, (∀ b s, TakeKeeps s (take b s)) ∧ commandData i = receive take) ∨
      commandData i = fun _ t => t := by
  cases i with
  | fenc => exact .inl ⟨_, takePlain_keeps, rfl⟩
  | fdec => exact .inl ⟨_, takeFramed_keeps sinkOut_keeps, rfl⟩
  | rdecT => exact .inl ⟨_, takeMessage_keeps, rfl⟩
  | rdecM => exact .inl ⟨_, takeMessage_keeps, rfl⟩
  | rxdecT => exact .inl ⟨_, takeFramed_keeps sinkMessage_keeps, rfl⟩
  | rxdecM => exact .inl ⟨_, takeFramed_keeps sinkMessage_keeps, rfl⟩
  | _ => exact .inr rfl

theorem commandData_keeps (i : Instr) (b : Byte) (s : State) :
    KeepsTransaction s (commandData i b s) := by
  obtain ⟨take, htake, h⟩ | h := commandData_cases i <;> rw [h]
  · exact receive_keeps htake b s
  · exact (TakeKeeps.refl s).toKeepsTransaction

theorem commandOpen_keeps (i : Instr) (s : State) : KeepsConstants s (commandOpen i s) := by
  cases i <;> exact ⟨rfl, rfl, rfl⟩

theorem lookupMessage_keeps (s : State) : KeepsConstants s (lookupMessage s) := by
  rcases lookupMessage_cases s with ⟨-, h⟩ | ⟨_, _, _, -, -, h⟩ | ⟨_, _, _, _, -, -, h⟩ <;> rw [h] <;>
    exact ⟨rfl, rfl, rfl⟩

theorem endFramed_keeps {onward : State → State} (hon : ∀ s, KeepsConstants s (onward s))
    (s : State) : KeepsConstants s (endFramed onward s) := by
  rcases endFramed_cases onward s with ⟨-, -, h⟩ | ⟨_, -, h⟩ | ⟨-, -, h⟩ <;> rw [h]
  · exact ⟨rfl, rfl, rfl⟩
  · exact ⟨rfl, rfl, rfl⟩
  · exact hon s

theorem finish_keeps {onEnd : State → State} (hend : ∀ s, KeepsConstants s (onEnd s))
    (s : State) : KeepsConstants s (finish onEnd s) := by
  rcases finish_cases onEnd s with ⟨-, h⟩ | ⟨-, h⟩ <;> rw [h]
  · exact ⟨rfl, rfl, rfl⟩
  · exact hend s

theorem commandEnd_keeps (i : Instr) (s : State) : KeepsConstants s (commandEnd i s) := by
  cases i with
  | fenc => exact finish_keeps (onEnd := endPlain) (fun _ => ⟨rfl, rfl, rfl⟩) s
  | fdec =>
    exact finish_keeps (endFramed_keeps (onward := conclude (.bytes [])) fun _ => ⟨rfl, rfl, rfl⟩) s
  | rdecT => exact finish_keeps lookupMessage_keeps s
  | rdecM => exact finish_keeps lookupMessage_keeps s
  | rxdecT => exact finish_keeps (endFramed_keeps lookupMessage_keeps) s
  | rxdecM => exact finish_keeps (endFramed_keeps lookupMessage_keeps) s
  | _ => exact ⟨rfl, rfl, rfl⟩

/-- Settles O42, by what a step can do: each kind of beat leaves the constants unchanged. -/
theorem noStepWritesTheTables : Obligations.NoStepWritesTheTables := by
  intro s t hstep
  rcases step_cases hstep with ⟨-, -, rfl⟩ | ⟨rest, -, rfl⟩ | ⟨w, rest, -, -, -, rfl⟩ |
    ⟨b, rest, -, -, -, rfl⟩ | ⟨rest, u, -, -, -, rfl, h⟩ | ⟨j, r, -, -, -, rfl⟩
  · exact ⟨rfl, rfl⟩
  · exact ⟨rfl, rfl⟩
  · have h := commandOpen_keeps (decodeCommand w) { s with req := rest }
    exact ⟨h.tables, h.maxLen⟩
  · have h := commandData_keeps (underWay s) b { s with req := rest }
    exact ⟨h.tables, h.maxLen⟩
  · have hend := commandEnd_keeps (underWay s) { s with req := rest }
    obtain ⟨-, rfl⟩ | ⟨j, r, -, -, rfl⟩ := h
    · exact ⟨hend.tables, hend.maxLen⟩
    · exact ⟨hend.tables, hend.maxLen⟩
  · exact ⟨rfl, rfl⟩

end Sys2Proof.Machine
end

section
/-! SUPPORT. Equations for the step by the beat on offer, for the shared operations by the situation they
meet, and for the decoder by its place in a frame (R38, R139). -/

namespace Sys2Proof.Machine

/-! ### The step by the beat on offer -/

theorem step_reset {s : State} {rest : List HostEvent} (hreq : s.req = .reset :: rest) :
    step s = .next (applyReset { s with req := rest }) := by
  simp only [step_eq, hreq]

theorem step_cmd {s : State} {w : Byte} {rest : List HostEvent} (hrest : s.atRest)
    (hreq : s.req = .cmd w :: rest) :
    step s = .next (commandOpen (decodeCommand w) { s with req := rest }) := by
  obtain ⟨hphase, hjob⟩ := hrest
  simp only [step_eq, hreq, hjob, hphase]

theorem step_data {s : State} {b : Byte} {rest : List HostEvent} (hphase : s.phase = .opened)
    (hjob : s.job = none) (hreq : s.req = .data b :: rest) :
    step s = .next (commandData (underWay s) b { s with req := rest }) := by
  simp only [step_eq, hreq, hjob, hphase]

theorem step_end {s : State} {rest : List HostEvent} (hphase : s.phase = .opened)
    (hjob : s.job = none) (hreq : s.req = .endIn :: rest) :
    step s = finishType (.next (commandEnd (underWay s) { s with req := rest })) := by
  simp only [step_eq, hreq, hjob, hphase]

/-- A reserved command word is the operand of RSVD.CMD (R89). -/
theorem decodeCommand_reserved {w : Byte} (h : legalCommand w = false) :
    decodeCommand w = .rsvdCmd w := by
  rcases decodeCommand_cases w with
    ⟨rfl, -⟩ | ⟨rfl, -⟩ | ⟨rfl, -⟩ | ⟨rfl, -⟩ | ⟨rfl, -⟩ | ⟨rfl, -⟩ | ⟨-, hw⟩
  case inr.inr.inr.inr.inr.inr => exact hw
  all_goals exact absurd h (by decide)

/-- A `CMD` beat opens a transaction, whatever its word (R32). -/
theorem commandOpen_phase (w : Byte) (s : State) :
    (commandOpen (decodeCommand w) s).phase = .opened := by
  rcases decodeCommand_cases w with
    ⟨-, h⟩ | ⟨-, h⟩ | ⟨-, h⟩ | ⟨-, h⟩ | ⟨-, h⟩ | ⟨-, h⟩ | ⟨-, h⟩ <;> rw [h] <;> rfl

/-- A `CMD` beat is answered by nothing yet. -/
theorem commandOpen_rsp (i : Instr) (s : State) : (commandOpen i s).rsp = s.rsp := by
  cases i <;> rfl

/-! ### The parts of the operation under way -/

theorem commandData_fenc {s : State} (h : s.op = .fenc) :
    commandData (underWay s) = receive takePlain := by rw [underWay_fenc s h]; rfl

theorem commandEnd_fenc {s : State} (h : s.op = .fenc) :
    commandEnd (underWay s) = finish endPlain := by rw [underWay_fenc s h]; rfl

theorem commandData_fdec {s : State} (h : s.op = .fdec) :
    commandData (underWay s) = receive (takeFramed sinkOut) :=
  commandData_underWay s _ (by rw [h]; rfl)

theorem commandEnd_fdec {s : State} (h : s.op = .fdec) :
    commandEnd (underWay s) = finish (endFramed (conclude (.bytes []))) := by
  rw [underWay_fdec s h]; rfl

theorem commandData_rxdec {s : State} (h : s.op = .rxdec) :
    commandData (underWay s) = receive (takeFramed sinkMessage) :=
  commandData_underWay s _ (by rw [h]; rfl)

/-! ### The bound on the length (R225) -/

theorem receive_take {s : State} (hover : s.overLength = false) (hcount : s.count < s.maxLen)
    (take : Byte → State → State) (b : Byte) :
    receive take b s = take b { s with count := s.count + 1 } := by simp [receive, hover, hcount]

theorem receive_full {s : State} (hover : s.overLength = false) (hcount : ¬s.count < s.maxLen)
    (take : Byte → State → State) (b : Byte) :
    receive take b s = { s with overLength := true } := by simp [receive, hover, hcount]

theorem receive_over {s : State} (hover : s.overLength = true) (take : Byte → State → State)
    (b : Byte) : receive take b s = s := by simp [receive, hover]

theorem finish_within {s : State} (hover : s.overLength = false) (onEnd : State → State) :
    finish onEnd s = onEnd s := by simp [finish, hover]

theorem finish_over {s : State} (hover : s.overLength = true) (onEnd : State → State) :
    finish onEnd s = conclude (.refused .length) s := by simp [finish, hover]

/-! ### The register decoder's answer -/

/-- What the register decoder reports of a message: the outcome of `regDecode` with the type tag and the
selector of the entry found (R90, R92). -/
def regAnswer (tb : Tables) (sel : MapSel) (m : List Byte) : Option (Nibble × Byte × CodecOutcome) :=
  match m with
  | id :: b :: p =>
    match mapLookup tb sel id with
    | none => some (0, 0, .record (.err id (.unknownRegister id)))
    | some e => (typeDecode tb e.type (b :: p)).map fun r =>
        (typeTag e.type, typeSelector e.type, .record (recordOf id e.name r))
  | _ => some (0, 0, .null)

/-- The outcome in the register decoder's answer is `regDecode`'s. -/
theorem regDecode_eq (tb : Tables) (sel : MapSel) (m : List Byte) :
    regDecode tb sel m = (regAnswer tb sel m).map fun a => a.2.2 := by
  match m with
  | [] => rfl
  | [_] => rfl
  | id :: b :: p =>
    cases hlookup : mapLookup tb sel id with
    | none => simp [regDecode, regAnswer, hlookup]
    | some e => simp [regDecode, regAnswer, hlookup, Function.comp_def]

/-- The lookup at `END` and the type decode that follows it in the same step report the register decoder's
answer (R188, R193). -/
theorem finishType_lookupMessage (s : State) :
    finishType (.next (lookupMessage s)) =
      match regAnswer s.tables s.map s.msg with
      | some (tt, bfsel, o) => .next (report tt bfsel o s)
      | none => .refused .malformedTables := by
  rcases lookupMessage_cases s with
    ⟨hshort, h⟩ | ⟨id, b, p, hmsg, hlookup, h⟩ | ⟨id, b, p, e, hmsg, hlookup, h⟩ <;> rw [h]
  · have hanswer : regAnswer s.tables s.map s.msg = some (0, 0, .null) := by
      match s.msg, hshort with
      | [], _ => rfl
      | [_], _ => rfl
    simp only [hanswer, conclude]
    exact finishType_none rfl
  · simp only [regAnswer, hmsg, hlookup]
    exact finishType_none rfl
  · have hanswer : regAnswer s.tables s.map s.msg = (typeDecode s.tables e.type (b :: p)).map
        fun r => (typeTag e.type, typeSelector e.type, .record (recordOf id e.name r)) := by
      simp only [regAnswer, hmsg, hlookup]
    rw [finishType_some rfl, hanswer]
    cases typeDecode s.tables e.type (b :: p) with
    | none => rfl
    | some r => rfl

theorem underWay_reserved {s : State} {w : Byte} (h : s.op = .rsvd w)
    (hw : legalCommand w = false) : underWay s = .rsvdCmd w := by
  rw [underWay_rsvd s w h, decodeCommand_reserved hw]

/-! ### The decoder's place in a frame -/

/-- The decoder's working state (R38), apart from the rest of the block's. -/
structure Cursor where
  err : Option Cause
  rem : Nat
  pz : Bool

/-- Where the decoder of a state stands in its frame. -/
def State.cursor (s : State) : Cursor := ⟨s.err, s.rem, s.pz⟩

/-- A state with its decoder at another place. -/
def State.withCursor (s : State) (c : Cursor) : State :=
  { s with err := c.err, rem := c.rem, pz := c.pz }

/-- The bytes that a byte of the frame makes the decoder sink (R139). -/
def Cursor.sunk (c : Cursor) (b : Byte) : List Byte :=
  if c.err.isSome then []
  else if c.rem = 0 then if b = 0x00 then [] else if c.pz then [0x00] else []
  else [b]

/-- Where a byte of the frame takes the decoder (R139). -/
def Cursor.next (c : Cursor) (b : Byte) : Cursor :=
  if c.err.isSome then c
  else if c.rem = 0 then
    if b = 0x00 then { c with err := some .zeroCode } else ⟨none, runLength b, b != 0xFF⟩
  else { c with rem := c.rem - 1 }

/-- The hard failure that the end of the frame makes known (R212, R139). -/
def Cursor.failure (c : Cursor) : Option Cause :=
  if c.err = none ∧ 0 < c.rem then some .truncated else c.err

@[simp] theorem withCursor_cursor (s : State) (c : Cursor) : (s.withCursor c).cursor = c := rfl
@[simp] theorem withCursor_self (s : State) : s.withCursor s.cursor = s := rfl

/-- The decoder's transition is `sunk` and `next`, for a sink that does not move the decoder. -/
theorem takeFramed_eq {sink : Byte → State → State} {sinkAll : List Byte → State → State}
    (hnil : ∀ s, sinkAll [] s = s) (hone : ∀ b s, sinkAll [b] s = sink b s)
    (hcursor : ∀ b s, (sink b s).cursor = s.cursor) (b : Byte) (s : State) :
    takeFramed sink b s = (sinkAll (s.cursor.sunk b) s).withCursor (s.cursor.next b) := by
  have hcursor' := fun b s => Cursor.mk.inj (hcursor b s)
  rcases takeFramed_cases sink b s with
    ⟨herr, h⟩ | ⟨herr, hrem, rfl, h⟩ | ⟨herr, hrem, hb, h⟩ | ⟨herr, hrem, h⟩ <;> rw [h]
  · have hfailed : s.cursor.err.isSome := Option.isSome_iff_ne_none.2 herr
    rw [Cursor.sunk, Cursor.next, if_pos hfailed, if_pos hfailed, hnil, withCursor_self]
  · simp [State.cursor, Cursor.sunk, Cursor.next, herr, hrem, hnil, State.withCursor, illegalBlock]
  · have hb : ¬b = 0#8 := hb
    cases hpz : s.pz <;>
      simp [State.cursor, Cursor.sunk, Cursor.next, herr, hrem, hb, hnil, hone, State.withCursor,
        openBlock, hpz, hcursor']
  · simp [State.cursor, Cursor.sunk, Cursor.next, herr, hrem.ne', hone, State.withCursor,
      takeBlockData, hcursor']

/-- FDEC sinks into `OUT` beats. -/
theorem takeFramed_sinkOut (b : Byte) (s : State) :
    takeFramed sinkOut b s = (emitOut (s.cursor.sunk b) s).withCursor (s.cursor.next b) :=
  takeFramed_eq (fun s => by simp [emitOut]) (fun _ _ => rfl) (fun _ _ => rfl) b s

/-- RXDEC sinks into the message. -/
theorem takeFramed_sinkMessage (b : Byte) (s : State) :
    takeFramed sinkMessage b s =
      { s with msg := s.msg ++ s.cursor.sunk b }.withCursor (s.cursor.next b) :=
  takeFramed_eq (sinkAll := fun bs s => { s with msg := s.msg ++ bs }) (fun s => by simp)
    (fun _ _ => rfl) (fun _ _ => rfl) b s

/-- `END` at the decoder answers the hard failure, or goes onward. -/
theorem endFramed_eq (onward : State → State) (s : State) :
    endFramed onward s =
      match s.cursor.failure with
      | some c => conclude (.hardFail c) { s with err := some c }
      | none => onward s := by
  rcases endFramed_cases onward s with ⟨herr, hrem, h⟩ | ⟨c, herr, h⟩ | ⟨herr, hrem, h⟩ <;> rw [h]
  · have hfailure : s.cursor.failure = some .truncated := if_pos ⟨herr, hrem⟩
    rw [hfailure]
  · have hfailure : s.cursor.failure = some c := by simp [State.cursor, Cursor.failure, herr]
    have hsame : { s with err := some c } = s := by rw [← herr]
    simp only [hfailure, hsame]
  · have hfailure : s.cursor.failure = none := by simp [State.cursor, Cursor.failure, herr, hrem]
    rw [hfailure]

end Sys2Proof.Machine
end

section
/-! SUPPORT. Two instances that differ in their stale working state alone (R40): a relation that says which
cells of the working state an operation reads, and that every step keeps. -/

namespace Sys2Proof.Machine

/-! ### The relation -/

/-- Two states agree on the working state that an operation has initialised and reads (R37 to R39). An
operation refused for its command word reads none, its word being reserved (R89). -/
structure SameWorking (op : Op) (s t : State) : Prop where
  encoder : op = .fenc → s.run = t.run ∧ s.afterFull = t.afterFull
  decoder : op = .fdec ∨ op = .rxdec → s.cursor = t.cursor
  message : op = .rdec ∨ op = .rxdec → s.msg = t.msg
  reserved : ∀ w, op = .rsvd w → legalCommand w = false

/-- Two states are in the same place of the same transaction. -/
structure SameTransaction (s t : State) : Prop where
  op : s.op = t.op
  map : s.map = t.map
  count : s.count = t.count
  overLength : s.overLength = t.overLength
  working : SameWorking s.op s t

/-- Two instances have the same constants and the same beats on offer, stand in the same phase, and have
sent the same since their responses were `sent₁` and `sent₂`. -/
structure Matched (sent₁ sent₂ : List RspEvent) (s t : State) : Prop where
  tables : s.tables = t.tables
  maxLen : s.maxLen = t.maxLen
  phase : s.phase = t.phase
  req : s.req = t.req
  job : s.job = t.job
  sent : ∃ new, s.rsp = sent₁ ++ new ∧ t.rsp = sent₂ ++ new

/-- Matched instances that agree on their transaction, where one is open. -/
structure Alike (sent₁ sent₂ : List RspEvent) (s t : State) : Prop
    extends Matched sent₁ sent₂ s t where
  transaction : s.phase = .opened → SameTransaction s t

/-- Two outcomes of a step: alike next states, or the same refusal. -/
def AlikeOutcomes (sent₁ sent₂ : List RspEvent) :
    Host.Outcome State Fault Refusal → Host.Outcome State Fault Refusal → Prop
  | .next s, .next t => Alike sent₁ sent₂ s t
  | .refused r, .refused r' => r = r'
  | _, _ => False

section
variable {sent₁ sent₂ : List RspEvent} {s t : State}

theorem AlikeOutcomes.next_or_refused {a b : Host.Outcome State Fault Refusal}
    (h : AlikeOutcomes sent₁ sent₂ a b) :
    (∃ s t, a = .next s ∧ b = .next t ∧ Alike sent₁ sent₂ s t) ∨
      ∃ r, a = .refused r ∧ b = .refused r := by
  match a, b, h with
  | .next s, .next t, h => exact .inl ⟨s, t, rfl, rfl, h⟩
  | .refused r, .refused _, rfl => exact .inr ⟨r, rfl, rfl⟩

/-! ### What keeps it -/

/-- Equal additions to the responses are equal responses since the start. -/
theorem sent_append (h : ∃ new, s.rsp = sent₁ ++ new ∧ t.rsp = sent₂ ++ new)
    (more : List RspEvent) :
    ∃ new, s.rsp ++ more = sent₁ ++ new ∧ t.rsp ++ more = sent₂ ++ new := by
  obtain ⟨new, hs, ht⟩ := h
  exact ⟨new ++ more, by simp [hs], by simp [ht]⟩

/-- After the same report, nothing of the working state is live. -/
theorem Matched.report (h : Matched sent₁ sent₂ s t) (tt : Nibble) (bfsel : Byte)
    (o : CodecOutcome) : Alike sent₁ sent₂ (report tt bfsel o s) (report tt bfsel o t) where
  tables := h.tables
  maxLen := h.maxLen
  phase := rfl
  req := h.req
  job := rfl
  sent := by
    simpa only [report_rsp, List.append_assoc] using sent_append h.sent _
  transaction := nofun

theorem Matched.report_outcomes (h : Matched sent₁ sent₂ s t) (tt : Nibble) (bfsel : Byte)
    (o : CodecOutcome) :
    AlikeOutcomes sent₁ sent₂ (finishType (.next (Machine.report tt bfsel o s)))
      (finishType (.next (Machine.report tt bfsel o t))) := by
  rw [finishType_none rfl, finishType_none rfl]
  exact h.report tt bfsel o

theorem Matched.reset (h : Matched sent₁ sent₂ s t) :
    Alike sent₁ sent₂ (applyReset s) (applyReset t) where
  tables := h.tables
  maxLen := h.maxLen
  phase := rfl
  req := h.req
  job := rfl
  sent := sent_append h.sent _
  transaction := nofun

theorem Matched.withReq (h : Matched sent₁ sent₂ s t) (req : List HostEvent) :
    Matched sent₁ sent₂ { s with req } { t with req } := { h with req := rfl }

theorem Alike.withReq (h : Alike sent₁ sent₂ s t) (req : List HostEvent) :
    Alike sent₁ sent₂ { s with req } { t with req } :=
  { h.toMatched.withReq req with transaction := fun hp =>
    { h.transaction hp with working := { (h.transaction hp).working with } } }

/-- Opening a transaction initialises the working state that its operation reads (R37 to R39). -/
theorem commandOpen_sameWorking (w : Byte) (s t : State) :
    SameWorking (commandOpen (decodeCommand w) s).op (commandOpen (decodeCommand w) s)
      (commandOpen (decodeCommand w) t) := by
  rcases decodeCommand_cases w with
    ⟨-, hw⟩ | ⟨-, hw⟩ | ⟨-, hw⟩ | ⟨-, hw⟩ | ⟨-, hw⟩ | ⟨-, hw⟩ | ⟨hres, hw⟩ <;> rw [hw]
  case inr.inr.inr.inr.inr.inr =>
    exact ⟨nofun, by simp [commandOpen], by simp [commandOpen], fun _ hop => Op.rsvd.inj hop ▸ hres⟩
  all_goals constructor <;> simp [commandOpen, State.cursor]

/-- Opening a transaction leaves nothing of the state before it but the constants. -/
theorem commandOpen_sameTransaction (w : Byte) (s t : State) :
    SameTransaction (commandOpen (decodeCommand w) s) (commandOpen (decodeCommand w) t) := by
  have hwork := commandOpen_sameWorking w s t
  rcases decodeCommand_cases w with
    ⟨-, hw⟩ | ⟨-, hw⟩ | ⟨-, hw⟩ | ⟨-, hw⟩ | ⟨-, hw⟩ | ⟨-, hw⟩ | ⟨-, hw⟩ <;> rw [hw] at hwork ⊢ <;>
    exact ⟨rfl, rfl, rfl, rfl, hwork⟩

theorem Matched.commandOpen (h : Matched sent₁ sent₂ s t) (w : Byte) :
    Alike sent₁ sent₂ (commandOpen (decodeCommand w) s) (commandOpen (decodeCommand w) t) := by
  have hs := commandOpen_keeps (decodeCommand w) s
  have ht := commandOpen_keeps (decodeCommand w) t
  exact {
    tables := by rw [hs.tables, ht.tables, h.tables]
    maxLen := by rw [hs.maxLen, ht.maxLen, h.maxLen]
    phase := by rw [commandOpen_phase, commandOpen_phase]
    req := by rw [hs.req, ht.req, h.req]
    job := by rw [commandOpen_job, commandOpen_job, h.job]
    sent := by simpa only [commandOpen_rsp] using h.sent
    transaction := fun _ => commandOpen_sameTransaction w s t }

/-- What an operation makes of a byte depends on nothing but the working state it reads. -/
def TakesAlike (op : Op) (take : Byte → State → State) : Prop :=
  ∀ b s t, SameWorking op s t → SameWorking op (take b s) (take b t) ∧
    ∃ new, (take b s).rsp = s.rsp ++ new ∧ (take b t).rsp = t.rsp ++ new

theorem takePlain_alike : TakesAlike .fenc takePlain := by
  intro b s t h
  obtain ⟨hrun, -⟩ := h.encoder rfl
  rw [takePlain, takePlain, hrun]
  exact ⟨{ h with encoder := fun _ => ⟨rfl, rfl⟩ }, _, rfl, rfl⟩

theorem takeMessage_alike : TakesAlike .rdec takeMessage := by
  intro b s t h
  exact ⟨{ h with message := fun hop => congrArg (· ++ [b]) (h.message hop) }, [], by simp⟩

theorem takeFramed_sinkOut_alike : TakesAlike .fdec (takeFramed sinkOut) := by
  intro b s t h
  rw [takeFramed_sinkOut, takeFramed_sinkOut, h.decoder (.inl rfl)]
  exact ⟨{ h with decoder := fun _ => rfl }, _, rfl, rfl⟩

theorem takeFramed_sinkMessage_alike : TakesAlike .rxdec (takeFramed sinkMessage) := by
  intro b s t h
  rw [takeFramed_sinkMessage, takeFramed_sinkMessage, h.decoder (.inr rfl), h.message (.inr rfl)]
  exact ⟨{ h with decoder := fun _ => rfl, message := fun _ => rfl }, [],
    by simp [State.withCursor]⟩

/-- A byte taken alike leaves alike instances alike. -/
theorem Alike.take {take : Byte → State → State} (h : Alike sent₁ sent₂ s t)
    (hopen : s.phase = .opened) (hkeeps : ∀ b s, TakeKeeps s (take b s))
    (halike : TakesAlike s.op take) (b : Byte) : Alike sent₁ sent₂ (take b s) (take b t) := by
  have hs := hkeeps b s
  have ht := hkeeps b t
  have htr := h.transaction hopen
  obtain ⟨hwork, new, hsent, hsent'⟩ := halike b s t htr.working
  exact {
    tables := by rw [hs.tables, ht.tables, h.tables]
    maxLen := by rw [hs.maxLen, ht.maxLen, h.maxLen]
    phase := by rw [hs.phase, ht.phase, h.phase]
    req := by rw [hs.req, ht.req, h.req]
    job := by rw [hs.job, ht.job, h.job]
    sent := by rw [hsent, hsent']; exact sent_append h.sent new
    transaction := fun _ => {
      op := by rw [hs.op, ht.op, htr.op]
      map := by rw [hs.map, ht.map, htr.map]
      count := by rw [hs.count, ht.count, htr.count]
      overLength := by rw [hs.overLength, ht.overLength, htr.overLength]
      working := by rw [hs.op]; exact hwork } }

/-- The bound on the length is the same for alike instances. -/
theorem Alike.receive {take : Byte → State → State} (h : Alike sent₁ sent₂ s t)
    (hopen : s.phase = .opened) (hkeeps : ∀ b s, TakeKeeps s (take b s))
    (halike : TakesAlike s.op take) (b : Byte) :
    Alike sent₁ sent₂ (receive take b s) (receive take b t) := by
  have htr := h.transaction hopen
  cases hover : s.overLength with
  | true => rwa [receive_over hover, receive_over (htr.overLength ▸ hover)]
  | false =>
    by_cases hcount : s.count < s.maxLen
    · rw [receive_take hover hcount,
        receive_take (htr.overLength ▸ hover) (htr.count ▸ h.maxLen ▸ hcount), ← htr.count]
      have hcounted : Alike sent₁ sent₂ { s with count := s.count + 1 }
          { t with count := s.count + 1 } :=
        { h with transaction := fun _ => 
          { htr with count := rfl, working := { htr.working with } } }
      exact hcounted.take hopen hkeeps halike b
    · rw [receive_full hover hcount,
        receive_full (htr.overLength ▸ hover) (htr.count ▸ h.maxLen ▸ hcount)]
      exact { h with transaction := fun _ => 
        { htr with overLength := rfl, working := { htr.working with } } }

/-- A `DATA` beat leaves alike instances alike. -/
theorem Alike.commandData (h : Alike sent₁ sent₂ s t) (hopen : s.phase = .opened) (b : Byte) :
    Alike sent₁ sent₂ (commandData (underWay s) b s) (commandData (underWay t) b t) := by
  have htr := h.transaction hopen
  have hunder : underWay t = underWay s := by rw [underWay, underWay, htr.op, htr.map]
  rw [hunder]
  cases hop : s.op with
  | fenc =>
    rw [commandData_fenc hop]
    exact h.receive hopen takePlain_keeps (hop ▸ takePlain_alike) b
  | fdec =>
    rw [commandData_fdec hop]
    exact h.receive hopen (takeFramed_keeps sinkOut_keeps) (hop ▸ takeFramed_sinkOut_alike) b
  | rdec =>
    rw [commandData_rdec s hop]
    exact h.receive hopen takeMessage_keeps (hop ▸ takeMessage_alike) b
  | rxdec =>
    rw [commandData_rxdec hop]
    exact h.receive hopen (takeFramed_keeps sinkMessage_keeps)
      (hop ▸ takeFramed_sinkMessage_alike) b
  | rsvd w => rwa [underWay_reserved hop (htr.working.reserved w hop)]

/-- The lookup at `END` reports the same for the same message. -/
theorem Matched.lookupMessage (h : Matched sent₁ sent₂ s t) (hmap : s.map = t.map)
    (hmsg : s.msg = t.msg) :
    AlikeOutcomes sent₁ sent₂ (finishType (.next (lookupMessage s)))
      (finishType (.next (lookupMessage t))) := by
  rw [finishType_lookupMessage, finishType_lookupMessage, h.tables, hmap, hmsg]
  cases regAnswer t.tables t.map t.msg with
  | none => rfl
  | some a => exact h.report _ _ _

/-- The decoder's `END` reports the same hard failure, or goes onward alike. -/
theorem Matched.endFramed {onward : State → State} (h : Matched sent₁ sent₂ s t)
    (hcursor : s.cursor = t.cursor)
    (honward : AlikeOutcomes sent₁ sent₂ (finishType (.next (onward s)))
      (finishType (.next (onward t)))) :
    AlikeOutcomes sent₁ sent₂ (finishType (.next (endFramed onward s)))
      (finishType (.next (endFramed onward t))) := by
  rw [endFramed_eq, endFramed_eq, hcursor]
  cases t.cursor.failure with
  | none => exact honward
  | some c =>
    have hfailed : Matched sent₁ sent₂ { s with err := some c } { t with err := some c } :=
      { h with }
    exact hfailed.report_outcomes 0 0 (.hardFail c)

/-- A transaction over the length bound is refused alike. -/
theorem Alike.finish {onEnd : State → State} (h : Alike sent₁ sent₂ s t)
    (hopen : s.phase = .opened)
    (hend : AlikeOutcomes sent₁ sent₂ (finishType (.next (onEnd s)))
      (finishType (.next (onEnd t)))) :
    AlikeOutcomes sent₁ sent₂ (finishType (.next (finish onEnd s)))
      (finishType (.next (finish onEnd t))) := by
  have htr := h.transaction hopen
  cases hover : s.overLength with
  | true =>
    rw [finish_over hover, finish_over (htr.overLength ▸ hover)]
    exact h.report_outcomes 0 0 (.refused .length)
  | false => rwa [finish_within hover, finish_within (htr.overLength ▸ hover)]

/-- `END` is answered alike. -/
theorem Alike.commandEnd (h : Alike sent₁ sent₂ s t) (hopen : s.phase = .opened) :
    AlikeOutcomes sent₁ sent₂ (finishType (.next (commandEnd (underWay s) s)))
      (finishType (.next (commandEnd (underWay t) t))) := by
  have htr := h.transaction hopen
  have hwork := htr.working
  have hunder : underWay t = underWay s := by rw [underWay, underWay, htr.op, htr.map]
  rw [hunder]
  cases hop : s.op with
  | fenc =>
    obtain ⟨hrun, hfull⟩ := hwork.encoder hop
    rw [commandEnd_fenc hop]
    have hemitted : Matched sent₁ sent₂ (emitOut (encodeEnd s.run s.afterFull) s)
        (emitOut (encodeEnd s.run s.afterFull) t) := { h with sent := sent_append h.sent _ }
    refine h.finish hopen ?_
    rw [endPlain, endPlain, ← hrun, ← hfull]
    exact hemitted.report_outcomes 0 0 (.bytes [])
  | fdec =>
    rw [commandEnd_fdec hop]
    exact h.finish hopen (h.endFramed (hwork.decoder (.inl hop)) (h.report_outcomes 0 0 (.bytes [])))
  | rdec =>
    rw [commandEnd_rdec s hop]
    exact h.finish hopen (h.lookupMessage htr.map (hwork.message (.inl hop)))
  | rxdec =>
    rw [commandEnd_rxdec s hop]
    exact h.finish hopen (h.endFramed (hwork.decoder (.inr hop))
      (h.lookupMessage htr.map (hwork.message (.inr hop))))
  | rsvd w =>
    rw [underWay_reserved hop (hwork.reserved w hop)]
    exact h.report_outcomes 0 0 (.refused .cmd)

/-! ### Every step keeps it -/

/-- One step takes alike instances to alike outcomes, whichever beat is on offer. -/
theorem Alike.step (h : Alike sent₁ sent₂ s t) :
    AlikeOutcomes sent₁ sent₂ (step s) (step t) := by
  have hreq := h.req
  have hjob := h.job
  have hphase := h.phase
  match hr : s.req, hj : s.job, hp : s.phase with
  | .reset :: rest, _, _ =>
    rw [step_reset hr, step_reset (hreq ▸ hr)]
    exact (h.withReq rest).reset
  | .cmd w :: rest, none, .idle =>
    rw [step_cmd ⟨hp, hj⟩ hr, step_cmd ⟨hphase ▸ hp, hjob ▸ hj⟩ (hreq ▸ hr)]
    exact (h.withReq rest).commandOpen w
  | .data b :: rest, none, .opened =>
    rw [step_data hp hj hr, step_data (hphase ▸ hp) (hjob ▸ hj) (hreq ▸ hr)]
    exact (h.withReq rest).commandData hp b
  | .endIn :: rest, none, .opened =>
    rw [step_end hp hj hr, step_end (hphase ▸ hp) (hjob ▸ hj) (hreq ▸ hr)]
    exact (h.withReq rest).commandEnd hp
  | [], none, _ =>
    simp only [step_eq, ← hreq, ← hjob, hr, hj]
    exact h
  | [], some j, _ =>
    simp only [step_eq, ← hreq, ← hjob, hr, hj, ← h.tables]
    cases typeDecode s.tables j.entry.type j.payload with
    | none => rfl
    | some r => exact h.report _ _ _
  | .data _ :: _, some _, _ => simp [step_eq, ← hreq, ← hjob, hr, hj, AlikeOutcomes]
  | .endIn :: _, some _, _ => simp [step_eq, ← hreq, ← hjob, hr, hj, AlikeOutcomes]
  | .cmd _ :: _, some _, _ => simp [step_eq, ← hreq, ← hjob, hr, hj, AlikeOutcomes]
  | .cmd _ :: _, none, .opened =>
    simp [step_eq, ← hreq, ← hjob, ← hphase, hr, hj, hp, AlikeOutcomes]
  | .data _ :: _, none, .idle =>
    simp [step_eq, ← hreq, ← hjob, ← hphase, hr, hj, hp, AlikeOutcomes]
  | .endIn :: _, none, .idle =>
    simp [step_eq, ← hreq, ← hjob, ← hphase, hr, hj, hp, AlikeOutcomes]

end

/-- Any number of steps takes alike instances to alike outcomes. -/
theorem Alike.steps {sent₁ sent₂ : List RspEvent} {s t : State} (h : Alike sent₁ sent₂ s t)
    (k : Nat) : AlikeOutcomes sent₁ sent₂ (steps k s) (steps k t) := by
  induction k generalizing s t with
  | zero => exact h
  | succ k ih =>
    rw [Machine.steps, Machine.steps]
    rcases h.step.next_or_refused with ⟨s', t', hs, ht, h'⟩ | ⟨r, hs, ht⟩ <;> rw [hs, ht]
    · exact ih h'
    · rfl

/-- Instances at rest with the same constants and beats on offer are alike, whatever their working
state. -/
theorem alike_of_atRest {s t : State} (hs : s.atRest) (ht : t.atRest)
    (htables : s.tables = t.tables) (hmaxLen : s.maxLen = t.maxLen) (hreq : s.req = t.req) :
    Alike s.rsp t.rsp s t := by
  obtain ⟨hidle, hjob⟩ := hs
  obtain ⟨hidle', hjob'⟩ := ht
  exact {
    tables := htables, maxLen := hmaxLen, phase := by rw [hidle, hidle'], req := hreq
    job := by rw [hjob, hjob'], sent := ⟨[], by simp⟩
    transaction := fun hopen => absurd (hidle ▸ hopen) (by decide) }

/-- Settles O52: `Alike` holds at rest, and every step keeps it. -/
theorem responsesIgnoreTheStaleWorkingState : Obligations.ResponsesIgnoreTheStaleWorkingState := by
  intro s₁ s₂ k hrest₁ hrest₂ htables hmaxLen hreq
  have h := (alike_of_atRest hrest₁ hrest₂ htables hmaxLen hreq).steps k
  rcases h.next_or_refused with ⟨t₁, t₂, hs₁, hs₂, h'⟩ | ⟨r, hs₁, hs₂⟩ <;> simp only [hs₁, hs₂]
  exact ⟨h'.phase, h'.req, h'.job, h'.sent⟩

end Sys2Proof.Machine
end

section
/-! SUPPORT. What the host reads from a `DONE` beat is what the block packed into it (R90 to R93), for the
values and errors that a type decode gives. -/

namespace Sys2Proof.Machine

/-! ### Integers -/

theorem leNat_lt (bs : List Byte) : leNat bs < 256 ^ bs.length := by
  induction bs with
  | nil => simp [leNat]
  | cons b bs ih =>
    have hb := b.isLt
    rw [leNat, List.length_cons, pow_succ]
    omega

/-- A read of `w` bytes is an integer of `w` bytes (R53). -/
theorem memRead_lt (p : List Byte) (a w : Nat) : memRead p a w < 256 ^ w :=
  (leNat_lt _).trans_le (Nat.pow_le_pow_right (by decide) (List.length_take_le w _))

/-- `VALUE` holds an unsigned integer below 2^32. -/
theorem toNat_ofInt_natCast {u : Nat} (h : u < 2 ^ 32) :
    (BitVec.ofInt 32 (u : Int)).toNat = u := by
  rw [BitVec.ofInt_natCast, BitVec.toNat_ofNat, Nat.mod_eq_of_lt h]

/-- `VALUE` holds a sign-extended `int16` (R93). -/
theorem toInt_ofInt_signed16 {u : Nat} (h : u < 2 ^ 16) :
    (BitVec.ofInt 32 (signed16 u)).toInt = signed16 u := by
  have hrange : -2 ^ 15 ≤ signed16 u ∧ signed16 u < 2 ^ 15 := by
    unfold signed16
    split <;> omega
  rw [BitVec.toInt_ofInt, Int.bmod_eq_of_le] <;> omega

/-! ### Flags -/

/-- Packing flags read at consecutive bit positions gives those bits of the integer. -/
theorem packFlags_zipIdx (flags : List Ident) (u start : Nat) :
    packFlags ((flags.zipIdx start).map fun f => (f.1, (u >>> f.2) % 2 == 1)) =
      (u >>> start) % 2 ^ flags.length := by
  induction flags generalizing start with
  | nil => simp [packFlags, Nat.mod_one]
  | cons f flags ih =>
    have hbit : ((u >>> start) % 2 == 1).toNat = (u >>> start) % 2 := by
      rcases Nat.mod_two_eq_zero_or_one (u >>> start) with h | h <;> simp [h]
    rw [List.zipIdx_cons, List.map_cons, packFlags, ih, hbit, List.length_cons, pow_succ',
      Nat.mod_mul, Nat.shiftRight_succ]

theorem packFlags_flagValues (flags : List Ident) (u : Nat) :
    packFlags (flagValues flags u) = u % 2 ^ flags.length := by
  exact packFlags_zipIdx flags u 0

/-- The bits above the flags are not read (R85). -/
theorem flagValues_mod (flags : List Ident) (u : Nat) :
    flagValues flags (u % 2 ^ flags.length) = flagValues flags u := by
  refine List.map_congr_left fun f hf => ?_
  have hlt : f.2 < flags.length := by simpa using List.snd_lt_of_mem_zipIdx hf
  have hbit := Nat.testBit_mod_two_pow u flags.length f.2
  simp only [hlt, decide_true, Bool.true_and, Nat.testBit_eq_decide_div_mod_eq] at hbit
  simpa [Nat.shiftRight_eq_div_pow, beq_eq_decide] using hbit

/-- A bitfield type that a selector names has at most 32 flags (R28). -/
theorem bfLookup_length_le {tb : Tables} {sel : Byte} {flags : List Ident}
    (h : bfLookup tb sel = some flags) : flags.length ≤ 32 := by
  obtain ⟨b, -, hwf, rfl⟩ := (bfLookup_eq_some tb sel flags).1 h
  simp only [BitfieldType.wf, Bool.and_eq_true, decide_eq_true_eq] at hwf
  exact hwf.1

/-- `VALUE` holds the flags of a bitfield type (R93). -/
theorem flagValues_packFlags {flags : List Ident} (h : flags.length ≤ 32) (u : Nat) :
    flagValues flags (BitVec.ofNat 32 (packFlags (flagValues flags u))).toNat =
      flagValues flags u := by
  have hlt : u % 2 ^ flags.length < 2 ^ 32 :=
    (Nat.mod_lt _ (by positivity)).trans_le (Nat.pow_le_pow_right (by decide) h)
  rw [packFlags_flagValues, BitVec.toNat_ofNat, Nat.mod_eq_of_lt hlt, flagValues_mod]

/-! ### Type decodes -/

theorem fixedWidth_ok {w : Nat} {value : Nat → Value} {p : List Byte} {v : Value}
    (h : fixedWidth w value p = .ok v) : v = value (memRead p 0 w) := by
  rcases fixedWidth_cases w value p with ⟨-, hw⟩ | ⟨-, hw⟩ <;> rw [hw] at h
  · exact absurd h nofun
  · exact (Except.ok.inj h).symm

theorem fixedWidth_error {w : Nat} {value : Nat → Value} {p : List Byte} {e : SoftError}
    (h : fixedWidth w value p = .error e) : e = .shortPayload w := by
  rcases fixedWidth_cases w value p with ⟨-, hw⟩ | ⟨-, hw⟩ <;> rw [hw] at h
  · exact (Except.error.inj h).symm
  · exact absurd h nofun

/-- An unsigned integer is recovered under each of its three tags (R93). -/
theorem unpackValue_unsigned {tt : Nibble} (htt : tt = 0x0 ∨ tt = 0x1 ∨ tt = 0x3) {u : Nat}
    (hu : u < 2 ^ 32) (tb : Tables) (bfsel : Byte) (outs : List Byte) :
    unpackValue tb tt bfsel (packValue (.num u)) outs = some (.num u) := by
  rw [unpackValue, if_pos htt, packValue, toNat_ofInt_natCast hu]

/-- The host recovers the value of a type decode from the fields and the `OUT` bytes (R93). -/
theorem unpackValue_packValue {tb : Tables} {t : TypeRef} {p : List Byte} {v : Value}
    (h : typeDecode tb t p = some (.ok v)) (reg : Byte) (name : Ident) :
    unpackValue tb (typeTag t) (typeSelector t) (packValue v)
      (reportBytes (.record (.ok reg name v))) = some v := by
  match t with
  | .scalar .uint8 =>
    rw [fixedWidth_ok (Option.some.inj h)]
    exact unpackValue_unsigned (by decide) ((memRead_lt p 0 _).trans (by decide)) _ _ _
  | .scalar .uint16 =>
    rw [fixedWidth_ok (Option.some.inj h)]
    exact unpackValue_unsigned (by decide) ((memRead_lt p 0 _).trans (by decide)) _ _ _
  | .scalar .uint32 =>
    rw [fixedWidth_ok (Option.some.inj h)]
    exact unpackValue_unsigned (by decide) ((memRead_lt p 0 _).trans_le (by decide)) _ _ _
  | .scalar .int16 =>
    rw [fixedWidth_ok (Option.some.inj h)]
    exact congrArg (fun i => some (Value.num i))
      (toInt_ofInt_signed16 ((memRead_lt p 0 _).trans_le (by decide)))
  | .scalar .float32 =>
    rw [fixedWidth_ok (Option.some.inj h)]
    rfl
  | .bitfield sel =>
    obtain ⟨flags, hflags, hv⟩ := Option.map_eq_some_iff.1 h
    rw [fixedWidth_ok hv]
    have hvalue := flagValues_packFlags (bfLookup_length_le hflags)
      (memRead p 0 (flagBytes flags.length))
    simp [unpackValue, typeTag, typeSelector, packValue, hflags, hvalue, -BitVec.toNat_ofNat]
  | .unknown tag =>
    rw [← Except.ok.inj (Option.some.inj h)]
    rfl

/-- A type decode fails on a short payload alone, and its required count fits the `INFO` field (R90). -/
theorem typeDecode_error {tb : Tables} {t : TypeRef} {p : List Byte} {e : SoftError}
    (h : typeDecode tb t p = some (.error e)) : ∃ w < 256, e = .shortPayload w := by
  match t with
  | .scalar .uint8 => exact ⟨_, by decide, fixedWidth_error (Option.some.inj h)⟩
  | .scalar .uint16 => exact ⟨_, by decide, fixedWidth_error (Option.some.inj h)⟩
  | .scalar .int16 => exact ⟨_, by decide, fixedWidth_error (Option.some.inj h)⟩
  | .scalar .uint32 => exact ⟨_, by decide, fixedWidth_error (Option.some.inj h)⟩
  | .scalar .float32 => exact ⟨_, by decide, fixedWidth_error (Option.some.inj h)⟩
  | .unknown _ => exact absurd (Option.some.inj h) nofun
  | .bitfield sel =>
    obtain ⟨flags, hflags, he⟩ := Option.map_eq_some_iff.1 h
    have hlength := bfLookup_length_le hflags
    exact ⟨_, by unfold flagBytes; omega, fixedWidth_error he⟩

/-! ### Outcomes -/

/-- The host reads an outcome without a value, whatever void `OUT` bytes came before (R91, R218). -/
theorem unpackDone_hardFail (tb : Tables) (outs : List Byte) (c : Cause) :
    unpackDone tb outs (packDone 0 0 (.hardFail c)) = some (.hardFail c) := by
  cases c <;> rfl

theorem unpackDone_refused (tb : Tables) (outs : List Byte) (why : RefusedWhy) :
    unpackDone tb outs (packDone 0 0 (.refused why)) = some (.refused why) := by
  cases why <;> rfl

/-- The host reads the register decoder's answer from its report (R90 to R93). -/
theorem unpackDone_regAnswer {tb : Tables} {sel : MapSel} {m : List Byte} {tt : Nibble}
    {bfsel : Byte} {o : CodecOutcome} (h : regAnswer tb sel m = some (tt, bfsel, o)) :
    unpackDone tb (reportBytes o) (packDone tt bfsel o) = some o := by
  match m with
  | [] => cases h; rfl
  | [_] => cases h; rfl
  | id :: b :: p =>
    cases hlookup : mapLookup tb sel id with
    | none =>
      simp only [regAnswer, hlookup] at h
      cases h
      rfl
    | some e =>
      simp only [regAnswer, hlookup] at h
      obtain ⟨r, hr, heq⟩ := Option.map_eq_some_iff.1 h
      cases heq
      cases r with
      | ok v => simp [unpackDone, packDone, recordOf, unpackValue_packValue hr]
      | error err =>
        obtain ⟨w, hw, rfl⟩ := typeDecode_error hr
        simp [unpackDone, packDone, recordOf, Nat.mod_eq_of_lt hw]

end Sys2Proof.Machine
end

section
/-! SUPPORT. `Dec` (R131) takes a block at a time, the beats of R139 a byte: the decoder's function from the
middle of a frame, and that from the start it is `Dec`. -/

namespace Sys2Proof.Machine

/-- What the decoder makes of the rest of a frame from its place in it: the bytes it sinks, or the hard
failure that `END` reports (R139). -/
def Cursor.decode : Cursor → List Byte → Except Cause (List Byte)
  | c, [] =>
    match c.failure with
    | some cause => .error cause
    | none => .ok []
  | c, b :: x => ((c.next b).decode x).map (c.sunk b ++ ·)

/-- The decoder's place at the start of a frame (R38). -/
def Cursor.start : Cursor := ⟨none, 0, false⟩

/-- The rest of a frame that decodes from a place decodes from the next, to what is sunk later. -/
theorem Cursor.decode_cons_ok {c : Cursor} {b : Byte} {x out : List Byte}
    (h : c.decode (b :: x) = .ok out) :
    ∃ later, (c.next b).decode x = .ok later ∧ out = c.sunk b ++ later := by
  rw [Cursor.decode] at h
  cases hx : (c.next b).decode x with
  | error cause => rw [hx] at h; exact absurd h nofun
  | ok later => rw [hx] at h; exact ⟨later, rfl, (Except.ok.inj h).symm⟩

theorem Cursor.decode_cons_error {c : Cursor} {b : Byte} {x : List Byte} {cause : Cause}
    (h : c.decode (b :: x) = .error cause) : (c.next b).decode x = .error cause := by
  rw [Cursor.decode] at h
  cases hx : (c.next b).decode x with
  | error cause' => rw [hx] at h; rw [Except.error.inj h]
  | ok later => rw [hx] at h; exact absurd h nofun

theorem Cursor.decode_nil_ok {c : Cursor} {out : List Byte} (h : c.decode [] = .ok out) :
    c.failure = none ∧ out = [] := by
  rw [Cursor.decode] at h
  cases hfailure : c.failure with
  | some cause => rw [hfailure] at h; exact absurd h nofun
  | none => rw [hfailure] at h; exact ⟨rfl, (Except.ok.inj h).symm⟩

theorem Cursor.decode_nil_error {c : Cursor} {cause : Cause} (h : c.decode [] = .error cause) :
    c.failure = some cause := by
  rw [Cursor.decode] at h
  cases hfailure : c.failure with
  | some cause' => rw [hfailure] at h; rw [Except.error.inj h]
  | none => rw [hfailure] at h; exact absurd h nofun

/-- Once a frame is lost, the rest of it is passed over (R133). -/
theorem Cursor.decode_failed (cause : Cause) (rem : Nat) (pz : Bool) (x : List Byte) :
    (Cursor.mk (some cause) rem pz).decode x = .error cause := by
  induction x with
  | nil => rfl
  | cons b x ih =>
    rw [Cursor.decode]
    exact congrArg (Except.map _) ih

/-- An illegal code byte loses the frame (R133). -/
theorem Cursor.decode_zeroCode (pz : Bool) (x : List Byte) :
    (Cursor.mk none 0 pz).decode (0x00 :: x) = .error .zeroCode := by
  rw [Cursor.decode]
  exact congrArg (Except.map _) (Cursor.decode_failed .zeroCode 0 pz x)

/-- A code byte opens a block, after the zero that the block before it owes (R132, R134). -/
theorem Cursor.decode_code {b : Byte} (hb : b ≠ 0x00) (pz : Bool) (x : List Byte) :
    (Cursor.mk none 0 pz).decode (b :: x) =
      ((Cursor.mk none (runLength b) (b != 0xFF)).decode x).map
        ((if pz then [0x00] else []) ++ ·) := by
  have hnext : (Cursor.mk none 0 pz).next b = ⟨none, runLength b, b != 0xFF⟩ := if_neg hb
  have hsunk : (Cursor.mk none 0 pz).sunk b = if pz then [0x00] else [] := if_neg hb
  rw [Cursor.decode, hnext, hsunk]

theorem map_nil_append (r : Except Cause (List Byte)) : r.map ([] ++ ·) = r := by
  cases r <;> rfl

theorem map_append_append (front back : List Byte) (r : Except Cause (List Byte)) :
    (r.map (back ++ ·)).map (front ++ ·) = r.map ((front ++ back) ++ ·) := by
  cases r <;> simp [Except.map]

/-- At the start of a frame, and after a CONT block, no zero is owed. -/
theorem Cursor.start_decode_code {b : Byte} (hb : b ≠ 0x00) (x : List Byte) :
    Cursor.start.decode (b :: x) = (Cursor.mk none (runLength b) (b != 0xFF)).decode x :=
  (Cursor.decode_code hb false x).trans (map_nil_append _)

/-- The data bytes owed by a block are sunk verbatim, or the frame ends before them (R135, R137). -/
theorem Cursor.decode_data (n : Nat) (pz : Bool) (x : List Byte) :
    (Cursor.mk none n pz).decode x =
      if x.length < n then .error .truncated
      else ((Cursor.mk none 0 pz).decode (x.drop n)).map (x.take n ++ ·) := by
  induction n generalizing x with
  | zero => exact (map_nil_append _).symm
  | succ n ih =>
    cases x with
    | nil => simp [Cursor.decode, Cursor.failure]
    | cons b x =>
      have hnext : (Cursor.mk none (n + 1) pz).next b = ⟨none, n, pz⟩ := by simp [Cursor.next]
      have hsunk : (Cursor.mk none (n + 1) pz).sunk b = [b] := by simp [Cursor.sunk]
      rw [Cursor.decode, hnext, hsunk, ih]
      by_cases hshort : x.length < n
      · simp [hshort, Except.map]
      · have hlong : ¬(b :: x).length < n + 1 := by simpa using hshort
        rw [if_neg hshort, if_neg hlong, map_append_append]
        rfl

/-- A zero owed at a block boundary is sunk if any input follows (R132). -/
theorem Cursor.decode_owed (x : List Byte) :
    (Cursor.mk none 0 true).decode x =
      (Cursor.start.decode x).map ((if x ≠ [] then [0x00] else []) ++ ·) := by
  cases x with
  | nil => rfl
  | cons b x =>
    by_cases hb : b = 0x00
    · rw [hb, Cursor.start, Cursor.decode_zeroCode, Cursor.decode_zeroCode]
      rfl
    · rw [Cursor.start_decode_code hb, Cursor.decode_code hb]
      rfl

/-- The loop of R131 is the decoder at a block boundary, with `out` before what it sinks. -/
theorem decLoop_eq {turns : Nat} {x : List Byte} (hturns : x.length ≤ turns) (out : List Byte) :
    decLoop turns x out = (Cursor.start.decode x).map (out ++ ·) := by
  have hnil (out : List Byte) :
      (.ok out : Except Cause (List Byte)) = (Cursor.start.decode []).map (out ++ ·) :=
    congrArg Except.ok (List.append_nil out).symm
  induction turns generalizing x out with
  | zero =>
    rw [List.length_eq_zero_iff.1 (Nat.le_zero.1 hturns)]
    exact hnil out
  | succ turns ih =>
    cases x with
    | nil => exact hnil out
    | cons c rest =>
      rw [decLoop]
      by_cases hc : c = 0x00
      · rw [if_pos hc, hc, Cursor.start, Cursor.decode_zeroCode]
        rfl
      rw [if_neg hc, Cursor.start_decode_code hc, Cursor.decode_data]
      by_cases hshort : rest.length < runLength c
      · rw [if_pos hshort, if_pos hshort]
        rfl
      have hlength : (rest.drop (runLength c)).length ≤ turns := by
        simp at hturns ⊢
        omega
      rw [if_neg hshort, if_neg hshort, ih hlength]
      by_cases hcont : c = 0xFF
      · have hbne : (c != 0xFF) = false := by rw [hcont]; rfl
        rw [if_neg (fun h => h.1 hcont), hbne, map_append_append, List.append_nil]
        rfl
      · have hbne : (c != 0xFF) = true := bne_iff_ne.2 hcont
        rw [hbne, Cursor.decode_owed, map_append_append, map_append_append]
        simp only [ne_eq, hcont, not_false_eq_true, true_and, List.append_assoc]

/-- From the start of a frame the decoder is `Dec` (R131). -/
theorem dec_eq_decode (f : List Byte) : dec f = Cursor.start.decode f := by
  rw [dec, decLoop_eq le_rfl]
  exact map_nil_append _

end Sys2Proof.Machine
end

section
/-! SUPPORT. Whole transactions (R32): a rule for each beat of a transaction, each operation's answer from the
middle of its input, and from these the outcome of every transaction. -/

namespace Sys2Proof.Machine

/-! ### Answers -/

/-- The block comes to rest after `k` steps with `rest` on offer, having sent `outs` and then `d`; the
constants are as they were. -/
def Answers (k : Nat) (outs : List Byte) (d : Done) (rest : List HostEvent) (s : State) : Prop :=
  ∃ t, steps k s = .next t ∧ t.atRest ∧ t.req = rest ∧ t.tables = s.tables ∧ t.maxLen = s.maxLen ∧
    t.rsp = s.rsp ++ outs.map .out ++ [.done d]

section
variable {k : Nat} {outs new : List Byte} {d : Done} {rest : List HostEvent} {s u : State}

/-- A step that sends `OUT` beats comes before the rest of the answer. -/
theorem Answers.of_step (hstep : step s = .next u) (htables : u.tables = s.tables)
    (hmaxLen : u.maxLen = s.maxLen) (hsent : u.rsp = s.rsp ++ new.map .out)
    (h : Answers k outs d rest u) : Answers (k + 1) (new ++ outs) d rest s := by
  obtain ⟨t, hsteps, hrest, hreq, ht, hm, hrsp⟩ := h
  refine ⟨t, ?_, hrest, hreq, ht.trans htables, hm.trans hmaxLen, ?_⟩
  · rw [steps, hstep]
    exact hsteps
  · simp [hrsp, hsent]

/-- A step that reports an outcome is the end of an answer. -/
theorem Answers.of_report {tt : Nibble} {bfsel : Byte} {o : CodecOutcome}
    (hstep : step s = .next (report tt bfsel o u)) (hkeeps : KeepsConstants { s with req := rest } u)
    (hsent : u.rsp = s.rsp ++ new.map .out) :
    Answers 1 (new ++ reportBytes o) (packDone tt bfsel o) rest s := by
  refine ⟨report tt bfsel o u, ?_, ⟨rfl, rfl⟩, hkeeps.req, hkeeps.tables, hkeeps.maxLen, ?_⟩
  · rw [steps, hstep]
    rfl
  · simp [hsent]

end

/-! ### The beats of an open transaction -/

/-- An open transaction of the command `i`, with its last `DATA` beats and its `END` on offer. -/
structure Receiving (i : Instr) (x : List Byte) (rest : List HostEvent) (s : State) : Prop where
  phase : s.phase = .opened
  job : s.job = none
  underWay : underWay s = i
  req : s.req = x.map .data ++ .endIn :: rest

/-- Such a transaction whose input stays within `MAX_LEN` (R225). -/
structure Within (i : Instr) (x : List Byte) (rest : List HostEvent) (s : State) : Prop
    extends Receiving i x rest s where
  overLength : s.overLength = false
  room : s.count + x.length ≤ s.maxLen

section
variable {i : Instr} {b : Byte} {x : List Byte} {rest : List HostEvent} {s : State}
  {take : Byte → State → State} {onEnd : State → State}

/-- The state in which an operation takes a `DATA` beat: the beat is off the offer, and counted. -/
def State.taking (s : State) (x : List Byte) (rest : List HostEvent) : State :=
  { s with req := x.map .data ++ .endIn :: rest, count := s.count + 1 }

theorem underWay_of_keeps {s t : State} (h : KeepsTransaction s t) : underWay t = underWay s := by
  rw [underWay, underWay, h.op, h.map]

/-- The step that takes a `DATA` beat. -/
theorem Receiving.step_data (h : Receiving i (b :: x) rest s) :
    step s = .next (commandData i b { s with req := x.map .data ++ .endIn :: rest }) := by
  rw [Machine.step_data h.phase h.job h.req, h.underWay]
  rfl

/-- A `DATA` beat leaves the transaction open for the next. -/
theorem Receiving.data (h : Receiving i (b :: x) rest s) :
    Receiving i x rest (commandData i b { s with req := x.map .data ++ .endIn :: rest }) := by
  have hkeeps := commandData_keeps i b { s with req := x.map .data ++ .endIn :: rest }
  exact ⟨hkeeps.phase.trans h.phase, hkeeps.job.trans h.job,
    (underWay_of_keeps hkeeps).trans h.underWay, hkeeps.req⟩

/-- The answer after a `DATA` beat is the rest of the answer before it. -/
theorem Receiving.answers_data {k : Nat} {d : Done} (h : Receiving i (b :: x) rest s)
    (hrest : ∃ outs,
      Answers k outs d rest (commandData i b { s with req := x.map .data ++ .endIn :: rest })) :
    ∃ outs, Answers (k + 1) outs d rest s := by
  have hkeeps := commandData_keeps i b { s with req := x.map .data ++ .endIn :: rest }
  obtain ⟨new, hnew⟩ := hkeeps.sends
  obtain ⟨outs, houts⟩ := hrest
  exact ⟨new ++ outs, houts.of_step h.step_data hkeeps.tables hkeeps.maxLen hnew⟩

/-- The step that takes `END`. -/
theorem Receiving.step_end (h : Receiving i [] rest s) :
    step s = finishType (.next (commandEnd i { s with req := rest })) := by
  rw [Machine.step_end h.phase h.job h.req, h.underWay]

/-- Within the bound, a `DATA` beat reaches the operation. -/
theorem Within.step_data (h : Within i (b :: x) rest s) (hdata : commandData i = receive take) :
    step s = .next (take b (s.taking x rest)) := by
  have hroom : s.count < s.maxLen := by
    have := h.room
    rw [List.length_cons] at this
    omega
  rw [h.toReceiving.step_data, hdata,
    receive_take (s := { s with req := x.map .data ++ .endIn :: rest }) h.overLength hroom]
  rfl

/-- Within the bound, the transaction goes on within it. -/
theorem Within.data (h : Within i (b :: x) rest s) (hkeeps : ∀ b s, TakeKeeps s (take b s)) :
    Within i x rest (take b (s.taking x rest)) := by
  have hk := hkeeps b (s.taking x rest)
  have hroom := h.room
  exact {
    phase := hk.phase.trans h.phase
    job := hk.job.trans h.job
    underWay := (underWay_of_keeps hk.toKeepsTransaction).trans h.underWay
    req := hk.req
    overLength := hk.overLength.trans h.overLength
    room := by
      rw [hk.count, hk.maxLen]
      simp only [State.taking, List.length_cons] at hroom ⊢
      omega }

/-- Within the bound, what the operation sends for a byte comes before the rest of its answer. -/
theorem Within.answers_data {k : Nat} {outs new : List Byte} {d : Done}
    (h : Within i (b :: x) rest s) (hdata : commandData i = receive take)
    (hkeeps : ∀ b s, TakeKeeps s (take b s))
    (hsent : (take b (s.taking x rest)).rsp = s.rsp ++ new.map .out)
    (hrest : Answers k outs d rest (take b (s.taking x rest))) :
    Answers (k + 1) (new ++ outs) d rest s :=
  hrest.of_step (h.step_data hdata) (hkeeps b (s.taking x rest)).tables
    (hkeeps b (s.taking x rest)).maxLen hsent

/-- Within the bound, `END` reaches the operation. -/
theorem Within.step_end (h : Within i [] rest s) (hend : commandEnd i = finish onEnd) :
    step s = finishType (.next (onEnd { s with req := rest })) := by
  rw [h.toReceiving.step_end, hend, finish_within (s := { s with req := rest }) h.overLength]

/-! ### The answer of each operation, from the middle of its input -/

/-- FENC sends the encoding of the rest of its input (R116). -/
theorem answers_fenc (h : Within .fenc x rest s) :
    Answers (x.length + 1) (encFrom s.run s.afterFull x) (packDone 0 0 (.bytes [])) rest s := by
  induction x generalizing s with
  | nil =>
    rw [encFrom, ← List.append_nil (encodeEnd s.run s.afterFull)]
    exact Answers.of_report (h.step_end (onEnd := endPlain) rfl) ⟨rfl, rfl, rfl⟩ rfl
  | cons b x ih =>
    exact h.answers_data rfl takePlain_keeps rfl (ih (h.data takePlain_keeps))

/-- FDEC sends what the rest of its frame decodes to (R139). -/
theorem answers_fdec_ok {out : List Byte} (h : Within .fdec x rest s)
    (hdecode : s.cursor.decode x = .ok out) :
    Answers (x.length + 1) out (packDone 0 0 (.bytes [])) rest s := by
  induction x generalizing s out with
  | nil =>
    obtain ⟨hfailure, rfl⟩ := Cursor.decode_nil_ok hdecode
    have hstep := h.step_end (onEnd := endFramed (conclude (.bytes []))) rfl
    have hcursor : { s with req := rest }.cursor.failure = none := hfailure
    rw [endFramed_eq, hcursor] at hstep
    exact Answers.of_report (new := []) hstep ⟨rfl, rfl, rfl⟩ (by simp)
  | cons b x ih =>
    obtain ⟨later, hlater, rfl⟩ := Cursor.decode_cons_ok hdecode
    have htake := takeFramed_sinkOut b (s.taking x rest)
    have hkeeps := takeFramed_keeps sinkOut_keeps
    refine h.answers_data rfl hkeeps ?_ (ih (h.data hkeeps) ?_)
    · rw [htake]; rfl
    · rw [htake]; exact hlater

/-- A lost frame is answered by its hard failure at `END`, whatever follows a frame that is whole. -/
theorem answers_framed_end {cause : Cause} {onward : State → State} (h : Within i [] rest s)
    (hend : commandEnd i = finish (endFramed onward)) (hfailure : s.cursor.failure = some cause) :
    Answers 1 [] (packDone 0 0 (.hardFail cause)) rest s := by
  have hstep := h.step_end hend
  have hcursor : { s with req := rest }.cursor.failure = some cause := hfailure
  rw [endFramed_eq, hcursor] at hstep
  exact Answers.of_report (new := []) hstep ⟨rfl, rfl, rfl⟩ (by simp)

/-- FDEC answers a frame that does not decode with its hard failure, after `OUT` beats that are void. -/
theorem answers_fdec_error {cause : Cause} (h : Within .fdec x rest s)
    (hdecode : s.cursor.decode x = .error cause) :
    ∃ outs, Answers (x.length + 1) outs (packDone 0 0 (.hardFail cause)) rest s := by
  induction x generalizing s with
  | nil =>
    exact ⟨[], answers_framed_end (onward := conclude (.bytes [])) h rfl
      (Cursor.decode_nil_error hdecode)⟩
  | cons b x ih =>
    have htake := takeFramed_sinkOut b (s.taking x rest)
    have hkeeps := takeFramed_keeps sinkOut_keeps
    obtain ⟨outs, houts⟩ := ih (h.data hkeeps)
      (by rw [htake]; exact Cursor.decode_cons_error hdecode)
    exact ⟨_, h.answers_data rfl hkeeps (by rw [htake]; rfl) houts⟩

/-- The register decoder's `END` sends its answer on the message (R188). -/
theorem answers_lookup {tt : Nibble} {bfsel : Byte} {o : CodecOutcome}
    (hstep : step s = finishType (.next (lookupMessage { s with req := rest })))
    (hanswer : regAnswer s.tables s.map s.msg = some (tt, bfsel, o)) :
    Answers 1 (reportBytes o) (packDone tt bfsel o) rest s := by
  have hanswer' : regAnswer { s with req := rest }.tables { s with req := rest }.map
      { s with req := rest }.msg = some (tt, bfsel, o) := hanswer
  rw [finishType_lookupMessage, hanswer'] at hstep
  exact Answers.of_report (new := []) hstep ⟨rfl, rfl, rfl⟩ (by simp)

/-- RDEC sends the register decoder's answer on its message (R188). -/
theorem answers_rdec {tt : Nibble} {bfsel : Byte} {o : CodecOutcome} (h : Within i x rest s)
    (hdata : commandData i = receive takeMessage) (hend : commandEnd i = finish lookupMessage)
    (hanswer : regAnswer s.tables s.map (s.msg ++ x) = some (tt, bfsel, o)) :
    Answers (x.length + 1) (reportBytes o) (packDone tt bfsel o) rest s := by
  induction x generalizing s with
  | nil => exact answers_lookup (h.step_end hend) (by rwa [List.append_nil] at hanswer)
  | cons b x ih =>
    refine h.answers_data (new := []) hdata takeMessage_keeps (by simp [State.taking])
      (ih (h.data takeMessage_keeps) ?_)
    simpa [State.taking] using hanswer

/-- RXDEC sends the register decoder's answer on the message that its frame decodes to (R193). -/
theorem answers_rxdec_ok {tt : Nibble} {bfsel : Byte} {o : CodecOutcome} {m : List Byte}
    (h : Within i x rest s) (hdata : commandData i = receive (takeFramed sinkMessage))
    (hend : commandEnd i = finish (endFramed lookupMessage))
    (hdecode : s.cursor.decode x = .ok m)
    (hanswer : regAnswer s.tables s.map (s.msg ++ m) = some (tt, bfsel, o)) :
    Answers (x.length + 1) (reportBytes o) (packDone tt bfsel o) rest s := by
  induction x generalizing s m with
  | nil =>
    obtain ⟨hfailure, rfl⟩ := Cursor.decode_nil_ok hdecode
    have hstep := h.step_end hend
    have hcursor : { s with req := rest }.cursor.failure = none := hfailure
    rw [endFramed_eq, hcursor] at hstep
    exact answers_lookup hstep (by rwa [List.append_nil] at hanswer)
  | cons b x ih =>
    obtain ⟨later, hlater, rfl⟩ := Cursor.decode_cons_ok hdecode
    have htake := takeFramed_sinkMessage b (s.taking x rest)
    have hkeeps := takeFramed_keeps sinkMessage_keeps
    refine h.answers_data (new := []) hdata hkeeps ?_ (ih (h.data hkeeps) (m := later) ?_ ?_)
    · rw [htake]; simp [State.taking, State.withCursor]
    · rw [htake]; exact hlater
    · rw [htake]; rw [← List.append_assoc] at hanswer; exact hanswer

/-- RXDEC answers a frame that does not decode with its hard failure (R193). -/
theorem answers_rxdec_error {cause : Cause} (h : Within i x rest s)
    (hdata : commandData i = receive (takeFramed sinkMessage))
    (hend : commandEnd i = finish (endFramed lookupMessage))
    (hdecode : s.cursor.decode x = .error cause) :
    Answers (x.length + 1) [] (packDone 0 0 (.hardFail cause)) rest s := by
  induction x generalizing s with
  | nil => exact answers_framed_end h hend (Cursor.decode_nil_error hdecode)
  | cons b x ih =>
    have htake := takeFramed_sinkMessage b (s.taking x rest)
    have hkeeps := takeFramed_keeps sinkMessage_keeps
    refine h.answers_data (new := []) hdata hkeeps ?_ (ih (h.data hkeeps) ?_)
    · rw [htake]; simp [State.taking, State.withCursor]
    · rw [htake]; exact Cursor.decode_cons_error hdecode

/-- A transaction refused for its command word runs to its `END` (R225 (1)). -/
theorem answers_refused_cmd {w : Byte} (h : Receiving (.rsvdCmd w) x rest s) :
    ∃ outs, Answers (x.length + 1) outs (packDone 0 0 (.refused .cmd)) rest s := by
  induction x generalizing s with
  | nil => exact ⟨_, Answers.of_report (new := []) h.step_end ⟨rfl, rfl, rfl⟩ (by simp)⟩
  | cons b x ih => exact h.answers_data (ih h.data)

/-- A transaction over the length bound, or sure to go over it, is refused at its `END` (R225 (2)). -/
theorem answers_refused_length (h : Receiving i x rest s) (hdata : commandData i = receive take)
    (hkeeps : ∀ b s, TakeKeeps s (take b s)) (hend : commandEnd i = finish onEnd)
    (hover : s.overLength = true ∨ (s.count ≤ s.maxLen ∧ s.maxLen < s.count + x.length)) :
    ∃ outs, Answers (x.length + 1) outs (packDone 0 0 (.refused .length)) rest s := by
  induction x generalizing s with
  | nil =>
    have hover' : s.overLength = true := hover.resolve_right fun ⟨hle, hlt⟩ => by
      rw [List.length_nil] at hlt
      omega
    have hstep := h.step_end
    rw [hend, finish_over (s := { s with req := rest }) hover'] at hstep
    exact ⟨_, Answers.of_report (new := []) hstep ⟨rfl, rfl, rfl⟩ (by simp)⟩
  | cons b x ih =>
    refine h.answers_data (ih h.data ?_)
    rw [hdata]
    rcases receive_cases take b { s with req := x.map .data ++ .endIn :: rest } with
      ⟨hov, he⟩ | ⟨hov, hlt, he⟩ | ⟨-, -, he⟩ <;> rw [he]
    · exact .inl hov
    · have hk := hkeeps b { s with req := x.map .data ++ .endIn :: rest, count := s.count + 1 }
      obtain hov' | ⟨-, hlong⟩ := hover
      · exact absurd (hov.symm.trans hov') Bool.false_ne_true
      · refine .inr ?_
        rw [hk.count, hk.maxLen]
        simp only [List.length_cons] at hlt hlong ⊢
        omega
    · exact .inl rfl

end

end Sys2Proof.Machine
end

section
/-! SUPPORT. Opening a transaction, and O49: every transaction ends with its function-level outcome (R32). -/

namespace Sys2Proof.Machine

/-! ### Opening -/

/-- The transaction that a command word opens is its own. -/
theorem underWay_commandOpen (w : Byte) (s : State) :
    underWay (commandOpen (decodeCommand w) s) = decodeCommand w := by
  rcases decodeCommand_cases w with
    ⟨-, hw⟩ | ⟨-, hw⟩ | ⟨-, hw⟩ | ⟨-, hw⟩ | ⟨-, hw⟩ | ⟨-, hw⟩ | ⟨hres, hw⟩ <;> rw [hw]
  · exact underWay_fenc _ rfl
  · exact underWay_fdec _ rfl
  · exact underWay_rdec _ rfl
  · exact underWay_rdec _ rfl
  · exact underWay_rxdec _ rfl
  · exact underWay_rxdec _ rfl
  · exact underWay_reserved rfl hres

/-- No beat has been counted when a transaction opens (R36). -/
theorem commandOpen_account (w : Byte) (s : State) :
    (commandOpen (decodeCommand w) s).count = 0 ∧
      (commandOpen (decodeCommand w) s).overLength = false := by
  rcases decodeCommand_cases w with
    ⟨-, hw⟩ | ⟨-, hw⟩ | ⟨-, hw⟩ | ⟨-, hw⟩ | ⟨-, hw⟩ | ⟨-, hw⟩ | ⟨-, hw⟩ <;> rw [hw] <;> exact ⟨rfl, rfl⟩

section
variable {w : Byte} {x : List Byte} {rest : List HostEvent} {s : State}

/-- The state after the `CMD` beat of a transaction. -/
def State.opening (s : State) (w : Byte) (x : List Byte) (rest : List HostEvent) : State :=
  commandOpen (decodeCommand w) { s with req := x.map .data ++ .endIn :: rest }

/-- What the `CMD` beat leaves unchanged. -/
theorem opening_keeps (s : State) (w : Byte) (x : List Byte) (rest : List HostEvent) :
    KeepsConstants { s with req := x.map .data ++ .endIn :: rest } (s.opening w x rest) :=
  commandOpen_keeps _ _

theorem receiving_opening (hrest : s.atRest) :
    Receiving (decodeCommand w) x rest (s.opening w x rest) where
  phase := commandOpen_phase w _
  job := (commandOpen_job _ _).trans hrest.2
  underWay := underWay_commandOpen w _
  req := (opening_keeps s w x rest).req

theorem within_opening (hrest : s.atRest) (hlength : x.length ≤ s.maxLen) :
    Within (decodeCommand w) x rest (s.opening w x rest) := by
  obtain ⟨hcount, hover⟩ := commandOpen_account w { s with req := x.map .data ++ .endIn :: rest }
  have hmaxLen : (s.opening w x rest).maxLen = s.maxLen := (opening_keeps s w x rest).maxLen
  exact {
    toReceiving := receiving_opening hrest
    overLength := hover
    room := by rw [hmaxLen, State.opening, hcount]; omega }

/-- A transaction on offer to a block at rest is answered as the open transaction is. -/
theorem answers_transaction {k : Nat} {outs : List Byte} {d : Done} (hrest : s.atRest)
    (hreq : s.req = transactionBeats w x ++ rest)
    (h : Answers k outs d rest (s.opening w x rest)) : Answers (k + 1) outs d rest s := by
  have hkeeps := opening_keeps s w x rest
  have hoffer : s.req = .cmd w :: (x.map .data ++ .endIn :: rest) := by
    simp [hreq, transactionBeats]
  exact h.of_step (new := []) (step_cmd hrest hoffer) hkeeps.tables hkeeps.maxLen
    ((commandOpen_rsp _ _).trans (by simp))

/-! ### The function-level outcome by the command word -/

theorem legalCommand_eq_false (w : Byte) : legalCommand w = false ↔
    w ≠ 0x01 ∧ w ≠ 0x02 ∧ w ≠ 0x03 ∧ w ≠ 0x0B ∧ w ≠ 0x04 ∧ w ≠ 0x0C := by
  simp only [legalCommand, Bool.or_eq_false_iff, beq_eq_false_iff_ne, and_assoc]

theorem transactionOutcome_reserved (tb : Tables) (maxLen : Nat) (x : List Byte)
    (hw : legalCommand w = false) :
    transactionOutcome tb maxLen w x = some (.refused .cmd) := by
  rw [transactionOutcome, if_pos ((legalCommand_eq_false w).1 hw)]

theorem transactionOutcome_overLength (tb : Tables) {maxLen : Nat}
    (hw : legalCommand w = true) (hx : maxLen < x.length) :
    transactionOutcome tb maxLen w x = some (.refused .length) := by
  have hlegal := (legalCommand_eq_false w).not.1 (by simp [hw])
  rw [transactionOutcome, if_neg hlegal, if_pos hx]

/-! ### Every transaction -/

/-- The transaction on offer is answered after one step for each of its beats, and the host reads `o`. -/
def AnsweredWith (o : CodecOutcome) (x : List Byte) (rest : List HostEvent) (s : State) : Prop :=
  ∃ outs d, Answers (x.length + 1) outs d rest s ∧ unpackDone s.tables outs d = some o

/-- An operation of the register decoder reads its answer off the outcome of `regDecode`. -/
theorem answeredWith_record {tb : Tables} {sel : MapSel} {m : List Byte} {o : CodecOutcome}
    (htables : s.tables = tb) (ho : regDecode tb sel m = some o)
    (h : ∀ tt bfsel, regAnswer tb sel m = some (tt, bfsel, o) →
      Answers (x.length + 1) (reportBytes o) (packDone tt bfsel o) rest s) :
    AnsweredWith o x rest s := by
  rw [regDecode_eq] at ho
  obtain ⟨⟨tt, bfsel, o'⟩, hanswer, rfl⟩ := Option.map_eq_some_iff.1 ho
  exact ⟨_, _, h tt bfsel hanswer, htables ▸ unpackDone_regAnswer hanswer⟩

/-- An open FENC transaction is answered with `Enc` of its input. -/
theorem answeredWith_fenc (h : Within .fenc x rest s) (hrun : s.run = [])
    (hfull : s.afterFull = false) : AnsweredWith (.bytes (enc x)) x rest s := by
  have hanswer := answers_fenc h
  rw [hrun, hfull] at hanswer
  exact ⟨_, _, hanswer, rfl⟩

/-- An open FDEC transaction is answered with `Dec` of its frame. -/
theorem answeredWith_fdec {o : CodecOutcome} (h : Within .fdec x rest s)
    (hcursor : s.cursor = Cursor.start)
    (hok : ∀ out, dec x = .ok out → o = .bytes out)
    (herror : ∀ c, dec x = .error c → o = .hardFail c) : AnsweredWith o x rest s := by
  have hdec := dec_eq_decode x
  rw [← hcursor] at hdec
  cases hx : dec x with
  | ok out =>
    rw [hok out hx]
    exact ⟨_, _, answers_fdec_ok h (hdec.symm.trans hx), rfl⟩
  | error c =>
    rw [herror c hx]
    obtain ⟨outs, houts⟩ := answers_fdec_error h (hdec.symm.trans hx)
    exact ⟨_, _, houts, unpackDone_hardFail _ _ c⟩

/-- An open RDEC transaction is answered with `RegDecode` of its message. -/
theorem answeredWith_rdec {i : Instr} {tb : Tables} {sel : MapSel} {o : CodecOutcome}
    (h : Within i x rest s)
    (hdata : commandData i = receive takeMessage) (hend : commandEnd i = finish lookupMessage)
    (hmsg : s.msg = []) (htables : s.tables = tb) (hmap : s.map = sel)
    (ho : regDecode tb sel x = some o) : AnsweredWith o x rest s :=
  answeredWith_record htables ho fun _ _ hanswer =>
    answers_rdec h hdata hend (by rwa [hmsg, htables, hmap])

/-- An open RXDEC transaction is answered with `RxDecode` of its frame. -/
theorem answeredWith_rxdec {i : Instr} {tb : Tables} {sel : MapSel} {o : CodecOutcome}
    (h : Within i x rest s)
    (hdata : commandData i = receive (takeFramed sinkMessage))
    (hend : commandEnd i = finish (endFramed lookupMessage))
    (hcursor : s.cursor = Cursor.start) (hmsg : s.msg = []) (htables : s.tables = tb)
    (hmap : s.map = sel) (ho : rxDecode tb sel x = some o) : AnsweredWith o x rest s := by
  have hdec := dec_eq_decode x
  rw [← hcursor] at hdec
  rw [rxDecode] at ho
  cases hx : dec x with
  | ok m =>
    simp only [hx] at ho hdec
    exact answeredWith_record htables ho fun _ _ hanswer =>
      answers_rxdec_ok h hdata hend hdec.symm (by rwa [hmsg, htables, hmap])
  | error c =>
    simp only [hx, Option.some.injEq] at ho hdec
    exact ⟨_, _, answers_rxdec_error h hdata hend hdec.symm, ho ▸ unpackDone_hardFail _ _ c⟩

/-- A legal command bounds the bytes it takes, and reports the bound first at its `END` (R225). -/
theorem legalCommand_parts (hw : legalCommand w = true) :
    ∃ take onEnd, (∀ b s, TakeKeeps s (take b s)) ∧ commandData (decodeCommand w) = receive take ∧
      commandEnd (decodeCommand w) = finish onEnd := by
  rcases decodeCommand_cases w with
    ⟨rfl, -⟩ | ⟨rfl, -⟩ | ⟨rfl, -⟩ | ⟨rfl, -⟩ | ⟨rfl, -⟩ | ⟨rfl, -⟩ | ⟨hres, -⟩
  · exact ⟨_, endPlain, takePlain_keeps, rfl, rfl⟩
  · exact ⟨_, endFramed (conclude (.bytes [])), takeFramed_keeps sinkOut_keeps, rfl, rfl⟩
  · exact ⟨_, lookupMessage, takeMessage_keeps, rfl, rfl⟩
  · exact ⟨_, lookupMessage, takeMessage_keeps, rfl, rfl⟩
  · exact ⟨_, endFramed lookupMessage, takeFramed_keeps sinkMessage_keeps, rfl, rfl⟩
  · exact ⟨_, endFramed lookupMessage, takeFramed_keeps sinkMessage_keeps, rfl, rfl⟩
  · exact absurd (hres.symm.trans hw) Bool.false_ne_true

/-- An open transaction of a legal command, over the length bound, is refused. -/
theorem answeredWith_refused_length (hw : legalCommand w = true) (hrest : s.atRest)
    (hlong : s.maxLen < x.length) :
    AnsweredWith (.refused .length) x rest (s.opening w x rest) := by
  have hopen : Receiving (decodeCommand w) x rest (s.opening w x rest) := receiving_opening hrest
  obtain ⟨hcount, -⟩ := commandOpen_account w { s with req := x.map .data ++ .endIn :: rest }
  have hmaxLen : (s.opening w x rest).maxLen = s.maxLen := (opening_keeps s w x rest).maxLen
  have hover : (s.opening w x rest).count ≤ (s.opening w x rest).maxLen ∧
      (s.opening w x rest).maxLen < (s.opening w x rest).count + x.length := by
    rw [hmaxLen, State.opening, hcount]
    omega
  obtain ⟨take, onEnd, hkeeps, hdata, hend⟩ := legalCommand_parts hw
  obtain ⟨outs, houts⟩ := answers_refused_length hopen hdata hkeeps hend (.inr hover)
  exact ⟨_, _, houts, unpackDone_refused _ _ .length⟩

/-- The open transaction, of any command word and any input, is answered with its outcome. -/
theorem answeredWith_transactionOutcome {o : CodecOutcome} (hrest : s.atRest)
    (ho : transactionOutcome s.tables s.maxLen w x = some o) :
    AnsweredWith o x rest (s.opening w x rest) := by
  cases hlegal : legalCommand w with
  | false =>
    have hopen : Receiving (decodeCommand w) x rest (s.opening w x rest) := receiving_opening hrest
    rw [decodeCommand_reserved hlegal] at hopen
    obtain ⟨outs, houts⟩ := answers_refused_cmd hopen
    rw [transactionOutcome_reserved _ _ _ hlegal] at ho
    exact ⟨_, _, houts, (unpackDone_refused _ _ .cmd).trans ho⟩
  | true =>
    by_cases hlong : s.maxLen < x.length
    · rw [transactionOutcome_overLength _ hlegal hlong] at ho
      exact Option.some.inj ho ▸ answeredWith_refused_length hlegal hrest hlong
    have hin : Within (decodeCommand w) x rest (s.opening w x rest) :=
      within_opening hrest (not_lt.1 hlong)
    rcases decodeCommand_cases w with
      ⟨rfl, -⟩ | ⟨rfl, -⟩ | ⟨rfl, -⟩ | ⟨rfl, -⟩ | ⟨rfl, -⟩ | ⟨rfl, -⟩ | ⟨hres, -⟩
    · have ho' : CodecOutcome.bytes (enc x) = o := by simpa [transactionOutcome, hlong] using ho
      exact ho' ▸ answeredWith_fenc hin rfl rfl
    · refine answeredWith_fdec hin rfl (fun out hx => ?_) (fun c hx => ?_)
      · simpa [transactionOutcome, hlong, hx, eq_comm] using ho
      · simpa [transactionOutcome, hlong, hx, eq_comm] using ho
    · exact answeredWith_rdec (tb := s.tables) (sel := .tile) hin rfl rfl rfl rfl rfl
        (by simpa [transactionOutcome, hlong] using ho)
    · exact answeredWith_rdec (tb := s.tables) (sel := .master) hin rfl rfl rfl rfl rfl
        (by simpa [transactionOutcome, hlong] using ho)
    · exact answeredWith_rxdec (tb := s.tables) (sel := .tile) hin rfl rfl rfl rfl rfl rfl
        (by simpa [transactionOutcome, hlong] using ho)
    · exact answeredWith_rxdec (tb := s.tables) (sel := .master) hin rfl rfl rfl rfl rfl rfl
        (by simpa [transactionOutcome, hlong] using ho)
    · exact absurd (hres.symm.trans hlegal) Bool.false_ne_true

end

/-- Settles O49: the `CMD` beat opens the transaction, and the open transaction is answered with its
outcome. -/
theorem everyTransactionEndsWithItsOutcome : Obligations.EveryTransactionEndsWithItsOutcome := by
  intro s w x rest o hrest hreq ho
  obtain ⟨outs, d, hopen, hread⟩ := answeredWith_transactionOutcome (rest := rest) hrest ho
  obtain ⟨t, hanswer⟩ := answers_transaction hrest hreq hopen
  rw [(opening_keeps s w x rest).tables] at hread
  obtain ⟨hsteps, hat, hoffer, htables, hmaxLen, hsent⟩ := hanswer
  exact ⟨_, t, outs, d, hsteps, hat, hoffer, htables, hmaxLen, hsent, hread⟩

end Sys2Proof.Machine
end

section
/-! SUPPORT. The read primitive of the payload (R53): the value of a byte sequence is its positional sum
in base 256, and a read inside the payload is that sum over the bytes at the offset. -/

namespace Sys2Proof.Machine

/-- Each byte weighs 256 times the one before it (R52). -/
theorem leNat_eq_sum (bs : List Byte) :
    leNat bs = ∑ k ∈ Finset.range bs.length, (bs.getD k 0).toNat * 256 ^ k := by
  induction bs with
  | nil => rfl
  | cons b bs ih =>
    have htail : 256 * leNat bs =
        ∑ k ∈ Finset.range bs.length, (bs.getD k 0).toNat * 256 ^ (k + 1) := by
      rw [ih, Finset.mul_sum]
      exact Finset.sum_congr rfl fun k _ => by ring
    rw [List.length_cons, Finset.sum_range_succ', leNat, htail, add_comm]
    simp only [List.getD_cons_succ, List.getD_cons_zero, pow_zero, mul_one]

/-- Byte `k` of the `n` bytes at offset `a` is byte `a + k`. -/
theorem getD_take_drop (p : List Byte) (a : Nat) {n k : Nat} (hk : k < n) :
    ((p.drop a).take n).getD k 0 = p.getD (a + k) 0 := by
  simp only [List.getD_eq_getElem?_getD, List.getElem?_take_of_lt hk, List.getElem?_drop]

/-- A read inside the payload is the sum of R53. -/
theorem memRead_eq_sum {p : List Byte} {a n : Nat} (h : a + n ≤ p.length) :
    memRead p a n = ∑ k ∈ Finset.range n, (p.getD (a + k) 0).toNat * 256 ^ k := by
  have hlen : ((p.drop a).take n).length = n := by
    rw [List.length_take, List.length_drop]
    omega
  rw [memRead, leNat_eq_sum, hlen]
  exact Finset.sum_congr rfl fun k hk => by rw [getD_take_drop p a (Finset.mem_range.1 hk)]

/-- Settles O12: a read is the positional sum of its bytes, and `n` bytes stay below `256^n`. -/
theorem memReadIsTheLittleEndianSum : Obligations.MemReadIsTheLittleEndianSum :=
  fun p a n h => ⟨memRead_eq_sum h, memRead_lt p a n⟩

end Sys2Proof.Machine
end

section
/-! SUPPORT. The packing of `VALUE` by type (R93): what each kind of value looks like in the field. The
clauses on numbers and flags invert the host's reading, which is known to give the value back. -/

namespace Sys2Proof.Machine

/-! ### Reading a value back, inverted -/

/-- What the host can read: a number of one of the two kinds, a pattern, the flags of a bitfield type that
the selector names, or the `OUT` bytes. -/
theorem unpackValue_cases {tb : Tables} {tt : Nibble} {bfsel : Byte} {value : Word32}
    {outs : List Byte} {v : Value} (h : unpackValue tb tt bfsel value outs = some v) :
    (tt ≠ 0x2 ∧ v = .num value.toNat) ∨ (tt = 0x2 ∧ v = .num value.toInt) ∨ v = .f32 value ∨
    (∃ flags, bfLookup tb bfsel = some flags ∧ v = .flags (flagValues flags value.toNat)) ∨
    v = .raw outs := by
  unfold unpackValue at h
  split at h
  case isTrue htt =>
    have hsigned : tt ≠ 0x2 := by rcases htt with rfl | rfl | rfl <;> decide
    exact .inl ⟨hsigned, (Option.some.inj h).symm⟩
  split at h
  case isTrue htt => exact .inr (.inl ⟨htt, (Option.some.inj h).symm⟩)
  split at h
  case isTrue => exact .inr (.inr (.inl (Option.some.inj h).symm))
  split at h
  case isTrue =>
    obtain ⟨flags, hflags, hv⟩ := Option.map_eq_some_iff.1 h
    exact .inr (.inr (.inr (.inl ⟨flags, hflags, hv.symm⟩)))
  split at h
  case isTrue => exact .inr (.inr (.inr (.inr (Option.some.inj h).symm)))
  case isFalse => exact absurd h nofun

/-- Tag 2 is `int16`'s alone (R92). -/
theorem typeTag_eq_two_iff (t : TypeRef) : typeTag t = 0x2 ↔ t = .scalar .int16 := by
  cases t with
  | scalar s => cases s <;> decide
  | bitfield sel => simp [typeTag]
  | unknown tag => simp [typeTag]

@[simp] theorem flagValues_length (flags : List Ident) (u : Nat) :
    (flagValues flags u).length = flags.length := by
  simp [flagValues]

/-! ### `VALUE` of a decoded value -/

section
variable {tb : Tables} {t : TypeRef} {p : List Byte}

/-- `VALUE` holds a number of an unsigned type as it is, and an `int16` in two's complement. -/
theorem packValue_num {n : Int} (h : typeDecode tb t p = some (.ok (.num n))) :
    (t ≠ .scalar .int16 ∧ n = (packValue (.num n)).toNat) ∨
    (t = .scalar .int16 ∧ n = (packValue (.num n)).toInt) := by
  simpa [← typeTag_eq_two_iff] using unpackValue_cases (unpackValue_packValue h 0 "")

/-- A type decode gives at most 32 flags (R28). -/
theorem typeDecode_flags_length_le {fs : List (Ident × Bool)}
    (h : typeDecode tb t p = some (.ok (.flags fs))) : fs.length ≤ 32 := by
  obtain ⟨flags, hflags, hfs⟩ : ∃ flags, bfLookup tb (typeSelector t) = some flags ∧
      fs = flagValues flags (packValue (.flags fs)).toNat := by
    simpa using unpackValue_cases (unpackValue_packValue h 0 "")
  have hlength : fs.length = flags.length := by rw [hfs, flagValues_length]
  exact hlength.trans_le (bfLookup_length_le hflags)

/-- Bit `i` of the packed flags is flag `i`, and zero where there is none. -/
theorem testBit_packFlags (fs : List (Ident × Bool)) (i : Nat) :
    (packFlags fs).testBit i = (fs.getD i ("", false)).2 := by
  induction fs generalizing i with
  | nil => simp [packFlags]
  | cons f fs ih =>
    have hbit : packFlags (f :: fs) = Nat.bit f.2 (packFlags fs) := by
      rw [packFlags, Nat.bit_val, add_comm]
    rw [hbit]
    cases i with
    | zero => rw [Nat.testBit_bit_zero, List.getD_cons_zero]
    | succ i => rw [Nat.testBit_bit_succ, ih, List.getD_cons_succ]

/-- Bit `i` of `VALUE` is flag `i` (R93): with at most 32 flags, none is lost above bit 31. -/
theorem getLsbD_packValue_flags {fs : List (Ident × Bool)}
    (h : typeDecode tb t p = some (.ok (.flags fs))) (i : Nat) :
    (packValue (.flags fs)).getLsbD i = (fs.getD i ("", false)).2 := by
  rw [packValue, BitVec.getLsbD_ofNat, testBit_packFlags]
  by_cases hi : i < 32
  · simp [hi]
  · have hlength := typeDecode_flags_length_le h
    simp [hi, List.getElem?_eq_none (hlength.trans (not_lt.1 hi))]

/-! ### The report of a success record -/

/-- Only a raw value is sent as `OUT` beats (R93). -/
theorem reportBytes_eq_nil {v : Value} (hraw : ∀ bs, v ≠ .raw bs) (reg : Byte) (name : Ident) :
    reportBytes (.record (.ok reg name v)) = [] := by
  cases v with
  | raw bs => exact absurd rfl (hraw bs)
  | num n => rfl
  | f32 bits => rfl
  | flags fs => rfl

/-- The host reads the success record of a type decode from its report (R90 to R93). -/
theorem unpackDone_packDone_ok {v : Value} (h : typeDecode tb t p = some (.ok v)) (reg : Byte)
    (name : Ident) :
    unpackDone tb (reportBytes (.record (.ok reg name v)))
      (packDone (typeTag t) (typeSelector t) (.record (.ok reg name v))) =
    some (.record (.ok reg name v)) := by
  simp [unpackDone, packDone, unpackValue_packValue h]

end

/-- Settles O20: numbers and flags by inverting the host's reading, patterns and raw values by the packing
itself, the record by its `TT`, `BFSEL`, `VALUE` and `OUT` bytes. -/
theorem packedValueIsRecovered : Obligations.PackedValueIsRecovered := by
  intro tb t p v reg name h
  refine ⟨?unsigned, ?signed, ?pattern, ?flags, ?raw, fun hraw => reportBytes_eq_nil hraw reg name,
    unpackDone_packDone_ok h reg name⟩
  case unsigned =>
    rintro n rfl ht
    exact (packValue_num h).elim (·.2.symm) fun ⟨hint16, _⟩ => absurd hint16 ht
  case signed =>
    rintro n rfl ht
    exact (packValue_num h).elim (fun ⟨hother, _⟩ => absurd ht hother) (·.2.symm)
  case pattern =>
    rintro bits rfl
    rfl
  case flags =>
    rintro fs rfl i
    exact getLsbD_packValue_flags h i
  case raw =>
    rintro bs rfl
    exact ⟨rfl, rfl⟩

end Sys2Proof.Machine
end

section
/-! SUPPORT. The encoder of the framer (40_framer_encode.md): the range of its working state (R37), which every
byte keeps; from it zero-freedom (R113) and the round-trip law (R115); and the beats of FENC (R116). -/

namespace Sys2Proof.Machine

/-! ### The encoder's working state -/

/-- The range of `run` and `after_full` between two bytes (R37). -/
structure EncoderInRange (run : List Byte) (afterFull : Bool) : Prop where
  short : run.length ≤ 253
  nonzero : ∀ b ∈ run, b ≠ 0x00
  emptyAfterFull : afterFull = true → run = []

theorem encoderInRange_empty (afterFull : Bool) : EncoderInRange [] afterFull :=
  ⟨Nat.zero_le _, nofun, fun _ => rfl⟩

/-- Every byte keeps the encoder in range: it empties `run`, or adds a non-zero byte where there is room. -/
theorem EncoderInRange.encodeByte {run : List Byte} {afterFull : Bool}
    (h : EncoderInRange run afterFull) (b : Byte) :
    EncoderInRange (encodeByte run b).2.1 (encodeByte run b).2.2 := by
  rcases encodeByte_cases run b with ⟨-, he⟩ | ⟨-, -, he⟩ | ⟨hb, hroom, he⟩ <;> rw [he]
  · exact encoderInRange_empty _
  · exact encoderInRange_empty _
  · have hshort := h.short
    refine ⟨?_, fun d hd => ?_, nofun⟩
    · rw [List.length_append, List.length_singleton]
      omega
    · rcases List.mem_append.1 hd with hrun | hlast
      · exact h.nonzero d hrun
      · rwa [List.mem_singleton.1 hlast]

/-! ### The code byte of a block -/

/-- The code of a LINK block does not overflow (R120). -/
theorem toNat_linkCode {n : Nat} (h : n ≤ 253) : (BitVec.ofNat 8 (n + 1)).toNat = n + 1 := by
  rw [BitVec.toNat_ofNat]
  omega

theorem linkCode_ne_zero {n : Nat} (h : n ≤ 253) : BitVec.ofNat 8 (n + 1) ≠ 0x00 := fun he => by
  have hcode := toNat_linkCode h
  rw [he] at hcode
  exact absurd hcode (Nat.succ_ne_zero n).symm

theorem linkCode_ne_cont {n : Nat} (h : n ≤ 253) : BitVec.ofNat 8 (n + 1) ≠ 0xFF := fun he => by
  have hcode := toNat_linkCode h
  rw [he] at hcode
  have hlast : 255 = n + 1 := hcode
  omega

theorem runLength_linkCode {n : Nat} (h : n ≤ 253) : runLength (BitVec.ofNat 8 (n + 1)) = n := by
  rw [runLength, toNat_linkCode h, Nat.add_sub_cancel]

/-! ### Zero-freedom (R113) -/

theorem blockOf_ne_zero {run : List Byte} {afterFull : Bool} (h : EncoderInRange run afterFull) :
    ∀ d ∈ blockOf run, d ≠ 0x00 :=
  List.forall_mem_cons.2 ⟨linkCode_ne_zero h.short, h.nonzero⟩

/-- What a byte makes the encoder emit holds no zero. -/
theorem encodeByte_emits_ne_zero {run : List Byte} {afterFull : Bool}
    (h : EncoderInRange run afterFull) (b : Byte) : ∀ d ∈ (encodeByte run b).1, d ≠ 0x00 := by
  rcases encodeByte_cases run b with ⟨-, he⟩ | ⟨hb, -, he⟩ | ⟨-, -, he⟩ <;> rw [he]
  · exact blockOf_ne_zero h
  · exact List.forall_mem_cons.2 ⟨by decide, List.forall_mem_append.2
      ⟨h.nonzero, List.forall_mem_singleton.2 hb⟩⟩
  · exact nofun

theorem encFrom_ne_zero {run : List Byte} {afterFull : Bool} (h : EncoderInRange run afterFull)
    (x : List Byte) : ∀ d ∈ encFrom run afterFull x, d ≠ 0x00 := by
  induction x generalizing run afterFull with
  | nil =>
    cases afterFull with
    | true => exact nofun
    | false => exact blockOf_ne_zero h
  | cons b x ih =>
    exact List.forall_mem_append.2 ⟨encodeByte_emits_ne_zero h b, ih (h.encodeByte b)⟩

/-- Settles O6: the encoder in range emits no zero, by induction on the input. -/
theorem encodedFrameHasNoZeroByte : Obligations.EncodedFrameHasNoZeroByte :=
  encFrom_ne_zero (encoderInRange_empty false)

/-! ### The round trip (R115) -/

/-- A whole block at a block boundary: its data, then what is decoded after it. -/
theorem Cursor.decode_block {c : Byte} {data : List Byte} (hc : c ≠ 0x00)
    (hlength : runLength c = data.length) (y : List Byte) :
    Cursor.start.decode (c :: (data ++ y)) =
      ((Cursor.mk none 0 (c != 0xFF)).decode y).map (data ++ ·) := by
  have hwhole : ¬(data ++ y).length < data.length := by
    rw [List.length_append]
    omega
  rw [Cursor.start_decode_code hc, Cursor.decode_data, hlength, if_neg hwhole, List.drop_left,
    List.take_left]

/-- A block of the encoder decodes to its run, and to the zero after it if more input follows (R132). -/
theorem Cursor.decode_blockOf {run : List Byte} (hshort : run.length ≤ 253) (y : List Byte) :
    Cursor.start.decode (blockOf run ++ y) =
      (Cursor.start.decode y).map ((run ++ if y ≠ [] then [0x00] else []) ++ ·) := by
  have hlink : (BitVec.ofNat 8 (run.length + 1) != 0xFF) = true :=
    bne_iff_ne.2 (linkCode_ne_cont hshort)
  rw [blockOf, List.cons_append,
    Cursor.decode_block (linkCode_ne_zero hshort) (runLength_linkCode hshort), hlink,
    Cursor.decode_owed, map_append_append]

/-- A full block decodes to its 254 bytes and nothing else (R134). -/
theorem Cursor.decode_contBlock {data : List Byte} (hfull : data.length = 254) (y : List Byte) :
    Cursor.start.decode (0xFF :: (data ++ y)) = (Cursor.start.decode y).map (data ++ ·) :=
  Cursor.decode_block (c := 0xFF) (by decide) hfull.symm y

/-- The encoder that has not just emitted a full block has something left to emit, so a zero of the input is
always followed by more of the frame. -/
theorem encFrom_ne_nil (run x : List Byte) : encFrom run false x ≠ [] := by
  induction x generalizing run with
  | nil => exact List.cons_ne_nil _ _
  | cons b x ih =>
    rw [encFrom]
    rcases encodeByte_cases run b with ⟨-, he⟩ | ⟨-, -, he⟩ | ⟨-, -, he⟩ <;> rw [he]
    · exact List.cons_ne_nil _ _
    · exact List.cons_ne_nil _ _
    · exact ih _

/-- What the encoder still emits decodes to the bytes it holds back and the rest of the input. -/
theorem decode_encFrom {run : List Byte} {afterFull : Bool} (h : EncoderInRange run afterFull)
    (x : List Byte) : Cursor.start.decode (encFrom run afterFull x) = .ok (run ++ x) := by
  induction x generalizing run afterFull with
  | nil =>
    cases afterFull with
    | true =>
      rw [h.emptyAfterFull rfl]
      rfl
    | false =>
      rw [encFrom, encodeEnd, if_neg Bool.false_ne_true, ← List.append_nil (blockOf run),
        Cursor.decode_blockOf h.short, if_neg (not_not_intro rfl), List.append_nil]
      exact congrArg Except.ok (List.append_nil run)
  | cons b x ih =>
    have hrest := ih (h.encodeByte b)
    rw [encFrom]
    rcases encodeByte_cases run b with ⟨hb, he⟩ | ⟨-, hfull, he⟩ | ⟨-, -, he⟩ <;>
      rw [he] at hrest ⊢
    · rw [Cursor.decode_blockOf h.short, hrest, if_pos (encFrom_ne_nil [] x), hb]
      simp [Except.map]
    · rw [List.cons_append, Cursor.decode_contBlock (by simp [hfull]), hrest]
      simp [Except.map]
    · simpa using hrest

/-- Settles O5: the law by induction on the input from any place of the encoder; against the converse, a
frame with a zero among its data bytes, which the encoder never writes (R75). -/
theorem decodeOfEncodeIsTheInput : Obligations.DecodeOfEncodeIsTheInput := by
  refine ⟨fun x => ?_, [0x02, 0x00], [0x00], by decide, by decide⟩
  rw [dec_eq_decode]
  exact decode_encFrom (encoderInRange_empty false) x

/-! ### The protocol by the beat on offer -/

section
variable {accept : State → State} {data : Byte → State → State} {onEnd : State → State}
variable {s : State} {rest : List HostEvent}

theorem transact_cmd {w : Byte} (hphase : s.phase = .idle) (hreq : s.req = .cmd w :: rest) :
    transact accept data onEnd s = .next (accept { s with req := rest }) := by
  simp only [transact, hreq, hphase]

theorem transact_data {b : Byte} (hphase : s.phase = .opened) (hjob : s.job = none)
    (hreq : s.req = .data b :: rest) :
    transact accept data onEnd s = .next (data b { s with req := rest }) := by
  simp only [transact, hreq, hphase, hjob]

theorem transact_end (hphase : s.phase = .opened) (hjob : s.job = none)
    (hreq : s.req = .endIn :: rest) :
    transact accept data onEnd s = .next (onEnd { s with req := rest }) := by
  simp only [transact, hreq, hphase, hjob]

end

/-! ### The beats of FENC (R116) -/

theorem takePlain_zero (s : State) : takePlain 0x00 s =
    { s with run := [], afterFull := false, rsp := s.rsp ++ (blockOf s.run).map .out } := rfl

theorem takePlain_room {b : Byte} {s : State} (hb : b ≠ 0x00) (hroom : s.run.length ≠ 253) :
    takePlain b s = { s with run := s.run ++ [b], afterFull := false } := by
  obtain ⟨-, -, he⟩ :=
    ((encodeByte_cases s.run b).resolve_left (hb ·.1)).resolve_left (hroom ·.2.1)
  simp [takePlain, he, emitOut]

theorem takePlain_full {b : Byte} {s : State} (hb : b ≠ 0x00) (hfull : s.run.length = 253) :
    takePlain b s = { s with
      run := [], afterFull := true, rsp := s.rsp ++ (0xFF :: (s.run ++ [b])).map .out } := by
  obtain ⟨-, -, he⟩ :=
    ((encodeByte_cases s.run b).resolve_left (hb ·.1)).resolve_right (·.2.1 hfull)
  simp [takePlain, he, emitOut]

/-- `END` at the encoder of an open transaction: what is left to emit, then the `BYTES` answer. -/
theorem endPlain_eq {s : State} (hjob : s.job = none) : endPlain s = { s with
    phase := .idle
    rsp := s.rsp ++ (encodeEnd s.run s.afterFull).map .out ++ [.done (bareDone 0x0)] } := by
  simp [endPlain, conclude, report, emitOut, reportBytes, packDone, hjob]

section
variable {s : State} {rest : List HostEvent}

theorem exec_fenc_cmd {w : Byte} (hphase : s.phase = .idle) (hreq : s.req = .cmd w :: rest) :
    exec .fenc s = .next (initEncoder (openAs .fenc .tile { s with req := rest })) :=
  (exec_decodeCommand 0x01 s).trans (transact_cmd hphase hreq)

/-- A `DATA` beat within the length bound reaches the encoder. -/
theorem exec_fenc_data {b : Byte} (hphase : s.phase = .opened) (hjob : s.job = none)
    (hover : s.overLength = false) (hcount : s.count < s.maxLen) (hreq : s.req = .data b :: rest) :
    exec .fenc s = .next (takePlain b { s with req := rest, count := s.count + 1 }) :=
  calc exec .fenc s
    _ = .next (receive takePlain b { s with req := rest }) :=
      (exec_decodeCommand 0x01 s).trans (transact_data hphase hjob hreq)
    _ = _ := congrArg _ (receive_take (s := { s with req := rest }) hover hcount takePlain b)

/-- `END` within the length bound reaches the encoder. -/
theorem exec_fenc_end (hphase : s.phase = .opened) (hjob : s.job = none)
    (hover : s.overLength = false) (hreq : s.req = .endIn :: rest) :
    exec .fenc s = .next { s with
      req := rest
      phase := .idle
      rsp := s.rsp ++ (encodeEnd s.run s.afterFull).map .out ++ [.done (bareDone 0x0)] } :=
  calc exec .fenc s
    _ = .next (finish endPlain { s with req := rest }) :=
      (exec_decodeCommand 0x01 s).trans (transact_end hphase hjob hreq)
    _ = .next (endPlain { s with req := rest }) :=
      congrArg _ (finish_within (s := { s with req := rest }) hover endPlain)
    _ = _ := congrArg _ (endPlain_eq (s := { s with req := rest }) hjob)

end

/-- Settles O21: each beat by its own equation. -/
theorem fencBeats : Obligations.FencBeats := by
  intro s rest
  refine ⟨?opening, ?zero, ?nonzero, ?ending⟩
  case opening =>
    intro hphase hreq
    exact exec_fenc_cmd hphase hreq
  case zero =>
    intro hphase hjob hover hcount hreq
    rw [exec_fenc_data hphase hjob hover hcount hreq, takePlain_zero]
    rfl
  case nonzero =>
    intro b hb hphase hjob hover hcount hreq
    rw [exec_fenc_data hphase hjob hover hcount hreq]
    exact ⟨fun hroom => congrArg _ (takePlain_room hb hroom),
      fun hfull => congrArg _ (takePlain_full hb hfull)⟩
  case ending =>
    intro hphase hjob hover hreq
    rw [exec_fenc_end hphase hjob hover hreq]
    refine ⟨fun hpending => ?_, fun hfull => ?_⟩
    · rw [hpending]
      rfl
    · rw [hfull, encodeEnd, if_pos rfl, List.map_nil, List.append_nil]
      rfl

end Sys2Proof.Machine
end

section
/-! SUPPORT. `Dec` by the class of its first code byte (R132 to R135). -/

namespace Sys2Proof.Machine

/-- After a whole block a zero is owed unless the block is a CONT block, and it is sunk if any input follows
(R132, R134). -/
theorem Cursor.decode_after_block (c : Byte) (y : List Byte) :
    (Cursor.mk none 0 (c != 0xFF)).decode y =
      (Cursor.start.decode y).map ((if c ≠ 0xFF ∧ y ≠ [] then [0x00] else []) ++ ·) := by
  by_cases hcont : c = 0xFF
  · rw [hcont, if_neg (fun h => h.1 rfl)]
    exact (map_nil_append _).symm
  · rw [bne_iff_ne.2 hcont, Cursor.decode_owed]
    simp only [ne_eq, hcont, not_false_eq_true, true_and]

/-- BLK.ILL (R133). -/
theorem dec_zeroCode (rest : List Byte) : dec (0x00 :: rest) = .error .zeroCode :=
  (dec_eq_decode _).trans (Cursor.decode_zeroCode false rest)

/-- Truncation (R135). -/
theorem dec_truncated {c : Byte} {rest : List Byte} (hc : c ≠ 0x00)
    (hshort : rest.length < runLength c) : dec (c :: rest) = .error .truncated := by
  rw [dec_eq_decode, Cursor.start_decode_code hc, Cursor.decode_data, if_pos hshort]

/-- BLK.LINK and BLK.CONT, complete (R132, R134). -/
theorem dec_block {c : Byte} {data : List Byte} (hc : c ≠ 0x00)
    (hlength : data.length = runLength c) (rest : List Byte) :
    dec (c :: (data ++ rest)) =
      (dec rest).map ((data ++ if c ≠ 0xFF ∧ rest ≠ [] then [0x00] else []) ++ ·) := by
  rw [dec_eq_decode, dec_eq_decode, Cursor.decode_block hc hlength.symm, Cursor.decode_after_block,
    map_append_append]

/-- Settles O9: one rule for each thing that can stand at a code byte. -/
theorem decodeTakesOneBlockAtATime : Obligations.DecodeTakesOneBlockAtATime := by
  intro c data rest
  refine ⟨dec_zeroCode rest, dec_truncated, fun hc hlength => ?_⟩
  rw [List.cons_append, dec_block hc hlength]
  cases dec rest with
  | ok out => rfl
  | error e => rfl

end Sys2Proof.Machine
end

section
/-! SUPPORT. The payload as a bit string (R52, R85): reading adjoining bytes, single bits, and the words that
one, two and four bytes make, first byte lowest. -/

namespace Sys2Proof.Machine

theorem leNat_append (xs ys : List Byte) :
    leNat (xs ++ ys) = leNat xs + 256 ^ xs.length * leNat ys := by
  induction xs with
  | nil => simp [leNat]
  | cons x xs ih =>
    rw [List.cons_append, leNat, leNat, ih, List.length_cons, pow_succ']
    ring

/-- Bit `i` of a byte sequence is bit `i mod 8` of byte `i div 8`. -/
theorem testBit_leNat (bs : List Byte) (i : Nat) :
    (leNat bs).testBit i = (bs.getD (i / 8) 0).getLsbD (i % 8) := by
  induction bs generalizing i with
  | nil => simp [leNat]
  | cons b bs ih =>
    have hcons : leNat (b :: bs) = 2 ^ 8 * leNat bs + b.toNat := add_comm _ _
    rw [hcons, Nat.testBit_two_pow_mul_add _ b.isLt]
    by_cases hi : i < 8
    · rw [if_pos hi, Nat.div_eq_of_lt hi, Nat.mod_eq_of_lt hi, List.getD_cons_zero]
      rfl
    · obtain ⟨j, rfl⟩ : ∃ j, i = j + 8 := ⟨i - 8, by omega⟩
      rw [if_neg hi, Nat.add_sub_cancel, ih, Nat.add_div_right j (by decide), List.getD_cons_succ,
        Nat.add_mod_right]

/-- The bits of a read of `n` bytes are the payload's own. -/
theorem testBit_memRead (p : List Byte) (a : Nat) {n i : Nat} (hi : i / 8 < n) :
    (memRead p a n).testBit i = (p.getD (a + i / 8) 0).getLsbD (i % 8) := by
  rw [memRead, testBit_leNat, getD_take_drop p a hi]

/-- A byte put below a word is its lowest byte. -/
theorem toNat_append_byte {n : Nat} (x : BitVec n) (b : Byte) :
    (x ++ b).toNat = b.toNat + 256 * x.toNat := by
  rw [BitVec.toNat_append, ← Nat.shiftLeft_add_eq_or_of_lt b.isLt, Nat.shiftLeft_eq]
  omega

theorem memRead_one (b0 : Byte) (tail : List Byte) : memRead (b0 :: tail) 0 1 = b0.toNat := by
  simp [memRead, leNat]

theorem memRead_two (b0 b1 : Byte) (tail : List Byte) :
    memRead (b0 :: b1 :: tail) 0 2 = (b1 ++ b0).toNat := by
  simp [memRead, leNat, toNat_append_byte, -BitVec.toNat_append]

theorem memRead_four (b0 b1 b2 b3 : Byte) (tail : List Byte) :
    memRead (b0 :: b1 :: b2 :: b3 :: tail) 0 4 = (b3 ++ b2 ++ b1 ++ b0).toNat := by
  simp [memRead, leNat, toNat_append_byte, -BitVec.toNat_append]

end Sys2Proof.Machine
end

section
/-! SUPPORT. The type decoders by the length of the payload (R156, R157), what a bitfield reads of it
(R155, R158), and the `VALUE` that each value is packed into (R93). -/

namespace Sys2Proof.Machine

/-! ### The required byte count -/

theorem fixedWidth_short {w : Nat} {p : List Byte} (h : p.length < w) (value : Nat → Value) :
    fixedWidth w value p = .error (.shortPayload w) := if_pos h

theorem fixedWidth_long {w : Nat} {p : List Byte} (h : w ≤ p.length) (value : Nat → Value) :
    fixedWidth w value p = .ok (value (memRead p 0 w)) := if_neg (not_lt.2 h)

/-- A decoder of width `w` reads the first `w` bytes alone, to tell a short payload as well (R157). -/
theorem fixedWidth_congr_take {w : Nat} {p q : List Byte} (h : q.take w = p.take w)
    (value : Nat → Value) : fixedWidth w value q = fixedWidth w value p := by
  have hlength : q.length < w ↔ p.length < w := by
    have hmin := congrArg List.length h
    simp only [List.length_take] at hmin
    omega
  simp only [fixedWidth, memRead, List.drop_zero, h, hlength]

/-- A type with a required byte count has a decoder of that width (R156). -/
theorem typeDecode_eq_fixedWidth {tb : Tables} {t : TypeRef} {w : Nat}
    (h : requiredBytes tb t = some w) :
    ∃ value, ∀ p, typeDecode tb t p = some (fixedWidth w value p) := by
  cases t with
  | scalar s =>
    obtain rfl : scalarWidth s = w := Option.some.inj h
    cases s <;> exact ⟨_, fun _ => rfl⟩
  | bitfield sel =>
    obtain ⟨flags, hflags, rfl⟩ := Option.map_eq_some_iff.1 h
    exact ⟨_, fun p => by rw [typeDecode, hflags, Option.map_some]; rfl⟩
  | unknown tag => exact absurd h nofun

/-- Settles O14: a type with a required byte count has a decoder of that width, which looks at no more of the
payload. -/
theorem shortPayloadsFailAndTrailingBytesAreIgnored :
    Obligations.ShortPayloadsFailAndTrailingBytesAreIgnored := by
  intro tb t p
  refine ⟨fun w hw => ?_, ?_⟩
  · obtain ⟨value, hvalue⟩ := typeDecode_eq_fixedWidth hw
    refine ⟨fun hshort => ?_, fun hlong => ⟨value (memRead p 0 w), ?_, fun q hq => ?_⟩⟩
    · rw [hvalue, fixedWidth_short hshort]
    · rw [hvalue, fixedWidth_long hlong]
    · rw [hvalue, fixedWidth_congr_take hq, fixedWidth_long hlong]
  · rintro tag rfl
    rfl

/-! ### Bitfields -/

/-- Flags are read from the low bits of the integer alone, one bit for each. -/
theorem flagValues_congr {flags : List Ident} {u u' : Nat}
    (h : u % 2 ^ flags.length = u' % 2 ^ flags.length) :
    flagValues flags u = flagValues flags u' := by
  rw [← flagValues_mod, h, flagValues_mod]

/-- Bit `i` of `VALUE` is bit `i` of the integer where there is a flag `i`, and zero elsewhere (R93,
R155). -/
theorem getLsbD_packValue_flagValues (flags : List Ident) (u i : Nat) :
    (packValue (.flags (flagValues flags u))).getLsbD i =
      (decide (i < 32) && (decide (i < flags.length) && u.testBit i)) := by
  rw [packValue, BitVec.getLsbD_ofNat, packFlags_flagValues, Nat.testBit_mod_two_pow]

/-- The read of a bitfield whose last byte is `b`. -/
theorem memRead_low_append (low : List Byte) (b : Byte) (tail : List Byte) :
    memRead (low ++ b :: tail) 0 (low.length + 1) = leNat low + 256 ^ low.length * b.toNat := by
  have htake : (low ++ b :: tail).take (low.length + 1) = low ++ [b] := by
    simp [List.take_append]
  rw [memRead, List.drop_zero, htake, leNat_append]
  simp [leNat]

/-- A bitfield of whole low bytes and a last byte `b`, with whatever follows it. -/
theorem decodeBf_low_append {flags : List Ident} {low : List Byte}
    (hbytes : low.length + 1 = flagBytes flags.length) (b : Byte) (tail : List Byte) :
    decodeBf flags (low ++ b :: tail) =
      .ok (.flags (flagValues flags (leNat low + 256 ^ low.length * b.toNat))) := by
  rw [decodeBf, ← hbytes, fixedWidth_long (by simp), memRead_low_append]

/-- Settles O15: modulo `2^n` the integer of the payload depends on the low `n mod 8` bits of the last byte
alone. -/
theorem unusedBitfieldBitsAreIgnored : Obligations.UnusedBitfieldBitsAreIgnored := by
  intro flags low b b' tail tail' hpartial hbytes hb
  rw [decodeBf_low_append hbytes, decodeBf_low_append hbytes]
  refine ⟨?same, ?high⟩
  case same =>
    have hpow : 2 ^ flags.length = 256 ^ low.length * 2 ^ (flags.length % 8) := by
      rw [show (256 : Nat) = 2 ^ 8 from rfl, ← pow_mul, ← pow_add]
      congr 1
      omega
    have hmod : leNat low + 256 ^ low.length * b.toNat ≡
        leNat low + 256 ^ low.length * b'.toNat [MOD 2 ^ flags.length] := by
      rw [hpow]
      exact (Nat.ModEq.mul_left' _ hb).add_left _
    rw [flagValues_congr hmod]
  case high =>
    intro v hv i hi
    rw [← Except.ok.inj hv, getLsbD_packValue_flagValues, decide_eq_false (not_lt.2 hi),
      Bool.false_and, Bool.and_false]

/-! ### `VALUE` of the scalar types -/

/-- An unsigned word is zero-extended. -/
theorem packValue_num_toNat {n : Nat} (x : BitVec n) :
    packValue (.num x.toNat) = x.setWidth 32 := by
  rw [packValue, BitVec.ofInt_natCast, BitVec.ofNat_toNat]

/-- The reading of R82 is two's complement. -/
theorem signed16_toNat (x : BitVec 16) : signed16 x.toNat = x.toInt := by
  rw [signed16, BitVec.toInt_eq_toNat_cond]
  split <;> split <;> omega

/-- A signed word is sign-extended. -/
theorem packValue_signed16 (x : BitVec 16) :
    packValue (.num (signed16 x.toNat)) = x.signExtend 32 := by
  rw [packValue, signed16_toNat]
  rfl

end Sys2Proof.Machine
end

section
/-! SUPPORT. The typed-field decoders as steps (R150 to R160): what finishing a type decode makes of the
state, once for all of them, then each instruction by its decoder. -/

namespace Sys2Proof.Machine

/-! ### Each instruction by its decoder -/

theorem exec_tdU8 (s : State) :
    exec .tdU8 s = fieldDecode 0x0 0 (fixedWidth 1 fun u => .num u) s := rfl

theorem exec_tdU16 (s : State) :
    exec .tdU16 s = fieldDecode 0x1 0 (fixedWidth 2 fun u => .num u) s := rfl

theorem exec_tdI16 (s : State) :
    exec .tdI16 s = fieldDecode 0x2 0 (fixedWidth 2 fun u => .num (signed16 u)) s := rfl

theorem exec_tdU32 (s : State) :
    exec .tdU32 s = fieldDecode 0x3 0 (fixedWidth 4 fun u => .num u) s := rfl

theorem exec_tdF32 (s : State) :
    exec .tdF32 s = fieldDecode 0x4 0 (fixedWidth 4 fun u => .f32 (BitVec.ofNat 32 u)) s := rfl

theorem exec_tdRaw (s : State) : exec .tdRaw s = fieldDecode 0xF 0 decodeRaw s := rfl

theorem exec_tdBf {s : State} {sel : Byte} {flags : List Ident}
    (h : bfLookup s.tables sel = some flags) :
    exec (.tdBf sel) s = fieldDecode 0x8 sel
      (fixedWidth (flagBytes flags.length) fun u => .flags (flagValues flags u)) s := by
  simp only [exec, execTdBf, h]
  rfl

/-! ### Finishing a type decode -/

section
variable {s : State} {reg : Byte} {p : List Byte} {e : RegistryEntry}

theorem fieldDecode_of_job (hjob : s.job = some ⟨reg, p, e⟩) (tt : Nibble) (bfsel : Byte)
    (decoder : List Byte → Except SoftError Value) :
    fieldDecode tt bfsel decoder s = .next (reportField tt bfsel ⟨reg, p, e⟩ (decoder p) s) := by
  rw [fieldDecode, hjob]

/-- A payload that is long enough: the success record, with no `OUT` beats as no such value is raw. -/
theorem fieldDecode_long (hjob : s.job = some ⟨reg, p, e⟩) {w : Nat} (hlong : w ≤ p.length)
    {value : Nat → Value} (hraw : ∀ u bs, value u ≠ .raw bs) (tt : Nibble) (bfsel : Byte) :
    fieldDecode tt bfsel (fixedWidth w value) s = .next { s with
      phase := .idle, job := none
      rsp := s.rsp ++
        [.done ⟨0x1, reg, 0, tt, bfsel, e.name, packValue (value (memRead p 0 w))⟩] } := by
  rw [fieldDecode_of_job hjob, fixedWidth_long hlong, reportField, recordOf, report,
    reportBytes_eq_nil (hraw _), List.map_nil, List.append_nil]
  rfl

/-- A payload that is too short: the failure record with the required byte count (R186). -/
theorem fieldDecode_short (hjob : s.job = some ⟨reg, p, e⟩) {w : Nat} (hshort : p.length < w)
    (value : Nat → Value) (tt : Nibble) (bfsel : Byte) :
    fieldDecode tt bfsel (fixedWidth w value) s = .next { s with
      phase := .idle, job := none
      rsp := s.rsp ++ [.done ⟨0x5, reg, BitVec.ofNat 8 w, 0, 0, "", 0⟩] } := by
  rw [fieldDecode_of_job hjob, fixedWidth_short hshort, reportField, recordOf, report]
  simp [reportBytes, packDone]

end

/-- Settles O27: the read of one byte, zero-extended. -/
theorem tdU8Reports : Obligations.TdU8Reports := by
  intro s reg p e hjob
  refine ⟨?long, ?short⟩
  case long =>
    rintro b0 tail rfl
    rw [exec_tdU8, fieldDecode_long hjob (by simp) (by simp), memRead_one, packValue_num_toNat]
  case short =>
    rintro rfl
    exact fieldDecode_short hjob (by decide) _ _ _

/-- Settles O28: the same two bytes, zero-extended and sign-extended. -/
theorem tdU16AndI16Report : Obligations.TdU16AndI16Report := by
  intro s reg p e hjob
  refine ⟨?long, fun hshort => ?short⟩
  case long =>
    rintro b0 b1 tail rfl
    constructor
    · rw [exec_tdU16, fieldDecode_long hjob (by simp) (by simp), memRead_two, packValue_num_toNat]
    · rw [exec_tdI16, fieldDecode_long hjob (by simp) (by simp), memRead_two, packValue_signed16]
  case short =>
    have hreport := fieldDecode_short hjob (Nat.lt_succ_of_le hshort)
    exact List.forall_mem_cons.2 ⟨hreport _ _ _, List.forall_mem_singleton.2 (hreport _ _ _)⟩

/-- Settles O29: the same four bytes, as an integer and as a pattern. -/
theorem tdU32AndF32Report : Obligations.TdU32AndF32Report := by
  intro s reg p e hjob
  refine ⟨?long, fun hshort => ?short⟩
  case long =>
    rintro b0 b1 b2 b3 tail rfl
    constructor
    · rw [exec_tdU32, fieldDecode_long hjob (by simp) (by simp), memRead_four, packValue_num_toNat,
        BitVec.setWidth_eq]
    · rw [exec_tdF32, fieldDecode_long hjob (by simp) (by simp), memRead_four, packValue,
        BitVec.ofNat_toNat, BitVec.setWidth_eq]
  case short =>
    have hreport := fieldDecode_short hjob (Nat.lt_succ_of_le hshort)
    exact List.forall_mem_cons.2 ⟨hreport _ _ _, List.forall_mem_singleton.2 (hreport _ _ _)⟩

/-- Settles O30: bit `i` of `VALUE` is bit `i` of the read, which is a payload bit wherever there is a
flag. -/
theorem tdBfReports : Obligations.TdBfReports := by
  intro s sel reg p e name flags hjob htype hlength hnodup
  have hlookup : bfLookup s.tables sel = some flags :=
    (bfLookup_eq_some _ _ _).2
      ⟨⟨name, flags⟩, htype, by simp [BitfieldType.wf, hlength, hnodup], rfl⟩
  rw [exec_tdBf hlookup]
  refine ⟨fun hlong => ⟨_, fieldDecode_long hjob hlong (by simp) _ _, fun i => ?_⟩,
    fun hshort => fieldDecode_short hjob hshort _ _ _⟩
  rw [getLsbD_packValue_flagValues]
  by_cases hi : i < flags.length
  · have hbyte : i / 8 < (flags.length + 7) / 8 := by omega
    rw [testBit_memRead p 0 hbyte, decide_eq_true (hi.trans_le hlength), Bool.true_and, Nat.zero_add]
  · simp only [hi, decide_false, Bool.false_and, Bool.and_false]

/-- Settles O31: the decoder of the raw fallback has no failure, and a raw value is its own `OUT` bytes. -/
theorem tdRawReports : Obligations.TdRawReports := by
  intro s reg p e hjob
  rw [exec_tdRaw, fieldDecode_of_job hjob]
  rfl

end Sys2Proof.Machine
end

section
/-! SUPPORT. The register decoder by the three tests of `RegDecode` (R181): the shape test, the lookup, the
type decode. An unknown register is `regDecode_unknown`. -/

namespace Sys2Proof.Machine

section
variable {tb : Tables} {sel : MapSel}

/-- A message without a payload byte is answered before any lookup (R182). -/
theorem regDecode_of_length_lt_two {m : List Byte} (h : m.length < 2) :
    regDecode tb sel m = some .null := by
  match m with
  | [] => rfl
  | [_] => rfl
  | _ :: _ :: m => exact absurd h (by simp)

/-- Where an entry is found, the type decode of the payload gives the record (R184, R185, R186). -/
theorem regDecode_of_typeDecode {id b : Byte} {p : List Byte} {e : RegistryEntry}
    {r : Except SoftError Value} (hlookup : mapLookup tb sel id = some e)
    (hdecode : typeDecode tb e.type (b :: p) = some r) :
    regDecode tb sel (id :: b :: p) = some (.record (recordOf id e.name r)) := by
  simp only [regDecode, hlookup, hdecode, Option.map_some]

end

/-- Settles O16: the first two rows are the shape test and the lookup; in the others an entry is found, and
the row is the one of its type decode (R156, R160). -/
theorem registerDecodeDecisionTable : Obligations.RegisterDecodeDecisionTable := by
  intro tb sel m id p e
  refine ⟨regDecode_of_length_lt_two, ?unknown, ?found⟩
  case unknown =>
    rintro rfl hpayload hlookup
    obtain ⟨b, q, rfl⟩ := List.exists_cons_of_length_pos hpayload
    exact regDecode_unknown hlookup b q
  case found =>
    rintro rfl hpayload hlookup
    obtain ⟨b, q, rfl⟩ := List.exists_cons_of_length_pos hpayload
    obtain ⟨hwidth, hraw⟩ := shortPayloadsFailAndTrailingBytesAreIgnored tb e.type (b :: q)
    refine ⟨fun w hw => ?_, fun tag htag => regDecode_of_typeDecode hlookup (hraw tag htag)⟩
    obtain ⟨hshort, hlong⟩ := hwidth w hw
    refine ⟨fun hlt => regDecode_of_typeDecode hlookup (hshort hlt), fun hle => ?_⟩
    obtain ⟨v, hv, -⟩ := hlong hle
    exact ⟨v, hv, regDecode_of_typeDecode hlookup hv⟩

end Sys2Proof.Machine
end

section
/-! SUPPORT. A frame as blocks (R70, R76): every frame is whole blocks and then nothing, an illegal code byte
or an incomplete block, and `Dec` fails at exactly the last two (R213, R214). -/

namespace Sys2Proof.Machine

/-- A concatenation of blocks (R70, R71). -/
inductive WholeBlocks : List Byte → Prop where
  | nil : WholeBlocks []
  | block {c : Byte} {data rest : List Byte} (hc : c ≠ 0x00) (hdata : data.length = runLength c)
      (hrest : WholeBlocks rest) : WholeBlocks (c :: (data ++ rest))

/-! ### The frame read as blocks -/

/-- Reading blocks succeeds on concatenations of blocks, with a turn for each byte to spare. -/
theorem blocksLoop_isSome_iff {turns : Nat} {f : List Byte} (hturns : f.length ≤ turns) :
    (blocksLoop turns f).isSome = true ↔ WholeBlocks f := by
  induction turns generalizing f with
  | zero =>
    rw [List.length_eq_zero_iff.1 (Nat.le_zero.1 hturns)]
    exact iff_of_true rfl .nil
  | succ turns ih =>
    cases f with
    | nil => exact iff_of_true rfl .nil
    | cons c rest =>
      have hlater : (rest.drop (runLength c)).length ≤ turns := by
        simp at hturns ⊢
        omega
      rw [blocksLoop]
      by_cases hbad : c = 0x00 ∨ rest.length < runLength c
      · rw [if_pos hbad]
        refine iff_of_false Bool.false_ne_true fun hwhole => ?_
        cases hwhole with
        | block hc hdata hrest =>
          rw [List.length_append] at hbad
          exact hbad.elim hc (by omega)
      · obtain ⟨hc, hlong⟩ := not_or.1 hbad
        rw [if_neg hbad, Option.isSome_map, ih hlater]
        constructor
        · intro hrest
          have hdata : (rest.take (runLength c)).length = runLength c :=
            List.length_take_of_le (not_lt.1 hlong)
          rw [← List.take_append_drop (runLength c) rest]
          exact .block hc hdata hrest
        · intro hwhole
          cases hwhole with
          | block _ hdata hrest => rwa [← hdata, List.drop_left]

theorem blocks_isSome_iff (f : List Byte) : (blocks f).isSome = true ↔ WholeBlocks f :=
  blocksLoop_isSome_iff le_rfl

/-- What can stand where the whole blocks of a frame end. -/
theorem exists_wholeBlocks_append (f : List Byte) :
    ∃ pre tail, f = pre ++ tail ∧ WholeBlocks pre ∧
      (tail = [] ∨ (∃ rest, tail = 0x00 :: rest) ∨
        ∃ c rest, tail = c :: rest ∧ c ≠ 0x00 ∧ rest.length < runLength c) := by
  induction hn : f.length using Nat.strong_induction_on generalizing f with
  | _ n ih =>
    cases f with
    | nil => exact ⟨[], [], rfl, .nil, .inl rfl⟩
    | cons c rest =>
      by_cases hc : c = 0x00
      · exact ⟨[], _, rfl, .nil, .inr (.inl ⟨rest, by rw [hc]⟩)⟩
      by_cases hshort : rest.length < runLength c
      · exact ⟨[], _, rfl, .nil, .inr (.inr ⟨c, rest, rfl, hc, hshort⟩)⟩
      have hlater : (rest.drop (runLength c)).length < n := by
        simp at hn ⊢
        omega
      obtain ⟨pre, tail, hsplit, hpre, htail⟩ := ih _ hlater _ rfl
      have hdata : (rest.take (runLength c)).length = runLength c :=
        List.length_take_of_le (not_lt.1 hshort)
      refine ⟨_, tail, ?_, .block hc hdata hpre, htail⟩
      rw [List.cons_append, List.append_assoc, ← hsplit, List.take_append_drop]

/-! ### `Dec` past whole blocks -/

/-- A frame of whole blocks decodes. -/
theorem WholeBlocks.dec_ok {f : List Byte} (h : WholeBlocks f) : ∃ out, dec f = .ok out := by
  induction h with
  | nil => exact ⟨[], rfl⟩
  | block hc hdata _ ih =>
    obtain ⟨out, hout⟩ := ih
    rw [dec_block hc hdata, hout]
    exact ⟨_, rfl⟩

/-- A hard failure after whole blocks is the frame's. -/
theorem WholeBlocks.dec_append_error {pre tail : List Byte} {cause : Cause} (h : WholeBlocks pre)
    (htail : dec tail = .error cause) : dec (pre ++ tail) = .error cause := by
  induction h with
  | nil => exact htail
  | block hc hdata _ ih =>
    rw [List.cons_append, List.append_assoc, dec_block hc hdata, ih]
    rfl

/-- What a frame decodes to, by what stands where its whole blocks end. -/
theorem dec_cases (f : List Byte) :
    (WholeBlocks f ∧ ∃ out, dec f = .ok out) ∨
    ((∃ pre rest, f = pre ++ 0x00 :: rest ∧ WholeBlocks pre) ∧ dec f = .error .zeroCode) ∨
    ((∃ pre c rest, f = pre ++ c :: rest ∧ WholeBlocks pre ∧ c ≠ 0x00 ∧
      rest.length < runLength c) ∧ dec f = .error .truncated) := by
  obtain ⟨pre, tail, rfl, hpre, rfl | ⟨rest, rfl⟩ | ⟨c, rest, rfl, hc, hshort⟩⟩ :=
    exists_wholeBlocks_append f
  · rw [List.append_nil]
    exact .inl ⟨hpre, hpre.dec_ok⟩
  · exact .inr (.inl ⟨⟨pre, rest, rfl, hpre⟩, hpre.dec_append_error (dec_zeroCode rest)⟩)
  · exact .inr (.inr ⟨⟨pre, c, rest, rfl, hpre, hc, hshort⟩,
      hpre.dec_append_error (dec_truncated hc hshort)⟩)

theorem dec_ok_iff (f : List Byte) : (∃ out, dec f = .ok out) ↔ WholeBlocks f := by
  refine ⟨fun ⟨out, hout⟩ => ?_, WholeBlocks.dec_ok⟩
  obtain ⟨hwhole, -⟩ | ⟨-, hzero⟩ | ⟨-, hshort⟩ := dec_cases f
  · exact hwhole
  · exact absurd (hout.symm.trans hzero) nofun
  · exact absurd (hout.symm.trans hshort) nofun

theorem dec_zeroCode_iff (f : List Byte) : dec f = .error .zeroCode ↔
    ∃ pre rest, f = pre ++ 0x00 :: rest ∧ WholeBlocks pre := by
  constructor
  · intro hzero
    obtain ⟨-, out, hout⟩ | ⟨hsplit, -⟩ | ⟨-, hshort⟩ := dec_cases f
    · exact absurd (hout.symm.trans hzero) nofun
    · exact hsplit
    · exact absurd (hshort.symm.trans hzero) nofun
  · rintro ⟨pre, rest, rfl, hpre⟩
    exact hpre.dec_append_error (dec_zeroCode rest)

theorem dec_truncated_iff (f : List Byte) : dec f = .error .truncated ↔
    ∃ pre c rest, f = pre ++ c :: rest ∧ WholeBlocks pre ∧ c ≠ 0x00 ∧
      rest.length < runLength c := by
  constructor
  · intro hshort
    obtain ⟨-, out, hout⟩ | ⟨-, hzero⟩ | ⟨hsplit, -⟩ := dec_cases f
    · exact absurd (hout.symm.trans hshort) nofun
    · exact absurd (hzero.symm.trans hshort) nofun
    · exact hsplit
  · rintro ⟨pre, c, rest, rfl, hpre, hc, hshort⟩
    exact hpre.dec_append_error (dec_truncated hc hshort)

/-- Settles O10: whole blocks pass, and what stands after them decides. -/
theorem framesFailExactlyAtBadBlocks : Obligations.FramesFailExactlyAtBadBlocks := by
  refine ⟨fun f => ?_, dec_zeroCode [], dec_truncated (by decide) (by decide)⟩
  simp only [blocks_isSome_iff]
  exact ⟨dec_ok_iff f, dec_zeroCode_iff f, dec_truncated_iff f⟩

end Sys2Proof.Machine
end

section
/-! SUPPORT. The requests that the block refuses (R225): each command's beats by its three parts, and the
answer to a refused transaction. -/

namespace Sys2Proof.Machine

/-! ### The beats of a command -/

section
variable {s : State} {rest : List HostEvent}

theorem exec_command_cmd (w : Byte) {w' : Byte} (hphase : s.phase = .idle)
    (hreq : s.req = .cmd w' :: rest) :
    exec (decodeCommand w) s = .next (commandOpen (decodeCommand w) { s with req := rest }) :=
  (exec_decodeCommand w s).trans (transact_cmd hphase hreq)

theorem exec_command_data (w : Byte) {b : Byte} (hphase : s.phase = .opened) (hjob : s.job = none)
    (hreq : s.req = .data b :: rest) :
    exec (decodeCommand w) s = .next (commandData (decodeCommand w) b { s with req := rest }) :=
  (exec_decodeCommand w s).trans (transact_data hphase hjob hreq)

theorem exec_command_end (w : Byte) (hphase : s.phase = .opened) (hjob : s.job = none)
    (hreq : s.req = .endIn :: rest) :
    exec (decodeCommand w) s = .next (commandEnd (decodeCommand w) { s with req := rest }) :=
  (exec_decodeCommand w s).trans (transact_end hphase hjob hreq)

/-- The answer to a refused transaction is its `DONE` beat alone. -/
theorem conclude_refused (hjob : s.job = none) (why : RefusedWhy) :
    conclude (.refused why) s = { s with
      phase := .idle, rsp := s.rsp ++ [.done (packDone 0 0 (.refused why))] } := by
  simp [conclude, report, reportBytes, hjob]

end

/-- Each of the six operations has a legal command word (R89). -/
theorem exists_legalCommand {i : Instr}
    (hi : i ∈ [Instr.fenc, .fdec, .rdecT, .rdecM, .rxdecT, .rxdecM]) :
    ∃ w, legalCommand w = true ∧ decodeCommand w = i := by
  simp only [List.mem_cons, List.not_mem_nil, or_false] at hi
  obtain rfl | rfl | rfl | rfl | rfl | rfl := hi
  · exact ⟨0x01, rfl, rfl⟩
  · exact ⟨0x02, rfl, rfl⟩
  · exact ⟨0x03, rfl, rfl⟩
  · exact ⟨0x0B, rfl, rfl⟩
  · exact ⟨0x04, rfl, rfl⟩
  · exact ⟨0x0C, rfl, rfl⟩

/-- Settles O26: RSVD.CMD by its three parts; every other command by the length bound that its parts share. -/
theorem refusedRequestBeats : Obligations.RefusedRequestBeats := by
  intro s rest
  refine ⟨fun w hw => ?reserved, fun i hi hphase hjob => ?tooLong, fun outs =>
    ⟨unpackDone_refused s.tables outs .cmd, unpackDone_refused s.tables outs .length⟩⟩
  case reserved =>
    rw [← decodeCommand_reserved hw]
    refine ⟨fun hphase hreq => ?opening, fun b hphase hjob hreq => ?data,
      fun hphase hjob hreq => ?ending⟩
    case opening =>
      refine ⟨_, exec_command_cmd w hphase hreq, commandOpen_phase w _, commandOpen_job _ _, ?_,
        commandOpen_rsp _ _, ?_, ?_⟩
      · exact (commandOpen_keeps _ _).req
      · exact (commandOpen_keeps _ _).tables
      · exact (commandOpen_keeps _ _).maxLen
    case data =>
      rw [exec_command_data w hphase hjob hreq, decodeCommand_reserved hw]
      rfl
    case ending =>
      rw [exec_command_end w hphase hjob hreq, decodeCommand_reserved hw]
      exact congrArg _ (conclude_refused (s := { s with req := rest }) hjob .cmd)
  case tooLong =>
    obtain ⟨w, hw, rfl⟩ := exists_legalCommand hi
    obtain ⟨take, onEnd, -, hdata, hend⟩ := legalCommand_parts hw
    refine ⟨fun b hover hcount hreq => ?atBound, fun b hover hreq => ?beyond,
      fun hover hreq => ?ending⟩
    case atBound =>
      rw [exec_command_data w hphase hjob hreq, hdata]
      exact congrArg _ (receive_full (s := { s with req := rest }) hover hcount.not_lt take b)
    case beyond =>
      rw [exec_command_data w hphase hjob hreq, hdata]
      exact congrArg _ (receive_over (s := { s with req := rest }) hover take b)
    case ending =>
      rw [exec_command_end w hphase hjob hreq, hend]
      calc Host.Outcome.next (finish onEnd { s with req := rest })
        _ = .next (conclude (.refused .length) { s with req := rest }) :=
          congrArg _ (finish_over (s := { s with req := rest }) hover onEnd)
        _ = _ := congrArg _ (conclude_refused (s := { s with req := rest }) hjob .length)

end Sys2Proof.Machine
end

section
/-! SUPPORT. The order of priority of the outcomes (R220): what each legal command word asks for once its input
is within the bound. -/

namespace Sys2Proof.Machine

section
variable {tb : Tables} {maxLen : Nat} {w : Byte} {x : List Byte}

theorem transactionOutcome_fenc (hx : x.length ≤ maxLen) :
    transactionOutcome tb maxLen 0x01 x = some (.bytes (enc x)) := by
  simp [transactionOutcome, hx.not_gt]

theorem transactionOutcome_fdec (hx : x.length ≤ maxLen) {out : List Byte} (hdec : dec x = .ok out) :
    transactionOutcome tb maxLen 0x02 x = some (.bytes out) := by
  simp [transactionOutcome, hx.not_gt, hdec]

/-- A hard failure of the frame comes before anything its message would answer. -/
theorem transactionOutcome_hardFail (hx : x.length ≤ maxLen) {c : Cause}
    (hw : w = 0x02 ∨ w = 0x04 ∨ w = 0x0C) (hdec : dec x = .error c) :
    transactionOutcome tb maxLen w x = some (.hardFail c) := by
  obtain rfl | rfl | rfl := hw <;> simp [transactionOutcome, rxDecode, hx.not_gt, hdec]

/-- Past the framing, the outcome is the register decoder's answer on the message. -/
theorem transactionOutcome_record (hx : x.length ≤ maxLen) {sel : MapSel} {m : List Byte}
    (hm : (w = 0x03 ∧ sel = .tile ∧ m = x) ∨ (w = 0x0B ∧ sel = .master ∧ m = x) ∨
      (w = 0x04 ∧ sel = .tile ∧ dec x = .ok m) ∨ (w = 0x0C ∧ sel = .master ∧ dec x = .ok m)) :
    transactionOutcome tb maxLen w x = regDecode tb sel m := by
  obtain ⟨rfl, rfl, rfl⟩ | ⟨rfl, rfl, rfl⟩ | ⟨rfl, rfl, hdec⟩ | ⟨rfl, rfl, hdec⟩ := hm
  · simp [transactionOutcome, hx.not_gt]
  · simp [transactionOutcome, hx.not_gt]
  · simp [transactionOutcome, rxDecode, hx.not_gt, hdec]
  · simp [transactionOutcome, rxDecode, hx.not_gt, hdec]

end

/-- Settles O50: the command word, the length, the frame, then the three tests of `RegDecode`. -/
theorem outcomesFollowThePriority : Obligations.OutcomesFollowThePriority := by
  intro tb maxLen w x
  refine ⟨transactionOutcome_reserved tb maxLen x, transactionOutcome_overLength tb,
    fun _ hx => ⟨?fenc, fun c => transactionOutcome_hardFail hx, ?fdec, fun sel m hm => ?record⟩⟩
  case fenc =>
    rintro rfl
    exact transactionOutcome_fenc hx
  case fdec =>
    rintro out rfl hdec
    exact transactionOutcome_fdec hx hdec
  case record =>
    rw [transactionOutcome_record hx hm]
    refine ⟨regDecode_of_length_lt_two, ?_⟩
    rintro id b p rfl
    refine ⟨fun hlookup => regDecode_unknown hlookup b p, fun e hlookup => ⟨?_, ?_⟩⟩
    · exact fun n hshort => regDecode_of_typeDecode hlookup hshort
    · exact fun v hvalue => regDecode_of_typeDecode hlookup hvalue

end Sys2Proof.Machine
end

section
/-! SUPPORT. That `END` is always answered (R255): over well-formed tables the register decoder has an answer
for every message (R28), so an open transaction of any command is answered from wherever it stands. -/

namespace Sys2Proof.Machine

/-! ### What well-formed tables have at hand (R28) -/

/-- The entry that a lookup finds in well-formed tables has a well-formed type. -/
theorem mapLookup_type_wf {tb : Tables} (hwf : tb.wf = true) {sel : MapSel} {id : Byte}
    {e : RegistryEntry} (hlookup : mapLookup tb sel id = some e) :
    e.type.wf tb.bfTable = true := by
  simp only [Tables.wf, Bool.and_eq_true, List.all_eq_true] at hwf
  obtain ⟨⟨⟨⟨-, htile⟩, hmaster⟩, -⟩, -⟩ := hwf
  obtain ⟨before, after, hsplit, -⟩ := List.lookup_eq_some_iff.1 hlookup
  have hmem : (id, e) ∈ tableOf tb sel := by simp [hsplit]
  cases sel with
  | tile => exact htile _ hmem
  | master => exact hmaster _ hmem

/-- Every bitfield type of well-formed tables is well-formed. -/
theorem bfTable_wf {tb : Tables} (hwf : tb.wf = true) {t : BitfieldType} (ht : t ∈ tb.bfTable) :
    t.wf = true := by
  simp only [Tables.wf, Bool.and_eq_true, List.all_eq_true] at hwf
  obtain ⟨⟨-, htypes⟩, -⟩ := hwf
  exact htypes t ht

/-- A selector in range of well-formed tables has its flag names. -/
theorem exists_bfLookup {tb : Tables} (hwf : tb.wf = true) {sel : Byte}
    (hsel : sel.toNat < tb.bfTable.length) : ∃ flags, bfLookup tb sel = some flags :=
  ⟨_, (bfLookup_eq_some tb sel _).2
    ⟨_, List.getElem?_eq_getElem hsel, bfTable_wf hwf (List.getElem_mem hsel), rfl⟩⟩

/-- A well-formed type of well-formed tables is decoded, to a value or to a soft failure. -/
theorem exists_typeDecode {tb : Tables} (hwf : tb.wf = true) {t : TypeRef}
    (ht : t.wf tb.bfTable = true) (p : List Byte) : ∃ r, typeDecode tb t p = some r := by
  match t with
  | .scalar .uint8 | .scalar .uint16 | .scalar .int16 | .scalar .uint32 | .scalar .float32
  | .unknown _ => exact ⟨_, rfl⟩
  | .bitfield sel =>
    obtain ⟨flags, hflags⟩ := exists_bfLookup hwf (of_decide_eq_true ht)
    exact ⟨decodeBf flags p, by rw [typeDecode, hflags]; rfl⟩

/-- Over well-formed tables the register decoder has an answer for every message. -/
theorem exists_regAnswer {tb : Tables} (hwf : tb.wf = true) (sel : MapSel) (m : List Byte) :
    ∃ tt bfsel o, regAnswer tb sel m = some (tt, bfsel, o) := by
  match m with
  | [] => exact ⟨_, _, _, rfl⟩
  | [_] => exact ⟨_, _, _, rfl⟩
  | id :: b :: p =>
    cases hlookup : mapLookup tb sel id with
    | none => simp [regAnswer, hlookup]
    | some e =>
      obtain ⟨r, hr⟩ := exists_typeDecode hwf (mapLookup_type_wf hwf hlookup) (b :: p)
      simp [regAnswer, hlookup, hr]

/-! ### Every open transaction is answered -/

section
variable {i : Instr} {w : Byte} {x : List Byte} {rest : List HostEvent} {s : State}

/-- RDEC answers whatever message it has. -/
theorem exists_answers_rdec (hwf : s.tables.wf = true) (h : Within i x rest s)
    (hdata : commandData i = receive takeMessage) (hend : commandEnd i = finish lookupMessage) :
    ∃ outs d, Answers (x.length + 1) outs d rest s := by
  obtain ⟨_, _, _, hanswer⟩ := exists_regAnswer hwf s.map (s.msg ++ x)
  exact ⟨_, _, answers_rdec h hdata hend hanswer⟩

/-- RXDEC answers whatever frame it has: its message, or the hard failure. -/
theorem exists_answers_rxdec (hwf : s.tables.wf = true) (h : Within i x rest s)
    (hdata : commandData i = receive (takeFramed sinkMessage))
    (hend : commandEnd i = finish (endFramed lookupMessage)) :
    ∃ outs d, Answers (x.length + 1) outs d rest s := by
  cases hdecode : s.cursor.decode x with
  | ok m =>
    obtain ⟨_, _, _, hanswer⟩ := exists_regAnswer hwf s.map (s.msg ++ m)
    exact ⟨_, _, answers_rxdec_ok h hdata hend hdecode hanswer⟩
  | error c => exact ⟨_, _, answers_rxdec_error h hdata hend hdecode⟩

/-- Within the bound, every command answers. -/
theorem exists_answers_within (hwf : s.tables.wf = true) (h : Within (decodeCommand w) x rest s) :
    ∃ outs d, Answers (x.length + 1) outs d rest s := by
  rcases decodeCommand_cases w with
    ⟨-, hw⟩ | ⟨-, hw⟩ | ⟨-, hw⟩ | ⟨-, hw⟩ | ⟨-, hw⟩ | ⟨-, hw⟩ | ⟨-, hw⟩ <;> rw [hw] at h
  · exact ⟨_, _, answers_fenc h⟩
  · cases hdecode : s.cursor.decode x with
    | ok out => exact ⟨_, _, answers_fdec_ok h hdecode⟩
    | error c =>
      obtain ⟨outs, houts⟩ := answers_fdec_error h hdecode
      exact ⟨outs, _, houts⟩
  · exact exists_answers_rdec hwf h rfl rfl
  · exact exists_answers_rdec hwf h rfl rfl
  · exact exists_answers_rxdec hwf h rfl rfl
  · exact exists_answers_rxdec hwf h rfl rfl
  · obtain ⟨outs, houts⟩ := answers_refused_cmd h.toReceiving
    exact ⟨outs, _, houts⟩

/-- An open transaction in the ranges is answered once its `END` is taken, within the bound and over it. -/
theorem exists_answers_of_inv (hinv : Inv s) (h : Receiving (underWay s) x rest s) :
    ∃ outs d, Answers (x.length + 1) outs d rest s := by
  have hcount := hinv.countBound h.phase
  cases hlegal : legalCommand (operationWord s.op s.map) with
  | false =>
    have hreserved : underWay s = .rsvdCmd (operationWord s.op s.map) :=
      decodeCommand_reserved hlegal
    obtain ⟨outs, houts⟩ := answers_refused_cmd (hreserved ▸ h)
    exact ⟨outs, _, houts⟩
  | true =>
    by_cases hin : s.overLength = false ∧ s.count + x.length ≤ s.maxLen
    · obtain ⟨hover, hroom⟩ := hin
      exact exists_answers_within hinv.tablesWf ⟨h, hover, hroom⟩
    · obtain ⟨take, onEnd, hkeeps, hdata, hend⟩ := legalCommand_parts hlegal
      have hover : s.overLength = true ∨
          (s.count ≤ s.maxLen ∧ s.maxLen < s.count + x.length) := by
        cases hcase : s.overLength with
        | true => exact .inl rfl
        | false => exact .inr ⟨hcount, not_le.1 fun hroom => hin ⟨hcase, hroom⟩⟩
      obtain ⟨outs, houts⟩ := answers_refused_length h hdata hkeeps hend hover
      exact ⟨outs, _, houts⟩

end

/-- Settles O45: `END` on offer is the end of an open transaction's input, and its answer ends in `DONE`. -/
theorem doneFollowsEndAfterFinitelyManySteps : Obligations.DoneFollowsEndAfterFinitelyManySteps := by
  intro s rest hinv hphase hjob hreq
  have hopen : Receiving (underWay s) [] rest s := ⟨hphase, hjob, rfl, hreq⟩
  obtain ⟨outs, d, t, hsteps, ⟨hidle, hnone⟩, hoffer, -, -, hsent⟩ := exists_answers_of_inv hinv hopen
  exact ⟨_, t, outs, d, hsteps, hidle, hnone, hoffer, hsent⟩

end Sys2Proof.Machine
end

section
/-! SUPPORT. The beats without a meaning (R248), and the block after a reset (R241, R242). -/

namespace Sys2Proof.Machine

section
variable {s : State} {b w : Byte} {rest : List HostEvent}

/-! ### The refusals of the step, by the beat on offer (R248) -/

theorem step_data_idle (hrest : s.atRest) (hreq : s.req = .data b :: rest) :
    step s = .refused .dataWhileIdle := by
  obtain ⟨hphase, hjob⟩ := hrest
  simp only [step_eq, hreq, hjob, hphase]

theorem step_end_idle (hrest : s.atRest) (hreq : s.req = .endIn :: rest) :
    step s = .refused .endWhileIdle := by
  obtain ⟨hphase, hjob⟩ := hrest
  simp only [step_eq, hreq, hjob, hphase]

/-- Also while a type decode is under way. -/
theorem step_cmd_opened (hphase : s.phase = .opened) (hreq : s.req = .cmd w :: rest) :
    step s = .refused .cmdWhileOpen := by
  cases hjob : s.job with
  | none => simp only [step_eq, hreq, hjob, hphase]
  | some j => simp only [step_eq, hreq, hjob]

theorem step_data_afterEnd {j : TypeJob} (hjob : s.job = some j) (hreq : s.req = .data b :: rest) :
    step s = .refused .beatAfterEnd := by
  simp only [step_eq, hreq, hjob]

/-! ### Reset -/

theorem applyReset_atRest (s : State) : (applyReset s).atRest := ⟨rfl, rfl⟩

/-- A block at rest accepts any command word (R242). -/
theorem exists_step_cmd (hrest : s.atRest) (hreq : s.req = .cmd w :: rest) :
    ∃ u, step s = .next u ∧ u.phase = .opened ∧ u.req = rest :=
  ⟨_, step_cmd hrest hreq, commandOpen_phase w _, (commandOpen_keeps _ _).req⟩

end

/-- Settles O35: one refusal of the step for each clause. -/
theorem protocolViolationsAreRefusedByName : Obligations.ProtocolViolationsAreRefusedByName := by
  intro s b w rest
  refine ⟨fun hphase hjob => step_data_idle ⟨hphase, hjob⟩,
    fun hphase hjob => step_end_idle ⟨hphase, hjob⟩, step_cmd_opened, fun hjob => ?_⟩
  obtain ⟨j, hj⟩ := Option.ne_none_iff_exists'.1 hjob
  exact step_data_afterEnd hj

/-- Settles O38: a reset adds only its own mark, at which the host discards its `OUT` bytes, and leaves the
block at rest. -/
theorem resetAbandonsTheTransaction : Obligations.ResetAbandonsTheTransaction := by
  intro s rest hreq
  have hrest := applyReset_atRest { s with req := rest }
  refine ⟨_, [.resetSeen], step_reset hreq, rfl, rfl, rfl, rfl, rfl, rfl, by simp, by simp,
    fun _ _ => rfl, ?cmd, ?data, ?ending⟩
  case cmd =>
    rintro w r rfl
    exact exists_step_cmd hrest rfl
  case data =>
    rintro b r rfl
    exact step_data_idle hrest rfl
  case ending =>
    rintro r rfl
    exact step_end_idle hrest rfl

end Sys2Proof.Machine
end

section
/-! SUPPORT. The decoder and the encoder of each format are inverse to each other (R72, R88, R89, R92, R97),
so every word that the block fetches is the encoding of a well-formed instruction. -/

namespace Sys2Proof

/-! ### Written-out words -/

/-- Settles O1: the decoder is evaluated on the fixed words. -/
theorem wordsOfTheTableDecode : Obligations.WordsOfTheTableDecode :=
  ⟨rfl, rfl, rfl, rfl, rfl, rfl, rfl, rfl, rfl, rfl, rfl, rfl, rfl, rfl, rfl, rfl, rfl, rfl⟩

/-- Settles O4: the six words are evaluated; every other word is reserved (R89). -/
theorem exactlySixCommandWordsAreLegal : Obligations.ExactlySixCommandWordsAreLegal := by
  refine ⟨rfl, rfl, rfl, rfl, rfl, rfl, fun w hw => ?_⟩
  simp only [List.mem_cons, List.not_mem_nil, or_false, not_or] at hw
  exact Machine.decodeCommand_reserved ((Machine.legalCommand_eq_false w).2 hw)

/-! ### Decoding what is encoded -/

/-- A code byte but 0x00 and 0xFF is the operand of BLK.LINK (R72). -/
theorem decodeCode_link {c : Byte} (hzero : c ≠ 0x00) (hcont : c ≠ 0xFF) :
    decodeCode c = .blkLink c := by rw [decodeCode, if_neg hzero, if_neg hcont]

/-- Settles O2: the two rows with a constrained field by the rules for their words; in every other row the
decoder runs on the fixed bytes. -/
theorem decodeOfEncodeIsTheInstruction : Obligations.DecodeOfEncodeIsTheInstruction := by
  intro i hwf
  cases i with
  | blkLink c =>
    simp only [Instr.wf, Bool.and_eq_true, bne_iff_ne] at hwf
    obtain ⟨hzero, hcont⟩ := hwf
    exact congrArg Except.ok (decodeCode_link hzero hcont)
  | rsvdCmd w =>
    have hreserved : legalCommand w = false := by simpa [Instr.wf] using hwf
    exact congrArg Except.ok (Machine.decodeCommand_reserved hreserved)
  | _ => rfl

/-! ### Encoding what is decoded -/

/-- An instruction is what the bytes of a format stand for: it is well-formed, and they are its
encoding. -/
def Instr.Encodes (i : Instr) (f : Format) (bytes : List Byte) : Prop :=
  encode i = (f, bytes) ∧ i.wf = true

theorem decodeCode_encodes (b : Byte) : (decodeCode b).Encodes .stuff [b] := by
  by_cases hzero : b = 0x00
  · rw [hzero]
    exact ⟨rfl, rfl⟩
  by_cases hcont : b = 0xFF
  · rw [hcont]
    exact ⟨rfl, rfl⟩
  rw [decodeCode_link hzero hcont]
  exact ⟨rfl, by rw [Instr.wf, bne_iff_ne.2 hzero, bne_iff_ne.2 hcont]; rfl⟩

theorem decodeCommand_encodes (w : Byte) : (decodeCommand w).Encodes .cmd [w] := by
  rcases Machine.decodeCommand_cases w with
    ⟨rfl, hw⟩ | ⟨rfl, hw⟩ | ⟨rfl, hw⟩ | ⟨rfl, hw⟩ | ⟨rfl, hw⟩ | ⟨rfl, hw⟩ | ⟨hreserved, hw⟩ <;>
    rw [hw]
  case inr.inr.inr.inr.inr.inr => exact ⟨rfl, by rw [Instr.wf, hreserved]; rfl⟩
  all_goals exact ⟨rfl, rfl⟩

/-- A tag that takes no selector decodes beside a zero `BFSEL` alone (R90). -/
theorem encodes_of_withoutSelector {t sel : Byte} {i j : Instr}
    (h : withoutSelector sel i = .ok j) (hi : i.Encodes .tt [t, 0]) : j.Encodes .tt [t, sel] := by
  by_cases hsel : sel = 0
  · rw [withoutSelector, if_pos hsel] at h
    rw [hsel, ← Except.ok.inj h]
    exact hi
  · rw [withoutSelector, if_neg hsel] at h
    exact absurd h nofun

/-- A tag with its `BFSEL` decodes to the instruction that has them for its word (R92). -/
theorem decodeTag_encodes {tag : Nibble} {sel : Byte} {i : Instr} (h : decodeTag tag sel = .ok i) :
    i.Encodes .tt [tag.zeroExtend 8, sel] := by
  unfold decodeTag at h
  split_ifs at h with h0 h1 h2 h3 h4 h8 hF
  · exact encodes_of_withoutSelector h (h0 ▸ ⟨rfl, rfl⟩)
  · exact encodes_of_withoutSelector h (h1 ▸ ⟨rfl, rfl⟩)
  · exact encodes_of_withoutSelector h (h2 ▸ ⟨rfl, rfl⟩)
  · exact encodes_of_withoutSelector h (h3 ▸ ⟨rfl, rfl⟩)
  · exact encodes_of_withoutSelector h (h4 ▸ ⟨rfl, rfl⟩)
  · rw [h8, ← Except.ok.inj h]
    exact ⟨rfl, rfl⟩
  · exact encodes_of_withoutSelector h (hF ▸ ⟨rfl, rfl⟩)

/-- A tag byte whose high bits are zero is its low four bits. -/
theorem zeroExtend_lowNibble {t : Byte} (h : t.extractLsb' 4 4 = 0#4) :
    (t.extractLsb' 0 4).zeroExtend 8 = t := by
  revert t
  decide

/-- Settles O3: in each format, for words of its length; words of another length decode to nothing. -/
theorem encodeOfDecodeIsTheWord : Obligations.EncodeOfDecodeIsTheWord := by
  intro f bytes i h
  match f, bytes with
  | .stuff, [b] => exact Except.ok.inj h ▸ decodeCode_encodes b
  | .cmd, [w] => exact Except.ok.inj h ▸ decodeCommand_encodes w
  | .tt, [t, sel] =>
    by_cases hhigh : t.extractLsb' 4 4 = 0#4
    · rw [decode, if_pos hhigh] at h
      have hencodes := decodeTag_encodes h
      rwa [zeroExtend_lowNibble hhigh] at hencodes
    · rw [decode, if_neg hhigh] at h
      exact absurd h nofun
  | .stuff, [] | .stuff, _ :: _ :: _ | .cmd, [] | .cmd, _ :: _ :: _ => exact absurd h nofun
  | .tt, [] | .tt, [_] | .tt, _ :: _ :: _ :: _ => exact absurd h nofun

end Sys2Proof

namespace Sys2Proof.Machine

/-! ### The words that the block fetches -/

/-- Everything the block fetches decodes: a type word, a command word or a code byte. -/
theorem exists_decode_of_fetch {s : State} {f : Format} {bytes : List Byte}
    (h : fetch s = some (f, bytes)) : ∃ i, decode f bytes = .ok i := by
  match hreq : s.req, hjob : s.job, hphase : s.phase with
  | [], some j, _ =>
    simp only [fetch, hreq, hjob] at h
    cases h
    exact ⟨_, decode_typeWord _⟩
  | .cmd _ :: _, none, .idle | .cmd _ :: _, none, .opened | .endIn :: _, none, .opened =>
    simp only [fetch, hreq, hjob, hphase] at h
    cases h
    exact ⟨_, rfl⟩
  | .data b :: _, none, .opened =>
    cases hcode : s.atCode <;> simp [fetch, hreq, hjob, hphase, hcode] at h <;>
      obtain ⟨rfl, rfl⟩ := h <;> exact ⟨_, rfl⟩
  | .reset :: _, _, _ => simp [fetch, hreq] at h
  | [], none, _ | .data _ :: _, some _, _ | .endIn :: _, some _, _ | .cmd _ :: _, some _, _ =>
    simp [fetch, hreq, hjob] at h
  | .data _ :: _, none, .idle | .endIn :: _, none, .idle =>
    simp [fetch, hreq, hjob, hphase] at h

/-- A type decode is refused for its table alone (U13). -/
theorem refusal_of_finishType {u : State} {r : Refusal} (h : finishType (.next u) = .refused r) :
    r = .malformedTables := by
  cases hjob : u.job with
  | none =>
    rw [finishType_none hjob] at h
    exact absurd h nofun
  | some j =>
    rw [finishType_some hjob] at h
    cases hdecode : typeDecode u.tables j.entry.type j.payload with
    | none => simpa [hdecode] using h.symm
    | some r => simp [hdecode] at h

/-- The reasons for which a step is refused: the beats that R248 forbids, and tables that are not
well-formed (U13). -/
theorem refusal_of_step {s : State} {r : Refusal} (h : step s = .refused r) :
    r ∈ [.dataWhileIdle, .endWhileIdle, .cmdWhileOpen, .beatAfterEnd, .malformedTables] := by
  rw [step_eq] at h
  match hreq : s.req, hjob : s.job, hphase : s.phase with
  | .endIn :: _, none, .opened =>
    simp only [hreq, hjob, hphase] at h
    simp [refusal_of_finishType h]
  | [], some j, _ =>
    cases hdecode : typeDecode s.tables j.entry.type j.payload <;>
      simp only [hreq, hjob, hdecode] at h
    · simp [← Host.Outcome.refused.inj h]
    · exact absurd h nofun
  | .data _ :: _, some _, _ | .endIn :: _, some _, _ | .cmd _ :: _, some _, _
  | .cmd _ :: _, none, .opened | .data _ :: _, none, .idle | .endIn :: _, none, .idle =>
    simp only [hreq, hjob, hphase, Host.Outcome.refused.injEq] at h
    simp [← h]
  | .reset :: _, _, _ | [], none, _ | .cmd _ :: _, none, .idle | .data _ :: _, none, .opened =>
    simp [hreq, hjob, hphase] at h

/-- Settles O34: what is fetched decodes, and what decodes is the encoding of a well-formed instruction; a
step has no other reason to be refused as undecodable. -/
theorem everyFetchedWordIsAnInstruction : Obligations.EveryFetchedWordIsAnInstruction := by
  have hword {f : Format} {bytes : List Byte} {i : Instr} (hi : decode f bytes = .ok i) :
      ∃ i, decode f bytes = .ok i ∧ i.wf = true ∧ encode i = (f, bytes) :=
    ⟨i, hi, (encodeOfDecodeIsTheWord f bytes i hi).symm⟩
  refine ⟨fun s f bytes hfetch => ?_, fun t => hword (decode_typeWord t), fun s hstep => ?_⟩
  · obtain ⟨i, hi⟩ := exists_decode_of_fetch hfetch
    exact hword hi
  · exact absurd (refusal_of_step hstep) (by decide)

end Sys2Proof.Machine
end

section
/-! SUPPORT. Whole transactions, each operation by its answer from the start of its input (R116, R139, R188,
R193), and the step that takes `END` of a record. -/

namespace Sys2Proof.Machine

/-! ### Transactions of the framer -/

/-- Settles O46: the open transaction sends the encoding from the encoder's initial values (R37). -/
theorem fencTransactionSendsTheEncoding : Obligations.FencTransactionSendsTheEncoding := by
  intro s x rest hrest hreq hlength
  have hin : Within .fenc x rest (s.opening 0x01 x rest) :=
    within_opening (w := 0x01) hrest hlength
  exact answers_transaction hrest hreq (answers_fenc hin)

/-- Settles O47: the frame decodes or fails from the decoder's place at the start (R38). -/
theorem fdecTransactionSendsTheDecoding : Obligations.FdecTransactionSendsTheDecoding := by
  intro s f rest hrest hreq hlength
  have hin : Within .fdec f rest (s.opening 0x02 f rest) :=
    within_opening (w := 0x02) hrest hlength
  cases hdec : dec f with
  | ok out =>
    have hdecode : (s.opening 0x02 f rest).cursor.decode f = .ok out :=
      (dec_eq_decode f).symm.trans hdec
    obtain ⟨t, hsteps, hat, hoffer, htables, hmaxLen, hsent⟩ :=
      answers_transaction hrest hreq (answers_fdec_ok hin hdecode)
    refine ⟨t, hsteps, hat, hoffer, htables, hmaxLen, fun out' hout => ?_, nofun, nofun⟩
    rw [← Except.ok.inj hout]
    exact hsent
  | error c =>
    have hdecode : (s.opening 0x02 f rest).cursor.decode f = .error c :=
      (dec_eq_decode f).symm.trans hdec
    obtain ⟨outs, houts⟩ := answers_fdec_error hin hdecode
    obtain ⟨t, hsteps, hat, hoffer, htables, hmaxLen, hsent⟩ :=
      answers_transaction hrest hreq houts
    refine ⟨t, hsteps, hat, hoffer, htables, hmaxLen, nofun, fun hc => ⟨outs, ?_⟩,
      fun hc => ⟨outs, ?_⟩⟩
    · rw [Except.error.inj hc] at hsent
      exact hsent
    · rw [Except.error.inj hc] at hsent
      exact hsent

/-! ### Transactions of the register decoder -/

section
variable {w : Byte} {sel : MapSel} {x : List Byte} {rest : List HostEvent} {s : State}
  {o : CodecOutcome}

/-- The open transaction is answered with no `OUT` beats but those of a raw value, and the host reads `o`. -/
def SendsRecord (o : CodecOutcome) (x : List Byte) (rest : List HostEvent) (s : State) : Prop :=
  ∃ d, Answers (x.length + 1) (reportBytes o) d rest s ∧
    unpackDone s.tables (reportBytes o) d = some o

/-- An operation of the register decoder that sends its answer sends the record of `regDecode`. -/
theorem sendsRecord_of_regDecode {m : List Byte} (ho : regDecode s.tables sel m = some o)
    (h : ∀ tt bfsel, regAnswer s.tables sel m = some (tt, bfsel, o) →
      Answers (x.length + 1) (reportBytes o) (packDone tt bfsel o) rest s) :
    SendsRecord o x rest s := by
  rw [regDecode_eq] at ho
  obtain ⟨⟨tt, bfsel, o'⟩, hanswer, rfl⟩ := Option.map_eq_some_iff.1 ho
  exact ⟨_, h tt bfsel hanswer, unpackDone_regAnswer hanswer⟩

theorem sendsRecord_rdec {i : Instr} (h : Within i x rest s)
    (hdata : commandData i = receive takeMessage) (hend : commandEnd i = finish lookupMessage)
    (hmsg : s.msg = []) (hmap : s.map = sel) (ho : regDecode s.tables sel x = some o) :
    SendsRecord o x rest s :=
  sendsRecord_of_regDecode ho fun _ _ hanswer =>
    answers_rdec h hdata hend (by rwa [hmsg, hmap])

theorem sendsRecord_rxdec {i : Instr} (h : Within i x rest s)
    (hdata : commandData i = receive (takeFramed sinkMessage))
    (hend : commandEnd i = finish (endFramed lookupMessage))
    (hcursor : s.cursor = Cursor.start) (hmsg : s.msg = []) (hmap : s.map = sel)
    (ho : rxDecode s.tables sel x = some o) : SendsRecord o x rest s := by
  have hdec := dec_eq_decode x
  rw [← hcursor] at hdec
  rw [rxDecode] at ho
  cases hx : dec x with
  | ok m =>
    simp only [hx] at ho hdec
    exact sendsRecord_of_regDecode ho fun _ _ hanswer =>
      answers_rxdec_ok h hdata hend hdec.symm (by rwa [hmsg, hmap])
  | error c =>
    simp only [hx, Option.some.injEq] at ho hdec
    rw [← ho]
    exact ⟨_, answers_rxdec_error h hdata hend hdec.symm, unpackDone_hardFail _ _ c⟩

end

/-- Settles O48: each of the four words opens its operation, which sends the record. -/
theorem recordTransactionsSendTheRecord : Obligations.RecordTransactionsSendTheRecord := by
  intro s w sel x rest o hrest hreq hlength hop
  have hin : Within (decodeCommand w) x rest (s.opening w x rest) := within_opening hrest hlength
  have hsends : SendsRecord o x rest (s.opening w x rest) := by
    obtain ⟨rfl, rfl, ho⟩ | ⟨rfl, rfl, ho⟩ | ⟨rfl, rfl, ho⟩ | ⟨rfl, rfl, ho⟩ := hop
    · exact sendsRecord_rdec hin rfl rfl rfl rfl ho
    · exact sendsRecord_rdec hin rfl rfl rfl rfl ho
    · exact sendsRecord_rxdec hin rfl rfl rfl rfl rfl ho
    · exact sendsRecord_rxdec hin rfl rfl rfl rfl rfl ho
  obtain ⟨d, hopen, hread⟩ := hsends
  obtain ⟨t, hsteps, hat, hoffer, htables, hmaxLen, hsent⟩ := answers_transaction hrest hreq hopen
  rw [(opening_keeps s w x rest).tables] at hread
  exact ⟨t, d, hsteps, hat, hoffer, htables, hmaxLen, hsent, hread⟩

/-! ### `END` of a record -/

/-- `END` goes to the lookup in RDEC, and in RXDEC where the frame is whole (R188, R193). -/
theorem step_end_lookup {s : State} {rest : List HostEvent} (hphase : s.phase = .opened)
    (hjob : s.job = none) (hover : s.overLength = false) (hreq : s.req = .endIn :: rest)
    (hop : s.op = .rdec ∨ (s.op = .rxdec ∧ s.err = none ∧ s.rem = 0)) :
    step s = finishType (.next (lookupMessage { s with req := rest })) := by
  rw [step_end hphase hjob hreq]
  obtain hop | ⟨hop, herr, hrem⟩ := hop
  · rw [commandEnd_rdec s hop, finish_within (s := { s with req := rest }) hover]
  · have hwhole : { s with req := rest }.cursor.failure = none := by
      simp [State.cursor, Cursor.failure, herr, hrem]
    rw [commandEnd_rxdec s hop, finish_within (s := { s with req := rest }) hover, endFramed_eq,
      hwhole]

/-- Settles O54: the lookup and the type decode report the register decoder's answer, which the host reads as
`RegDecode` of the message. -/
theorem recordEndIsOneStep : Obligations.RecordEndIsOneStep := by
  intro s rest o hphase hjob hover hreq hop ho
  rw [regDecode_eq] at ho
  obtain ⟨⟨tt, bfsel, o'⟩, hanswer, rfl⟩ := Option.map_eq_some_iff.1 ho
  refine ⟨packDone tt bfsel o', ?_, unpackDone_regAnswer hanswer⟩
  rw [step_end_lookup hphase hjob hover hreq hop, finishType_lookupMessage]
  simp [hanswer, report, hjob]

/-! ### Totality -/

/-- Over well-formed tables the register decoder has an outcome for every message. -/
theorem exists_regDecode {tb : Tables} (hwf : tb.wf = true) (sel : MapSel) (m : List Byte) :
    ∃ o, regDecode tb sel m = some o := by
  obtain ⟨tt, bfsel, o, hanswer⟩ := exists_regAnswer hwf sel m
  exact ⟨o, by rw [regDecode_eq, hanswer]; rfl⟩

/-- Settles O51: a refused request has its outcome, the framer is total, and the register decoder is total
over well-formed tables. -/
theorem wellFormedTablesGiveEveryTransactionAnOutcome :
    Obligations.WellFormedTablesGiveEveryTransactionAnOutcome := by
  intro tb maxLen w x hwf
  cases hlegal : legalCommand w with
  | false => exact ⟨_, transactionOutcome_reserved tb maxLen x hlegal⟩
  | true =>
    by_cases hlong : maxLen < x.length
    · exact ⟨_, transactionOutcome_overLength tb hlegal hlong⟩
    have hx := not_lt.1 hlong
    have hrecord {sel : MapSel} {m : List Byte}
        (hm : transactionOutcome tb maxLen w x = regDecode tb sel m) :
        ∃ o, transactionOutcome tb maxLen w x = some o := hm ▸ exists_regDecode hwf sel m
    rcases decodeCommand_cases w with
      ⟨rfl, -⟩ | ⟨rfl, -⟩ | ⟨rfl, -⟩ | ⟨rfl, -⟩ | ⟨rfl, -⟩ | ⟨rfl, -⟩ | ⟨hreserved, -⟩
    · exact ⟨_, transactionOutcome_fenc hx⟩
    · cases hdec : dec x with
      | ok out => exact ⟨_, transactionOutcome_fdec hx hdec⟩
      | error c => exact ⟨_, transactionOutcome_hardFail hx (by decide) hdec⟩
    · exact hrecord (transactionOutcome_record hx (sel := .tile) (.inl ⟨rfl, rfl, rfl⟩))
    · exact hrecord (transactionOutcome_record hx (sel := .master) (.inr (.inl ⟨rfl, rfl, rfl⟩)))
    · cases hdec : dec x with
      | ok m => exact hrecord (transactionOutcome_record hx (.inr (.inr (.inl ⟨rfl, rfl, hdec⟩))))
      | error c => exact ⟨_, transactionOutcome_hardFail hx (by decide) hdec⟩
    · cases hdec : dec x with
      | ok m => exact hrecord (transactionOutcome_record hx (.inr (.inr (.inr ⟨rfl, rfl, hdec⟩))))
      | error c => exact ⟨_, transactionOutcome_hardFail hx (by decide) hdec⟩
    · exact absurd (hreserved.symm.trans hlegal) Bool.false_ne_true

/-! ### Several blocks side by side (R229) -/

/-- A step of one of several blocks is its own step, or none where there is no such block. -/
theorem stepInstance_next {i : Nat} {sys sys' : List State} (h : stepInstance i sys = .next sys') :
    (sys[i]? = none ∧ sys' = sys) ∨
    ∃ s t, sys[i]? = some s ∧ step s = .next t ∧ sys' = sys.set i t := by
  unfold stepInstance at h
  cases hs : sys[i]? with
  | none =>
    simp only [hs] at h
    exact .inl ⟨rfl, (Host.Outcome.next.inj h).symm⟩
  | some s =>
    cases hstep : step s <;> simp only [hs, hstep] at h
    case next t => exact .inr ⟨s, t, rfl, hstep, (Host.Outcome.next.inj h).symm⟩
    all_goals exact absurd h nofun

/-- A schedule that runs to its end runs its first step and then the others. -/
theorem runSchedule_cons_next {i : Nat} {rest : List Nat} {sys sys' : List State}
    (h : runSchedule (i :: rest) sys = .next sys') :
    ∃ mid, stepInstance i sys = .next mid ∧ runSchedule rest mid = .next sys' := by
  rw [runSchedule] at h
  cases hstep : stepInstance i sys <;> simp only [hstep] at h
  case next mid => exact ⟨mid, rfl, h⟩
  all_goals exact absurd h nofun

/-- Settles O53, by induction on the schedule: its first step moves one block and no other. -/
theorem interleavedInstancesRunAsIfAlone : Obligations.InterleavedInstancesRunAsIfAlone := by
  intro schedule
  induction schedule with
  | nil =>
    intro sys sys' h
    obtain rfl : sys = sys' := Host.Outcome.next.inj h
    exact ⟨rfl, fun i s hs => ⟨s, hs, rfl⟩⟩
  | cons j rest ih =>
    intro sys sys' h
    obtain ⟨mid, hstep, hrest⟩ := runSchedule_cons_next h
    obtain ⟨hlength, halone⟩ := ih mid sys' hrest
    obtain ⟨hnone, rfl⟩ | ⟨u, u', hu, hmove, rfl⟩ := stepInstance_next hstep
    · refine ⟨hlength, fun i s hs => ?_⟩
      have hother : j ≠ i := by
        rintro rfl
        exact absurd (hnone.symm.trans hs) nofun
      rw [List.count_cons_of_ne hother]
      exact halone i s hs
    · refine ⟨by rw [hlength, List.length_set], fun i s hs => ?_⟩
      by_cases hij : j = i
      · subst hij
        obtain rfl : u = s := Option.some.inj (hu.symm.trans hs)
        have hmoved : (sys.set j u')[j]? = some u' :=
          List.getElem?_set_self (List.getElem?_eq_some_iff.1 hu).1
        rw [List.count_cons_self, steps, hmove]
        exact halone j u' hmoved
      · rw [List.count_cons_of_ne hij]
        exact halone i s (by rwa [List.getElem?_set_ne hij])

end Sys2Proof.Machine
end

section
/-! SUPPORT. What `END` and `DONE` do, once for every command (R36, R90, R188, R193), and the ranges of the
working state (R36 to R39), which every step keeps. -/

namespace Sys2Proof.Machine

/-! ### Legal `DONE` beats (R90 to R92) -/

/-- Any outcome is packed legally under a produced tag whose selector is valid or zero. -/
theorem packDone_wf {tt : Nibble} {bfsel : Byte} (htag : legalTag tt = true)
    (hsel : tt = 0x8 ∨ bfsel = 0) (o : CodecOutcome) : (packDone tt bfsel o).wf = true := by
  match o with
  | .bytes _ | .null | .hardFail .zeroCode | .hardFail .truncated | .refused .cmd
  | .refused .length => rfl
  | .record (.err _ (.unknownRegister _)) | .record (.err _ (.shortPayload _)) => rfl
  | .record (.ok _ _ _) =>
    simp only [packDone, Done.wf, htag]
    rcases hsel with rfl | rfl <;> simp [legalStatus]

/-- The tag and the selector of a type are legal together. -/
theorem typeTag_legal (t : TypeRef) :
    legalTag (typeTag t) = true ∧ (typeTag t = 0x8 ∨ typeSelector t = 0) := by
  match t with
  | .scalar .uint8 | .scalar .uint16 | .scalar .int16 | .scalar .uint32 | .scalar .float32
  | .unknown _ => exact ⟨rfl, .inr rfl⟩
  | .bitfield _ => exact ⟨rfl, .inl rfl⟩

/-- The block has come to rest: after `sent` it has sent some `OUT` beats and then a legal `DONE` beat. -/
structure Reports (sent : List RspEvent) (t : State) : Prop where
  atRest : t.atRest
  sends : ∃ (outs : List Byte) (d : Done), t.rsp = sent ++ outs.map .out ++ [.done d] ∧ d.wf = true

section
variable {sent : List RspEvent} {new : List Byte} {s u : State}

/-- A report after some `OUT` beats. -/
theorem reports_report (hsent : u.rsp = sent ++ new.map .out) {tt : Nibble} {bfsel : Byte}
    (htag : legalTag tt = true) (hsel : tt = 0x8 ∨ bfsel = 0) (o : CodecOutcome) :
    Reports sent (report tt bfsel o u) where
  atRest := ⟨rfl, rfl⟩
  sends := ⟨new ++ reportBytes o, _, by simp [hsent], packDone_wf htag hsel o⟩

theorem reports_conclude (hsent : u.rsp = sent ++ new.map .out) (o : CodecOutcome) :
    Reports sent (conclude o u) :=
  reports_report hsent rfl (.inr rfl) o

/-- The report that finishes a type decode. -/
theorem reports_reportField (hsent : u.rsp = sent) (t : TypeRef) (j : TypeJob)
    (r : Except SoftError Value) :
    Reports sent (reportField (typeTag t) (typeSelector t) j r u) := by
  obtain ⟨htag, hsel⟩ := typeTag_legal t
  exact reports_report (new := []) (by simp [hsent]) htag hsel _

/-! ### What `END` does -/

/-- An `END` reports, or has sent nothing and leaves a type decode under way. -/
def EndsOrDecodes (sent : List RspEvent) (t : State) : Prop :=
  Reports sent t ∨ (t.rsp = sent ∧ ∃ j, t.job = some j)

theorem lookupMessage_ends (s : State) : EndsOrDecodes s.rsp (lookupMessage s) := by
  rcases lookupMessage_cases s with ⟨-, h⟩ | ⟨_, _, _, -, -, h⟩ | ⟨_, _, _, _, -, -, h⟩ <;> rw [h]
  · exact .inl (reports_conclude (new := []) (by simp) _)
  · exact .inl (reports_conclude (new := []) (by simp) _)
  · exact .inr ⟨rfl, _, rfl⟩

theorem endFramed_ends {onward : State → State} (hon : ∀ s, EndsOrDecodes s.rsp (onward s))
    (s : State) : EndsOrDecodes s.rsp (endFramed onward s) := by
  rcases endFramed_cases onward s with ⟨-, -, h⟩ | ⟨_, -, h⟩ | ⟨-, -, h⟩ <;> rw [h]
  · exact .inl (reports_conclude (new := []) (by simp) _)
  · exact .inl (reports_conclude (new := []) (by simp) _)
  · exact hon s

theorem finish_ends {onEnd : State → State} (hend : ∀ s, EndsOrDecodes s.rsp (onEnd s))
    (s : State) : EndsOrDecodes s.rsp (finish onEnd s) := by
  rcases finish_cases onEnd s with ⟨-, h⟩ | ⟨-, h⟩ <;> rw [h]
  · exact .inl (reports_conclude (new := []) (by simp) _)
  · exact hend s

theorem endPlain_ends (s : State) : EndsOrDecodes s.rsp (endPlain s) :=
  .inl (reports_conclude (new := encodeEnd s.run s.afterFull) rfl _)

theorem conclude_ends (o : CodecOutcome) (s : State) : EndsOrDecodes s.rsp (conclude o s) :=
  .inl (reports_conclude (new := []) (by simp) o)

/-- `END` of any command. -/
theorem commandEnd_ends (w : Byte) (s : State) :
    EndsOrDecodes s.rsp (commandEnd (decodeCommand w) s) := by
  rcases decodeCommand_cases w with
    ⟨-, hw⟩ | ⟨-, hw⟩ | ⟨-, hw⟩ | ⟨-, hw⟩ | ⟨-, hw⟩ | ⟨-, hw⟩ | ⟨-, hw⟩ <;> rw [hw]
  · exact finish_ends endPlain_ends s
  · exact finish_ends (endFramed_ends (conclude_ends _)) s
  · exact finish_ends lookupMessage_ends s
  · exact finish_ends lookupMessage_ends s
  · exact finish_ends (endFramed_ends lookupMessage_ends) s
  · exact finish_ends (endFramed_ends lookupMessage_ends) s
  · exact conclude_ends _ s

end

/-! ### What a step does -/

/-- If a step answers a next state, then it waited, was reset, opened a transaction, took a data byte, or
reported. -/
theorem step_effect {s t : State} (h : step s = .next t) :
    (s.job = none ∧ t = s) ∨
    (∃ rest, t = applyReset { s with req := rest }) ∨
    (∃ w rest, s.job = none ∧ t = commandOpen (decodeCommand w) { s with req := rest }) ∨
    (∃ b rest, s.job = none ∧ s.phase = .opened ∧
      t = commandData (underWay s) b { s with req := rest }) ∨
    Reports s.rsp t := by
  rcases step_cases h with ⟨-, hjob, rfl⟩ | ⟨rest, -, rfl⟩ | ⟨w, rest, -, hjob, -, rfl⟩ |
    ⟨b, rest, -, hjob, hphase, rfl⟩ | ⟨rest, u, -, -, -, hu, hend⟩ | ⟨j, r, -, -, -, rfl⟩
  · exact .inl ⟨hjob, rfl⟩
  · exact .inr (.inl ⟨rest, rfl⟩)
  · exact .inr (.inr (.inl ⟨w, rest, hjob, rfl⟩))
  · exact .inr (.inr (.inr (.inl ⟨b, rest, hjob, hphase, rfl⟩)))
  · refine .inr (.inr (.inr (.inr ?_)))
    have hends : EndsOrDecodes s.rsp u :=
      hu ▸ commandEnd_ends (operationWord s.op s.map) { s with req := rest }
    obtain hreports | ⟨hrsp, j, hj⟩ := hends <;> obtain ⟨hnone, rfl⟩ | ⟨j', r, hj', -, rfl⟩ := hend
    · exact hreports
    · exact absurd (hreports.atRest.2.symm.trans hj') nofun
    · exact absurd (hnone.symm.trans hj) nofun
    · exact reports_reportField hrsp _ _ _
  · exact .inr (.inr (.inr (.inr (reports_reportField rfl _ _ _))))

/-- Settles O55: no beat starts a type decode that its step does not finish. -/
theorem noStepLeavesATypeDecodeUnderWay : Obligations.NoStepLeavesATypeDecodeUnderWay := by
  intro s t hstep
  rcases step_effect hstep with
    ⟨hjob, rfl⟩ | ⟨rest, rfl⟩ | ⟨w, rest, hjob, rfl⟩ | ⟨b, rest, hjob, -, rfl⟩ | hreports
  · exact hjob
  · rfl
  · exact (commandOpen_job _ _).trans hjob
  · exact (commandData_job _ _ _).trans hjob
  · exact hreports.atRest.2

/-- Settles O43: only a report sends a `DONE` beat, and it sends one, last and legal. -/
theorem everyDoneBeatIsLegal : Obligations.EveryDoneBeatIsLegal := by
  intro s t hstep
  rcases step_effect hstep with
    ⟨-, rfl⟩ | ⟨rest, rfl⟩ | ⟨w, rest, -, rfl⟩ | ⟨b, rest, -, -, rfl⟩ | ⟨⟨hphase, hjob⟩, hsends⟩
  · exact ⟨[], by simp, nofun⟩
  · exact ⟨[.resetSeen], rfl, by simp⟩
  · exact ⟨[], by simp [commandOpen_rsp], nofun⟩
  · obtain ⟨outs, houts⟩ := (commandData_keeps (underWay s) b { s with req := rest }).sends
    exact ⟨_, houts, by simp⟩
  · obtain ⟨outs, d, hrsp, hwf⟩ := hsends
    refine ⟨_, hrsp.trans (List.append_assoc _ _ _), fun d' hd => ?_⟩
    obtain rfl : d' = d := by simpa using hd
    exact ⟨hwf, hphase, hjob, outs, rfl⟩

/-! ### The ranges of the decoder and of the operation under way -/

/-- The range of the decoder's place between two bytes (R38). -/
def Cursor.InRange (c : Cursor) : Prop := c.rem ≤ 254 ∧ c.err ≠ some .truncated

/-- Every byte keeps the decoder in range: a code byte is at most 255. -/
theorem Cursor.InRange.next {c : Cursor} (h : c.InRange) (b : Byte) : (c.next b).InRange := by
  obtain ⟨hrem, herr⟩ := h
  have hcode := b.isLt
  unfold Cursor.next
  split_ifs
  · exact ⟨hrem, herr⟩
  · exact ⟨hrem, nofun⟩
  · exact ⟨show b.toNat - 1 ≤ 254 by omega, nofun⟩
  · exact ⟨show c.rem - 1 ≤ 254 by omega, herr⟩

/-- A byte of the frame makes the decoder sink at most one byte. -/
theorem Cursor.length_sunk_le (c : Cursor) (b : Byte) : (c.sunk b).length ≤ 1 := by
  unfold Cursor.sunk
  split_ifs <;> simp

/-- The working state of an operation lies in its range (R37 to R39). -/
structure WorkingInRange (op : Op) (s : State) : Prop where
  encoder : op = .fenc → EncoderInRange s.run s.afterFull
  decoder : op = .fdec ∨ op = .rxdec → s.cursor.InRange
  message : op = .rdec ∨ op = .rxdec → s.msg.length ≤ s.count

/-- The state in which an operation takes a counted byte keeps its working state in range. -/
def TakesInRange (op : Op) (take : Byte → State → State) : Prop :=
  ∀ b s, WorkingInRange op s → WorkingInRange op (take b { s with count := s.count + 1 })

theorem takePlain_inRange : TakesInRange .fenc takePlain := fun b _ h =>
  ⟨fun hop => (h.encoder hop).encodeByte b, by simp, by simp⟩

theorem takeMessage_inRange : TakesInRange .rdec takeMessage := fun b _ h =>
  ⟨nofun, by simp, fun hop => by simpa [takeMessage] using h.message hop⟩

theorem takeFramed_sinkOut_inRange : TakesInRange .fdec (takeFramed sinkOut) := by
  intro b s h
  rw [takeFramed_sinkOut]
  exact ⟨nofun, fun hop => (h.decoder hop).next b, by simp⟩

theorem takeFramed_sinkMessage_inRange : TakesInRange .rxdec (takeFramed sinkMessage) := by
  intro b s h
  rw [takeFramed_sinkMessage]
  refine ⟨nofun, fun hop => (h.decoder hop).next b, fun hop => ?_⟩
  have hmsg := h.message hop
  have hsunk := s.cursor.length_sunk_le b
  change (s.msg ++ s.cursor.sunk b).length ≤ s.count + 1
  rw [List.length_append]
  omega

/-! ### The invariant -/

/-- Between two transactions the invariant asks for the constants alone. -/
theorem inv_of_atRest {t : State} (hrest : t.atRest) (hwf : t.tables.wf = true)
    (hmax : 2 ≤ t.maxLen) : Inv t := by
  obtain ⟨hphase, hjob⟩ := hrest
  constructor <;> simp [hphase, hjob, hwf, hmax]

/-- Settles O39, by the definition of the state after reset. -/
theorem resetStateIsIdleWithTheConstantTables :
    Obligations.ResetStateIsIdleWithTheConstantTables :=
  ⟨rfl, rfl, rfl, rfl, rfl, rfl⟩

/-- Settles O40: the block is at rest after reset. -/
theorem resetKeepsTheRanges : Obligations.ResetKeepsTheRanges :=
  inv_of_atRest ⟨rfl, rfl⟩ config_tables_wf (Nat.le_add_left 2 _)

/-- An operation and its map are those of a command word (R88, R89). -/
structure CommandInRange (s : State) : Prop where
  framerMap : s.op = .fenc ∨ s.op = .fdec → s.map = .tile
  reservedWord : ∀ w, s.op = .rsvd w → legalCommand w = false

/-- The account of the bytes received lies in its range (R36, R225). -/
structure AccountInRange (s : State) : Prop where
  countBound : s.count ≤ s.maxLen
  overFull : s.overLength = true → s.count = s.maxLen

/-- In an open transaction that receives data the invariant is that of its parts. -/
theorem inv_of_opened {s : State} (hjob : s.job = none) (hwf : s.tables.wf = true)
    (hmax : 2 ≤ s.maxLen) (hcommand : CommandInRange s) (haccount : AccountInRange s)
    (hworking : WorkingInRange s.op s) : Inv s where
  tablesWf := hwf
  maxLenAtLeastTwo := hmax
  countBound _ := haccount.countBound
  overFull _ := haccount.overFull
  framerMap _ := hcommand.framerMap
  reservedWord _ := hcommand.reservedWord
  runBound _ hop := ⟨(hworking.encoder hop).short, (hworking.encoder hop).nonzero⟩
  afterFullEmpty _ hop := (hworking.encoder hop).emptyAfterFull
  remBound _ := hworking.decoder
  msgBound _ := hworking.message
  jobFound _ hj := absurd (hjob.symm.trans hj) nofun

section
variable {s : State}

theorem Inv.commandInRange (h : Inv s) (hphase : s.phase = .opened) : CommandInRange s :=
  ⟨h.framerMap hphase, h.reservedWord hphase⟩

theorem Inv.accountInRange (h : Inv s) (hphase : s.phase = .opened) : AccountInRange s :=
  ⟨h.countBound hphase, h.overFull hphase⟩

theorem Inv.workingInRange (h : Inv s) (hphase : s.phase = .opened) : WorkingInRange s.op s where
  encoder hop :=
    have ⟨hshort, hnonzero⟩ := h.runBound hphase hop
    ⟨hshort, hnonzero, h.afterFullEmpty hphase hop⟩
  decoder := h.remBound hphase
  message := h.msgBound hphase

/-- What is on offer is in no range. -/
theorem Inv.withReq (h : Inv s) (req : List HostEvent) : Inv { s with req } := { h with }

/-- A byte that an operation takes in range, within the length bound or beyond it, keeps the invariant. -/
theorem Inv.receive {take : Byte → State → State} (h : Inv s) (hphase : s.phase = .opened)
    (hjob : s.job = none) (hkeeps : ∀ b s, TakeKeeps s (take b s)) (htake : TakesInRange s.op take)
    (b : Byte) : Inv (receive take b s) := by
  have hcommand := h.commandInRange hphase
  have haccount := h.accountInRange hphase
  have hworking := h.workingInRange hphase
  rcases receive_cases take b s with ⟨-, he⟩ | ⟨hover, hcount, he⟩ | ⟨-, hfull, he⟩ <;> rw [he]
  · exact h
  · have hk := hkeeps b { s with count := s.count + 1 }
    refine inv_of_opened (hk.job.trans hjob) (by rw [hk.tables]; exact h.tablesWf)
      (by rw [hk.maxLen]; exact h.maxLenAtLeastTwo) ⟨?_, ?_⟩ ⟨?_, fun hover' => ?_⟩ ?_
    · rw [hk.op, hk.map]
      exact hcommand.framerMap
    · rw [hk.op]
      exact hcommand.reservedWord
    · rw [hk.count, hk.maxLen]
      exact hcount
    · exact absurd (hover.symm.trans (hk.overLength.symm.trans hover')) Bool.false_ne_true
    · rw [hk.op]
      exact htake b s hworking
  · have hatBound : s.count = s.maxLen := le_antisymm haccount.countBound hfull
    exact inv_of_opened hjob h.tablesWf h.maxLenAtLeastTwo { hcommand with }
      ⟨haccount.countBound, fun _ => hatBound⟩ { hworking with }

/-- A `DATA` beat keeps the invariant. -/
theorem Inv.commandData (h : Inv s) (hphase : s.phase = .opened) (hjob : s.job = none) (b : Byte) :
    Inv (commandData (underWay s) b s) := by
  cases hop : s.op with
  | fenc =>
    rw [commandData_fenc hop]
    exact h.receive hphase hjob takePlain_keeps (hop ▸ takePlain_inRange) b
  | fdec =>
    rw [commandData_fdec hop]
    exact h.receive hphase hjob (takeFramed_keeps sinkOut_keeps)
      (hop ▸ takeFramed_sinkOut_inRange) b
  | rdec =>
    rw [commandData_rdec s hop]
    exact h.receive hphase hjob takeMessage_keeps (hop ▸ takeMessage_inRange) b
  | rxdec =>
    rw [commandData_rxdec hop]
    exact h.receive hphase hjob (takeFramed_keeps sinkMessage_keeps)
      (hop ▸ takeFramed_sinkMessage_inRange) b
  | rsvd w => rwa [underWay_reserved hop (h.reservedWord hphase w hop)]

/-- A `CMD` beat puts the working state at its initial values (R37 to R39). -/
theorem commandOpen_inRange (w : Byte) (s : State) :
    CommandInRange (commandOpen (decodeCommand w) s) ∧
    WorkingInRange (commandOpen (decodeCommand w) s).op (commandOpen (decodeCommand w) s) := by
  have hstart : Cursor.start.InRange := ⟨by decide, nofun⟩
  rcases decodeCommand_cases w with
    ⟨-, hw⟩ | ⟨-, hw⟩ | ⟨-, hw⟩ | ⟨-, hw⟩ | ⟨-, hw⟩ | ⟨-, hw⟩ | ⟨hreserved, hw⟩ <;> rw [hw]
  · exact ⟨⟨fun _ => rfl, nofun⟩, fun _ => encoderInRange_empty false, by simp [commandOpen],
      by simp [commandOpen]⟩
  · exact ⟨⟨fun _ => rfl, nofun⟩, nofun, fun _ => hstart, by simp [commandOpen]⟩
  · exact ⟨⟨fun _ => rfl, nofun⟩, nofun, by simp [commandOpen], fun _ => Nat.zero_le _⟩
  · exact ⟨⟨by simp [commandOpen], nofun⟩, nofun, by simp [commandOpen], fun _ => Nat.zero_le _⟩
  · exact ⟨⟨fun _ => rfl, nofun⟩, nofun, fun _ => hstart, fun _ => Nat.zero_le _⟩
  · exact ⟨⟨by simp [commandOpen], nofun⟩, nofun, fun _ => hstart, fun _ => Nat.zero_le _⟩
  · exact ⟨⟨fun _ => rfl, fun _ hop => Op.rsvd.inj hop ▸ hreserved⟩, nofun, by simp [commandOpen],
      by simp [commandOpen]⟩

/-- A `CMD` beat keeps the invariant. -/
theorem Inv.commandOpen (h : Inv s) (hjob : s.job = none) (w : Byte) :
    Inv (commandOpen (decodeCommand w) s) := by
  have hkeeps := commandOpen_keeps (decodeCommand w) s
  obtain ⟨hcount, hover⟩ := commandOpen_account w s
  obtain ⟨hcommand, hworking⟩ := commandOpen_inRange w s
  refine inv_of_opened ((commandOpen_job _ _).trans hjob) (hkeeps.tables ▸ h.tablesWf)
    (hkeeps.maxLen ▸ h.maxLenAtLeastTwo) hcommand ⟨?_, fun hover' => ?_⟩ hworking
  · rw [hcount]
    exact Nat.zero_le _
  · exact absurd (hover.symm.trans hover') Bool.false_ne_true

end

/-- Settles O41: a `CMD` beat sets the working state to its initial values, a `DATA` beat keeps it in range,
and every other step leaves the block as it is or at rest. -/
theorem everyStepKeepsTheRanges : Obligations.EveryStepKeepsTheRanges := by
  intro s t hinv hstep
  obtain ⟨htables, hmaxLen⟩ := noStepWritesTheTables s t hstep
  have hrest (hat : t.atRest) : Inv t :=
    inv_of_atRest hat (htables ▸ hinv.tablesWf) (hmaxLen ▸ hinv.maxLenAtLeastTwo)
  rcases step_effect hstep with
    ⟨-, rfl⟩ | ⟨rest, rfl⟩ | ⟨w, rest, hjob, rfl⟩ | ⟨b, rest, hjob, hphase, rfl⟩ | hreports
  · exact hinv
  · exact hrest (applyReset_atRest _)
  · exact (hinv.withReq rest).commandOpen hjob w
  · exact (hinv.withReq rest).commandData hphase hjob b
  · exact hrest hreports.atRest

/-! ### Where a step stops (R248) -/

theorem step_end_afterEnd {s : State} {j : TypeJob} {rest : List HostEvent} (hjob : s.job = some j)
    (hreq : s.req = .endIn :: rest) : step s = .refused .beatAfterEnd := by
  simp only [step_eq, hreq, hjob]

/-- Settles O37, by the equation of the step with nothing on offer. -/
theorem withoutABeatTheBlockWaits : Obligations.WithoutABeatTheBlockWaits := by
  intro s hreq hjob
  simp only [step_eq, hreq, hjob]

/-- Every beat that R248 forbids is refused. -/
theorem exists_refusal_of_violation {s : State} (h : protocolViolation s = true) :
    ∃ r, step s = .refused r := by
  match hreq : s.req, hjob : s.job with
  | [], _ | .reset :: _, _ => simp [protocolViolation, hreq] at h
  | .cmd w :: rest, _ =>
    have hphase : s.phase = .opened := by simpa [protocolViolation, hreq] using h
    exact ⟨_, step_cmd_opened hphase hreq⟩
  | .data b :: rest, some j => exact ⟨_, step_data_afterEnd hjob hreq⟩
  | .endIn :: rest, some j => exact ⟨_, step_end_afterEnd hjob hreq⟩
  | .data b :: rest, none =>
    have hphase : s.phase = .idle := by simpa [protocolViolation, hreq, hjob] using h
    exact ⟨_, step_data_idle ⟨hphase, hjob⟩ hreq⟩
  | .endIn :: rest, none =>
    have hphase : s.phase = .idle := by simpa [protocolViolation, hreq, hjob] using h
    exact ⟨_, step_end_idle ⟨hphase, hjob⟩ hreq⟩

theorem phase_eq_opened {s : State} (h : s.phase ≠ .idle) : s.phase = .opened := by
  cases hphase : s.phase with
  | idle => exact absurd hphase h
  | opened => rfl

/-- In the ranges every other beat is taken: `END` is answered, and a type decode has its entry's type in
well-formed tables. -/
theorem exists_next_of_inv {s : State} (hinv : Inv s) (h : protocolViolation s = false) :
    ∃ t, step s = .next t := by
  match hreq : s.req, hjob : s.job with
  | [], none => exact ⟨s, withoutABeatTheBlockWaits s hreq hjob⟩
  | [], some j =>
    obtain ⟨-, -, hlookup, -⟩ := hinv.jobFound j hjob
    obtain ⟨r, hr⟩ :=
      exists_typeDecode hinv.tablesWf (mapLookup_type_wf hinv.tablesWf hlookup) j.payload
    exact ⟨reportField (typeTag j.entry.type) (typeSelector j.entry.type) j r s,
      by simp only [step_eq, hreq, hjob, hr]⟩
  | .reset :: rest, _ => exact ⟨_, step_reset hreq⟩
  | .cmd w :: rest, none =>
    have hphase : s.phase = .idle := by
      by_contra hne
      simp [protocolViolation, hreq, phase_eq_opened hne] at h
    exact ⟨_, step_cmd ⟨hphase, hjob⟩ hreq⟩
  | .cmd w :: rest, some j =>
    obtain ⟨hphase, -⟩ := hinv.jobFound j hjob
    simp [protocolViolation, hreq, hphase] at h
  | .data b :: rest, none =>
    have hphase : s.phase ≠ .idle := by simpa [protocolViolation, hreq, hjob] using h
    exact ⟨_, step_data (phase_eq_opened hphase) hjob hreq⟩
  | .endIn :: rest, none =>
    have hphase : s.phase ≠ .idle := by simpa [protocolViolation, hreq, hjob] using h
    have hopen : Receiving (underWay s) [] rest s := ⟨phase_eq_opened hphase, hjob, rfl, hreq⟩
    obtain ⟨-, -, t, hsteps, -⟩ := exists_answers_of_inv hinv hopen
    cases hstep : step s with
    | next t => exact ⟨t, rfl⟩
    | fault r => exact nomatch r
    | refused r => simp [steps, hstep] at hsteps
  | .data _ :: _, some _ | .endIn :: _, some _ => simp [protocolViolation, hreq, hjob] at h

/-- Settles O44: a step that takes a next state is not refused, so each half of the two rules above gives the
other. -/
theorem stepsStopExactlyOnProtocolViolations :
    Obligations.StepsStopExactlyOnProtocolViolations := by
  intro s hinv
  cases hviolation : protocolViolation s with
  | true =>
    obtain ⟨r, hr⟩ := exists_refusal_of_violation hviolation
    simp [hr]
  | false =>
    obtain ⟨t, ht⟩ := exists_next_of_inv hinv hviolation
    simp [ht]

end Sys2Proof.Machine
end

section
/-! SUPPORT. Lengths and numbers of blocks: of what a frame decodes to (41_framer_decode.md section 3), and of
what the encoder and the source's literal encoder write, run by run (40_framer_encode.md section 1). -/

namespace Sys2Proof.Machine

/-! ### The blocks of a frame, one at a time -/

theorem blocksLoop_nil (turns : Nat) : blocksLoop turns [] = some [] := by
  cases turns <;> rfl

/-- As many turns as there are bytes suffice, and more change nothing. -/
theorem blocksLoop_congr {turns turns' : Nat} {f : List Byte} (h : f.length ≤ turns)
    (h' : f.length ≤ turns') : blocksLoop turns f = blocksLoop turns' f := by
  induction turns generalizing turns' f with
  | zero => rw [List.length_eq_zero_iff.1 (Nat.le_zero.1 h), blocksLoop_nil, blocksLoop_nil]
  | succ turns ih =>
    match f, turns' with
    | [], _ => rw [blocksLoop_nil, blocksLoop_nil]
    | _ :: _, 0 => exact absurd h' (by simp)
    | c :: rest, turns' + 1 =>
      have hlater : (rest.drop (runLength c)).length ≤ rest.length := by simp
      simp only [List.length_cons] at h h'
      rw [blocksLoop, blocksLoop, ih (by omega) (by omega : _ ≤ turns')]

/-- A whole block comes off the front of a frame (R70, R71). -/
theorem blocks_block {c : Byte} {data : List Byte} (hc : c ≠ 0x00)
    (hdata : data.length = runLength c) (rest : List Byte) :
    blocks (c :: (data ++ rest)) = (blocks rest).map ((c, data) :: ·) := by
  have hbad : ¬(c = 0x00 ∨ (data ++ rest).length < runLength c) := by
    rw [not_or, List.length_append]
    exact ⟨hc, by omega⟩
  have hlater : rest.length ≤ (data ++ rest).length := by simp
  rw [blocks, List.length_cons, blocksLoop, if_neg hbad, ← hdata, List.drop_left, List.take_left,
    blocksLoop_congr hlater le_rfl]
  rfl

/-! ### The length of what is decoded -/

/-- The zeros that a frame's blocks make of their ends: one for each block but the last and the CONT
blocks. -/
def impliedZeros (bs : List (Byte × List Byte)) : Nat :=
  (bs.dropLast.filter fun b => b.1 != 0xFF).length

theorem impliedZeros_cons (c : Byte) (data : List Byte) (bs : List (Byte × List Byte)) :
    impliedZeros ((c, data) :: bs) = (if c ≠ 0xFF ∧ bs ≠ [] then 1 else 0) + impliedZeros bs := by
  cases bs with
  | nil => simp [impliedZeros]
  | cons b bs =>
    by_cases hcont : c = 0xFF
    · simp [impliedZeros, hcont]
    · have hcont' : ¬c = 255#8 := hcont
      simp [impliedZeros, hcont', Nat.add_comm]

theorem impliedZeros_le (bs : List (Byte × List Byte)) : impliedZeros bs ≤ bs.length - 1 :=
  (List.length_filter_le _ _).trans_eq List.length_dropLast

/-- A frame of whole blocks decodes to its data bytes and the implied zeros. -/
theorem WholeBlocks.decodedLength {f : List Byte} (h : WholeBlocks f) :
    ∃ bs out, blocks f = some bs ∧ dec f = .ok out ∧ (bs = [] ↔ f = []) ∧
      out.length + bs.length = f.length + impliedZeros bs := by
  induction h with
  | nil => exact ⟨[], [], rfl, rfl, by simp, rfl⟩
  | @block c data rest hc hdata _ ih =>
    obtain ⟨bs, out, hbs, hout, hnil, hlength⟩ := ih
    refine ⟨(c, data) :: bs, _, by rw [blocks_block hc hdata, hbs]; rfl,
      by rw [dec_block hc hdata, hout]; rfl, by simp, ?_⟩
    have hzero : (if c ≠ 0xFF ∧ rest ≠ [] then [0x00] else [] : List Byte).length =
        if c ≠ 0xFF ∧ bs ≠ [] then 1 else 0 := by
      simp only [ne_eq, hnil]
      split_ifs <;> rfl
    rw [impliedZeros_cons, ← hzero]
    simp only [List.length_append, List.length_cons]
    omega

/-- A decoded frame's blocks, with the length of what it decodes to. -/
theorem decoded_length {f out : List Byte} (h : dec f = .ok out) :
    ∃ bs, blocks f = some bs ∧ (bs = [] ↔ f = []) ∧
      out.length + bs.length = f.length + impliedZeros bs := by
  obtain ⟨bs, out', hbs, hout, hnil, hlength⟩ := ((dec_ok_iff f).1 ⟨out, h⟩).decodedLength
  obtain rfl : out' = out := Except.ok.inj (hout.symm.trans h)
  exact ⟨bs, hbs, hnil, hlength⟩

/-- Settles O11: there are fewer implied zeros than blocks. -/
theorem decodedLength : Obligations.DecodedLength := by
  intro f out h
  obtain ⟨bs, hbs, hnil, hlength⟩ := decoded_length h
  have hzeros := impliedZeros_le bs
  refine ⟨⟨bs, hbs, hlength⟩, fun hne => ?_, fun he => ?_⟩
  · have hpos : 0 < bs.length := List.length_pos_iff.2 (mt hnil.1 hne)
    omega
  · rw [he] at h
    exact (Except.ok.inj h).symm

/-! ### Runs (R112) -/

/-- The runs of the rest of the input, where the bytes of `u` stand before it. -/
def runsFrom (u : List Byte) : List Byte → List (List Byte)
  | [] => [u]
  | b :: x => if b = 0x00 then u :: runsFrom [] x else runsFrom (u ++ [b]) x

theorem runsFrom_zero (u x : List Byte) : runsFrom u (0x00 :: x) = u :: runsFrom [] x := rfl

theorem runsFrom_nonzero {b : Byte} (hb : b ≠ 0x00) (u x : List Byte) :
    runsFrom u (b :: x) = runsFrom (u ++ [b]) x := if_neg hb

/-- The bytes before the input join its first run. -/
theorem runsFrom_eq (u x : List Byte) :
    ∃ r rs, runs x = r :: rs ∧ runsFrom u x = (u ++ r) :: rs := by
  induction x generalizing u with
  | nil => exact ⟨[], [], rfl, by simp [runsFrom]⟩
  | cons b x ih =>
    by_cases hb : b = 0x00
    · obtain ⟨r, rs, hruns, hfrom⟩ := ih []
      rw [List.nil_append] at hfrom
      exact ⟨[], runs x, by rw [runs, if_pos hb], by
        rw [hb, runsFrom_zero, hfrom, hruns, List.append_nil]⟩
    · obtain ⟨r, rs, hruns, hfrom⟩ := ih (u ++ [b])
      exact ⟨b :: r, rs, by rw [runs, if_neg hb, hruns], by
        rw [runsFrom_nonzero hb, hfrom, List.append_assoc]; rfl⟩

theorem runsFrom_nil (x : List Byte) : runsFrom [] x = runs x := by
  obtain ⟨r, rs, hruns, hfrom⟩ := runsFrom_eq [] x
  rw [hfrom, hruns, List.nil_append]

theorem runsFrom_ne_nil (u x : List Byte) : runsFrom u x ≠ [] := by
  obtain ⟨r, rs, -, hfrom⟩ := runsFrom_eq u x
  rw [hfrom]
  exact List.cons_ne_nil _ _

/-- The input is its runs and the zeros between them. -/
theorem sum_length_runsFrom (u x : List Byte) :
    ((runsFrom u x).map List.length).sum + (runsFrom u x).length = u.length + x.length + 1 := by
  induction x generalizing u with
  | nil => simp [runsFrom]
  | cons b x ih =>
    by_cases hb : b = 0x00
    · have hrest := ih []
      rw [hb, runsFrom_zero]
      simp only [List.map_cons, List.sum_cons, List.length_cons, List.length_nil] at hrest ⊢
      omega
    · rw [runsFrom_nonzero hb, ih]
      simp only [List.length_append, List.length_cons, List.length_nil]
      omega

/-! ### The length and the blocks of an encoded frame -/

/-- The length of the last run. -/
def lastLength (rs : List (List Byte)) : Nat := (rs.getLast?.getD []).length

/-- 1 where the last run ends in a CONT block, which is then the last block of the frame. -/
def endsInCont (rs : List (List Byte)) : Nat :=
  if 1 ≤ lastLength rs / 254 ∧ lastLength rs % 254 = 0 then 1 else 0

/-- The number of CONT blocks of some runs. -/
def contBlocks (rs : List (List Byte)) : Nat := (rs.map fun r => r.length / 254).sum

theorem lastLength_cons (r : List Byte) {rs : List (List Byte)} (h : rs ≠ []) :
    lastLength (r :: rs) = lastLength rs := by
  rw [lastLength, lastLength, List.getLast?_cons, List.getLast?_eq_some_getLast h]
  rfl

theorem contBlocks_cons (r : List Byte) (rs : List (List Byte)) :
    contBlocks (r :: rs) = r.length / 254 + contBlocks rs := by
  rw [contBlocks, List.map_cons, List.sum_cons, contBlocks]

theorem endsInCont_cons (r : List Byte) {rs : List (List Byte)} (h : rs ≠ []) :
    endsInCont (r :: rs) = endsInCont rs := by
  rw [endsInCont, endsInCont, lastLength_cons r h]

theorem endsInCont_le (rs : List (List Byte)) : endsInCont rs ≤ contBlocks rs := by
  induction rs with
  | nil => decide
  | cons r rs ih =>
    rw [contBlocks_cons]
    cases rs with
    | nil =>
      rw [endsInCont]
      split_ifs with h
      · obtain ⟨hfull, -⟩ := h
        exact le_add_right hfull
      · exact Nat.zero_le _
    | cons r' rs =>
      rw [endsInCont_cons r (List.cons_ne_nil r' rs)]
      exact le_add_left ih

/-- Each CONT block holds 254 bytes of its run. -/
theorem contBlocks_mul_le (rs : List (List Byte)) :
    254 * contBlocks rs ≤ (rs.map List.length).sum := by
  induction rs with
  | nil => decide
  | cons r rs ih =>
    rw [contBlocks_cons, List.map_cons, List.sum_cons]
    omega

/-- The code byte of a block of up to 254 bytes does not overflow (R73). -/
theorem toNat_code {n : Nat} (h : n ≤ 254) : (BitVec.ofNat 8 (n + 1)).toNat = n + 1 := by
  rw [BitVec.toNat_ofNat]
  omega

/-- The block of a run, as `blocks` gives it. -/
def runBlock (r : List Byte) : Byte × List Byte := (BitVec.ofNat 8 (r.length + 1), r)

theorem blocks_blockOf {r : List Byte} (h : r.length ≤ 254) (y : List Byte) :
    blocks (blockOf r ++ y) = (blocks y).map (runBlock r :: ·) := by
  have hcode := toNat_code h
  refine blocks_block (fun hzero => ?_) ?_ y
  · rw [hzero] at hcode
    exact absurd hcode (Nat.succ_ne_zero _).symm
  · rw [runLength, hcode, Nat.add_sub_cancel]

theorem blocks_contBlock {data : List Byte} (hfull : data.length = 254) (y : List Byte) :
    blocks (0xFF :: data ++ y) = (blocks y).map ((0xFF, data) :: ·) :=
  blocks_block (c := 0xFF) (by decide) hfull y

/-- The encoder stands in a run after its bytes `u`: whole CONT blocks of them are sent, the others wait. -/
structure EncoderInRun (u run : List Byte) (afterFull : Bool) : Prop where
  waiting : run.length = u.length % 254
  full : afterFull = true ↔ 1 ≤ u.length / 254 ∧ u.length % 254 = 0

theorem encoderInRun_start : EncoderInRun [] [] false := ⟨rfl, by simp⟩

/-- A byte of the run fills a CONT block, or waits. -/
theorem EncoderInRun.filled {u run : List Byte} {afterFull : Bool}
    (h : EncoderInRun u run afterFull) (hlast : run.length = 253) (b : Byte) :
    EncoderInRun (u ++ [b]) [] true := by
  have hwaiting := h.waiting
  constructor
  · rw [List.length_append, List.length_nil, List.length_singleton]
    omega
  · rw [List.length_append, List.length_singleton]
    simp only [true_iff]
    omega

theorem EncoderInRun.waits {u run : List Byte} {afterFull : Bool}
    (h : EncoderInRun u run afterFull) (hroom : run.length ≠ 253) (b : Byte) :
    EncoderInRun (u ++ [b]) (run ++ [b]) false := by
  have hwaiting := h.waiting
  constructor
  · rw [List.length_append, List.length_append, List.length_singleton]
    omega
  · rw [List.length_append, List.length_singleton]
    simp only [Bool.false_eq_true, false_iff]
    omega

theorem endsInCont_singleton {u run : List Byte} {afterFull : Bool}
    (h : EncoderInRun u run afterFull) : endsInCont [u] = if afterFull = true then 1 else 0 := by
  simp only [endsInCont, h.full]
  rfl

/-- What the encoder still writes, counted: its length and its blocks, beside the CONT blocks of the run under
way that it has written before. -/
theorem encFrom_counts {u run : List Byte} {afterFull : Bool} (h : EncoderInRun u run afterFull)
    (x : List Byte) :
    (encFrom run afterFull x).length + endsInCont (runsFrom u x) + 255 * (u.length / 254) =
        u.length + x.length + 1 + contBlocks (runsFrom u x) ∧
    ∃ bs, blocks (encFrom run afterFull x) = some bs ∧
      bs.length + endsInCont (runsFrom u x) + u.length / 254 =
        (runsFrom u x).length + contBlocks (runsFrom u x) := by
  have hadd (b : Byte) : (u ++ [b]).length = u.length + 1 := List.length_append
  have hwaiting := h.waiting
  induction x generalizing u run afterFull with
  | nil =>
    have hcont : contBlocks [u] = u.length / 254 := Nat.add_zero _
    have hfull := h.full
    rw [encFrom, runsFrom, hcont, endsInCont_singleton h]
    cases afterFull with
    | true =>
      obtain ⟨-, hmod⟩ := hfull.1 rfl
      refine ⟨?_, [], rfl, by simp⟩
      simp only [encodeEnd, if_true, List.length_nil]
      omega
    | false =>
      have hblock := blocks_blockOf (r := run) (by omega) []
      rw [List.append_nil] at hblock
      refine ⟨?_, _, hblock, by simp⟩
      simp only [encodeEnd, blockOf, Bool.false_eq_true, if_false, List.length_cons, List.length_nil]
      omega
  | cons b x ih =>
    rw [encFrom]
    rcases encodeByte_cases run b with ⟨rfl, he⟩ | ⟨hb, hlast, he⟩ | ⟨hb, hroom, he⟩ <;> rw [he]
    · obtain ⟨hlength, bs, hbs, hblocks⟩ := ih encoderInRun_start (fun _ => rfl) rfl
      rw [runsFrom_zero, endsInCont_cons u (runsFrom_ne_nil [] x), contBlocks_cons]
      refine ⟨?_, _, by rw [blocks_blockOf (by omega), hbs]; rfl, ?_⟩
      · simp only [blockOf, List.length_append, List.length_cons, List.length_nil] at hlength ⊢
        omega
      · simp only [List.length_cons, List.length_nil] at hblocks ⊢
        omega
    · have hnext := h.filled hlast b
      obtain ⟨hlength, bs, hbs, hblocks⟩ := ih hnext (fun _ => List.length_append) hnext.waiting
      have hblock : (run ++ [b]).length = 254 := by simp [hlast]
      rw [hadd] at hlength hblocks
      rw [runsFrom_nonzero hb]
      refine ⟨?_, _, by rw [blocks_contBlock hblock, hbs]; rfl, ?_⟩
      · simp only [List.length_append, List.length_cons, List.length_nil] at hlength ⊢
        omega
      · simp only [List.length_cons] at hblocks ⊢
        omega
    · have hnext := h.waits hroom b
      obtain ⟨hlength, bs, hbs, hblocks⟩ := ih hnext (fun _ => List.length_append) hnext.waiting
      rw [hadd] at hlength hblocks
      rw [runsFrom_nonzero hb]
      refine ⟨?_, bs, hbs, ?_⟩
      · simp only [List.length_append, List.length_cons, List.length_nil] at hlength ⊢
        omega
      · omega

/-- The same for the whole of an encoded frame. -/
theorem enc_counts (x : List Byte) :
    (enc x).length + endsInCont (runs x) = x.length + 1 + contBlocks (runs x) ∧
    ∃ bs, blocks (enc x) = some bs ∧
      bs.length + endsInCont (runs x) = (runs x).length + contBlocks (runs x) := by
  have hcounts := encFrom_counts encoderInRun_start x
  simpa [runsFrom_nil, enc] using hcounts

theorem sum_length_runs (x : List Byte) :
    ((runs x).map List.length).sum + (runs x).length = x.length + 1 := by
  simpa [runsFrom_nil] using sum_length_runsFrom [] x

theorem runs_ne_nil (x : List Byte) : runs x ≠ [] := runsFrom_nil x ▸ runsFrom_ne_nil [] x

/-- Settles O7: the bounds hold since the last block is a CONT block only if there is one, and each CONT block
holds 254 of the input's bytes. -/
theorem encodedFrameLengthAndBlockCount : Obligations.EncodedFrameLengthAndBlockCount := by
  rintro x last q e rfl rfl rfl
  obtain ⟨hlength, bs, hbs, hblocks⟩ := enc_counts x
  have hend := endsInCont_le (runs x)
  have hbytes := contBlocks_mul_le (runs x)
  have hsum := sum_length_runs x
  have hruns := List.length_pos_iff.2 (runs_ne_nil x)
  exact ⟨hlength, by omega, by omega, bs, hbs, hblocks⟩

/-! ### The literal encoder (R112) -/

/-- Every run but the last has at most 253 bytes, and the last at most 254. -/
def ShortRuns (rs : List (List Byte)) : Prop :=
  (∀ r ∈ rs.dropLast, r.length ≤ 253) ∧ lastLength rs ≤ 254

theorem shortRuns_cons (r : List Byte) {rs : List (List Byte)} (h : rs ≠ []) :
    ShortRuns (r :: rs) ↔ r.length ≤ 253 ∧ ShortRuns rs := by
  rw [ShortRuns, ShortRuns, lastLength_cons r h, List.dropLast_cons_of_ne_nil h,
    List.forall_mem_cons, and_assoc]

/-- What the literal encoder writes for some runs. -/
def literal (rs : List (List Byte)) : List Nat :=
  rs.flatMap fun r => (r.length + 1) :: r.map BitVec.toNat

theorem literal_cons (r : List Byte) (rs : List (List Byte)) :
    literal (r :: rs) = (r.length + 1) :: r.map BitVec.toNat ++ literal rs := List.flatMap_cons

/-- A run that fills a CONT block is short only at the end of the input. -/
theorem eq_nil_of_shortRuns {u x : List Byte} (hfull : u.length = 254)
    (h : ShortRuns (runsFrom u x)) : x = [] := by
  obtain ⟨r, rs, hruns, hfrom⟩ := runsFrom_eq u x
  have hsum := sum_length_runs x
  rw [hruns] at hsum
  rw [hfrom] at h
  cases rs with
  | nil =>
    obtain ⟨-, hlast⟩ := h
    simp [lastLength, hfull] at hlast hsum
    exact List.length_eq_zero_iff.1 (by rw [← hsum, hlast]; rfl)
  | cons r' rs =>
    obtain ⟨hfirst, -⟩ := (shortRuns_cons _ (List.cons_ne_nil r' rs)).1 h
    rw [List.length_append] at hfirst
    omega

/-- On short runs the encoder writes what the literal one does: the one CONT block it may write ends the
input. -/
theorem encFrom_eq_literal {run : List Byte} (hrun : run.length ≤ 253) {x : List Byte}
    (h : ShortRuns (runsFrom run x)) :
    (encFrom run false x).map BitVec.toNat = literal (runsFrom run x) := by
  induction x generalizing run with
  | nil =>
    have hcode := toNat_linkCode hrun
    simp [encFrom, encodeEnd, blockOf, runsFrom, literal, hcode, -BitVec.toNat_ofNat]
  | cons b x ih =>
    rw [encFrom]
    rcases encodeByte_cases run b with ⟨rfl, he⟩ | ⟨hb, hlast, he⟩ | ⟨hb, hroom, he⟩ <;> rw [he]
    · rw [runsFrom_zero] at h ⊢
      obtain ⟨-, hrest⟩ := (shortRuns_cons run (runsFrom_ne_nil [] x)).1 h
      have hcode := toNat_linkCode hrun
      rw [List.map_append, ih (Nat.zero_le _) hrest, literal_cons, blockOf, List.map_cons, hcode]
    · rw [runsFrom_nonzero hb] at h ⊢
      have hfull : (run ++ [b]).length = 254 := by simp [hlast]
      rw [eq_nil_of_shortRuns hfull h, runsFrom, literal_cons, hfull]
      simp [encFrom, encodeEnd, literal]
    · rw [runsFrom_nonzero hb] at h ⊢
      refine ih ?_ h
      rw [List.length_append, List.length_singleton]
      omega

/-- The literal encoder's numbers, as bytes, are one block for each run. -/
theorem literal_bytes (rs : List (List Byte)) :
    (literal rs).map (BitVec.ofNat 8) = rs.flatMap blockOf := by
  induction rs with
  | nil => rfl
  | cons r rs ih =>
    rw [literal_cons, List.map_append, ih]
    simp [blockOf, Function.comp_def]

/-- Where no run is too long for a code byte, the blocks are the runs. -/
theorem blocks_literal {rs : List (List Byte)} (h : ∀ r ∈ rs, r.length ≤ 254) :
    blocks (rs.flatMap blockOf) = some (rs.map runBlock) := by
  induction rs with
  | nil => rfl
  | cons r rs ih =>
    obtain ⟨hr, hrest⟩ := List.forall_mem_cons.1 h
    rw [List.flatMap_cons, blocks_blockOf hr, ih hrest]
    rfl

theorem length_flatMap_blockOf (rs : List (List Byte)) :
    (rs.flatMap blockOf).length = (rs.map List.length).sum + rs.length := by
  induction rs with
  | nil => rfl
  | cons r rs ih =>
    simp only [List.flatMap_cons, List.length_append, List.map_cons, List.sum_cons,
      List.length_cons, blockOf, ih]
    omega

/-- A block for each run decodes to the input only if each run but the last gets its zero, so has a code
below 0xFF. -/
theorem shortRuns_of_dec_literal {x : List Byte} (hfit : ∀ r ∈ runs x, r.length ≤ 254)
    (hdec : dec ((runs x).flatMap blockOf) = .ok x) : ShortRuns (runs x) := by
  have hblocks := blocks_literal hfit
  obtain ⟨bs, hbs, -, hlength⟩ := decoded_length hdec
  obtain rfl := Option.some.inj (hbs.symm.trans hblocks)
  have hzeros : impliedZeros ((runs x).map runBlock) = ((runs x).map runBlock).dropLast.length := by
    have hsum := sum_length_runs x
    rw [List.length_map, length_flatMap_blockOf] at hlength
    rw [List.length_dropLast, List.length_map]
    omega
  have hcodes := List.length_filter_eq_length_iff.1 hzeros
  refine ⟨fun r hr => ?_, ?_⟩
  · have hmem : runBlock r ∈ ((runs x).map runBlock).dropLast := by
      rw [← List.map_dropLast]
      exact List.mem_map_of_mem hr
    have hle := hfit r (List.mem_of_mem_dropLast hr)
    have hne : r.length ≠ 254 := fun hfull => by
      have hcode : (BitVec.ofNat 8 (r.length + 1) != 0xFF) = true := hcodes _ hmem
      rw [hfull] at hcode
      exact absurd hcode (by decide)
    omega
  · rw [lastLength, List.getLast?_eq_some_getLast (runs_ne_nil x)]
    exact hfit _ (List.getLast_mem _)

/-- Settles O8: on short runs the two write the same; where every run fits a code byte and the decoder undoes
the literal encoder, the runs are short. -/
theorem literalEncoderAgreesExactlyOnShortRuns :
    Obligations.LiteralEncoderAgreesExactlyOnShortRuns := by
  intro x
  constructor
  · intro h
    have hshort : ShortRuns (runsFrom [] x) := by rwa [runsFrom_nil]
    have hliteral := encFrom_eq_literal (Nat.zero_le _) hshort
    rwa [runsFrom_nil] at hliteral
  · intro hlong
    by_contra! hlawful
    obtain ⟨hbytes, hdec⟩ := hlawful
    have hfit (r) (hr : r ∈ runs x) : r.length ≤ 254 := by
      have hcode : r.length + 1 ∈ srcEnc x := List.mem_flatMap.2 ⟨r, hr, List.mem_cons_self⟩
      exact Nat.le_of_succ_le_succ (hbytes _ hcode)
    have hframe : (srcEnc x).map (BitVec.ofNat 8) = (runs x).flatMap blockOf := literal_bytes _
    rw [hframe] at hdec
    exact hlong (shortRuns_of_dec_literal hfit hdec)

end Sys2Proof.Machine
end

section
/-! SUPPORT. How much of a payload the decoders read: the views of its first bytes at several widths, and that
no decoder but the raw one reads past its fourth byte (20_memory.md section 2, 43_register_decode.md section
1). -/

namespace Sys2Proof.Machine

/-- Settles O13: the low byte and the low two bytes of the words that the first bytes make, and the bits of a
read. -/
theorem mixedWidthViewsAgree : Obligations.MixedWidthViewsAgree := by
  intro p hlength
  refine ⟨?_, ?_, ?_, fun i hi => ?bits⟩
  case bits =>
    have hbyte : i / 8 < 4 := by omega
    rw [testBit_memRead p 0 hbyte, Nat.zero_add]
  all_goals
    match p, hlength with
    | b0 :: b1 :: b2 :: b3 :: tail, _ =>
      have hb0 := b0.isLt
      have hb1 := b1.isLt
      simp only [memRead_one, memRead_two, memRead_four, toNat_append_byte]
      omega

/-- A required byte count is at most four: a scalar's width, or the bytes of 32 flags. -/
theorem requiredBytes_le_four {tb : Tables} {t : TypeRef} {w : Nat}
    (h : requiredBytes tb t = some w) : w ≤ 4 := by
  match t with
  | .scalar s =>
    obtain rfl : scalarWidth s = w := Option.some.inj h
    cases s <;> decide
  | .bitfield sel =>
    obtain ⟨flags, hflags, rfl⟩ := Option.map_eq_some_iff.1 h
    have hlength := bfLookup_length_le hflags
    unfold flagBytes
    omega

/-- A type decode is raw, or depends on the first four bytes of the payload. -/
theorem typeDecode_raw_or_congr_take (tb : Tables) (t : TypeRef) {p q : List Byte}
    (h : q.take 4 = p.take 4) :
    typeDecode tb t p = some (.ok (.raw p)) ∨ typeDecode tb t q = typeDecode tb t p := by
  cases hw : requiredBytes tb t with
  | some w =>
    obtain ⟨value, hvalue⟩ := typeDecode_eq_fixedWidth hw
    have htake : q.take w = p.take w := by
      have hmin : min w 4 = w := min_eq_left (requiredBytes_le_four hw)
      rw [← hmin, ← List.take_take, ← List.take_take, h]
    rw [hvalue, hvalue, fixedWidth_congr_take htake]
    exact .inr rfl
  | none =>
    match t with
    | .unknown _ => exact .inl rfl
    | .bitfield sel =>
      have hnone : bfLookup tb sel = none := Option.map_eq_none_iff.1 hw
      simp [typeDecode, hnone]

/-- Settles O17: the first two bytes decide the shape test and the lookup, the first four of the payload the
type decode. -/
theorem onlyTheFirstFiveMessageBytesMatter : Obligations.OnlyTheFirstFiveMessageBytesMatter := by
  intro tb sel m m' htake hraw
  by_cases hshort : m.length < 2
  · have hshort' : m'.length < 2 := by
      have hmin := congrArg List.length htake
      simp only [List.length_take] at hmin
      omega
    rw [regDecode_of_length_lt_two hshort, regDecode_of_length_lt_two hshort']
  match m, m' with
  | [], _ | [_], _ => exact absurd (by simp) hshort
  | _ :: _ :: _, [] | _ :: _ :: _, [_] => simp at htake
  | id :: b :: p, id' :: b' :: p' =>
    obtain ⟨rfl, rfl, hpayload⟩ : id = id' ∧ b = b' ∧ p.take 3 = p'.take 3 := by simpa using htake
    cases hlookup : mapLookup tb sel id with
    | none => rw [regDecode_unknown hlookup, regDecode_unknown hlookup]
    | some e =>
      have hfour : (b :: p').take 4 = (b :: p).take 4 := by simp [hpayload]
      obtain hdecode | hsame := typeDecode_raw_or_congr_take tb e.type hfour
      · exact absurd (regDecode_of_typeDecode hlookup hdecode) (hraw id e.name _)
      · simp only [regDecode, hlookup, hsame]

end Sys2Proof.Machine
end

section
/-! SUPPORT. The beats of FDEC, RDEC, RXDEC and of the block classes as equations with the whole next state
(R139, R188, R193). -/

namespace Sys2Proof.Machine

/-! ### Where a beat goes -/

section
variable {s : State} {rest : List HostEvent} {w : Byte}

/-- A `DATA` beat within the length bound reaches the operation. -/
theorem exec_command_take {take : Byte → State → State}
    (hdata : commandData (decodeCommand w) = receive take) {b : Byte} (hphase : s.phase = .opened)
    (hjob : s.job = none) (hover : s.overLength = false) (hcount : s.count < s.maxLen)
    (hreq : s.req = .data b :: rest) :
    exec (decodeCommand w) s = .next (take b { s with req := rest, count := s.count + 1 }) := by
  rw [exec_command_data w hphase hjob hreq, hdata]
  exact congrArg _ (receive_take (s := { s with req := rest }) hover hcount take b)

/-- `END` within the length bound reaches the operation. -/
theorem exec_command_onEnd {onEnd : State → State}
    (hend : commandEnd (decodeCommand w) = finish onEnd) (hphase : s.phase = .opened)
    (hjob : s.job = none) (hover : s.overLength = false) (hreq : s.req = .endIn :: rest) :
    exec (decodeCommand w) s = .next (onEnd { s with req := rest }) := by
  rw [exec_command_end w hphase hjob hreq, hend]
  exact congrArg _ (finish_within (s := { s with req := rest }) hover onEnd)

end

/-! ### What the decoder makes of a beat -/

section
variable {s : State} {b : Byte} (sink : Byte → State → State)

theorem takeFramed_failed (herr : s.err ≠ none) : takeFramed sink b s = s :=
  if_pos (Option.isSome_iff_ne_none.2 herr)

theorem takeFramed_zero (herr : s.err = none) (hrem : s.rem = 0) :
    takeFramed sink 0x00 s = illegalBlock s := by
  simp [takeFramed, takeCode, herr, hrem]

theorem takeFramed_code (herr : s.err = none) (hrem : s.rem = 0) (hb : b ≠ 0x00) :
    takeFramed sink b s = openBlock sink (runLength b) (b != 0xFF) s := by
  have htake : takeFramed sink b s = takeCode sink b s := by simp [takeFramed, herr, hrem]
  rw [htake, takeCode, if_neg hb]

theorem takeFramed_owed (herr : s.err = none) (hrem : 0 < s.rem) :
    takeFramed sink b s = takeBlockData sink b s := by
  simp [takeFramed, herr, hrem.ne']

/-- FDEC pays an owed zero with an `OUT` beat. -/
theorem openBlock_sinkOut (rem : Nat) (pz : Bool) (s : State) : openBlock sinkOut rem pz s =
    { s with rem := rem, pz := pz, rsp := s.rsp ++ (if s.pz then [.out 0x00] else []) } := by
  cases hpz : s.pz <;> simp [openBlock, sinkOut, emitOut, hpz]

/-- RXDEC pays an owed zero into the message. -/
theorem openBlock_sinkMessage (rem : Nat) (pz : Bool) (s : State) : openBlock sinkMessage rem pz s =
    { s with rem := rem, pz := pz, msg := s.msg ++ (if s.pz then [0x00] else []) } := by
  cases hpz : s.pz <;> simp [openBlock, sinkMessage, hpz]

/-- Only the code 0xFF is not below 255. -/
theorem bne_cont_eq (b : Byte) : (b != 0xFF) = decide (b.toNat < 255) := by
  revert b
  decide

theorem takeFramed_sinkOut_code (herr : s.err = none) (hrem : s.rem = 0) (hb : b ≠ 0x00) :
    takeFramed sinkOut b s = { s with
      rem := b.toNat - 1, pz := decide (b.toNat < 255)
      rsp := s.rsp ++ (if s.pz then [.out 0x00] else []) } := by
  rw [takeFramed_code _ herr hrem hb, openBlock_sinkOut, bne_cont_eq, runLength]

theorem takeFramed_sinkMessage_code (herr : s.err = none) (hrem : s.rem = 0) (hb : b ≠ 0x00) :
    takeFramed sinkMessage b s = { s with
      rem := b.toNat - 1, pz := decide (b.toNat < 255)
      msg := s.msg ++ (if s.pz then [0x00] else []) } := by
  rw [takeFramed_code _ herr hrem hb, openBlock_sinkMessage, bne_cont_eq, runLength]

end

/-! ### What is reported at `END` -/

section
variable {s : State} {id : Byte} {p : List Byte}

/-- An outcome without `OUT` bytes of its own is its `DONE` beat alone. -/
theorem conclude_eq (hjob : s.job = none) {o : CodecOutcome} (hbytes : reportBytes o = []) :
    conclude o s = { s with phase := .idle, rsp := s.rsp ++ [.done (packDone 0 0 o)] } := by
  simp [conclude, report, hbytes, hjob]

theorem conclude_bytes {bs : List Byte} (hjob : s.job = none) : conclude (.bytes bs) s =
    { s with phase := .idle, rsp := s.rsp ++ [.done (bareDone 0x0)] } :=
  conclude_eq hjob rfl

/-- `END` in the middle of a block (R135). -/
theorem endFramed_truncated (onward : State → State) (hjob : s.job = none) (herr : s.err = none)
    (hrem : 0 < s.rem) : endFramed onward s = { s with
      phase := .idle, err := some .truncated, rsp := s.rsp ++ [.done (bareDone 0x9)] } := by
  have hend : endFramed onward s =
      conclude (.hardFail .truncated) { s with err := some .truncated } := by
    simp [endFramed_eq, State.cursor, Cursor.failure, herr, hrem]
  rw [hend]
  exact conclude_eq (s := { s with err := some .truncated }) hjob rfl

/-- `END` of a frame that is lost (R212). -/
theorem endFramed_failed {c : Cause} {status : Nibble} (onward : State → State)
    (hjob : s.job = none) (herr : s.err = some c) (hstatus : causeStatus c = status) :
    endFramed onward s = { s with
      phase := .idle, rsp := s.rsp ++ [.done (bareDone status)] } := by
  have hend : endFramed onward s = conclude (.hardFail c) s := by
    have hsame : { s with err := some c } = s := by rw [← herr]
    simp [endFramed_eq, State.cursor, Cursor.failure, herr, hsame]
  rw [hend, ← hstatus]
  exact conclude_eq hjob rfl

theorem endFramed_whole (onward : State → State) (herr : s.err = none) (hrem : s.rem = 0) :
    endFramed onward s = onward s := by
  simp [endFramed_eq, State.cursor, Cursor.failure, herr, hrem]

/-- The shape test (R182). -/
theorem lookupMessage_short (hjob : s.job = none) (hmsg : s.msg.length < 2) :
    lookupMessage s = { s with phase := .idle, rsp := s.rsp ++ [.done (bareDone 0x2)] } := by
  have hnull : lookupMessage s = conclude .null s := by
    rcases lookupMessage_cases s with ⟨-, h⟩ | ⟨_, _, _, hm, -⟩ | ⟨_, _, _, _, hm, -⟩
    · exact h
    · simp [hm] at hmsg
    · simp [hm] at hmsg
  rw [hnull]
  exact conclude_eq hjob rfl

/-- The lookup that finds nothing (R185). -/
theorem lookupMessage_unknown (hjob : s.job = none) (hmsg : s.msg = id :: p) (hp : 1 ≤ p.length)
    (hlookup : mapLookup s.tables s.map id = none) : lookupMessage s = { s with
      phase := .idle, rsp := s.rsp ++ [.done ⟨0x4, id, id, 0, 0, "", 0⟩] } := by
  have hunknown : lookupMessage s = conclude (.record (.err id (.unknownRegister id))) s := by
    obtain ⟨b, q, rfl⟩ := List.exists_cons_of_length_pos hp
    simp only [lookupMessage, hmsg, hlookup]
  rw [hunknown]
  exact conclude_eq hjob rfl

theorem lookupMessage_found {e : RegistryEntry} (hmsg : s.msg = id :: p) (hp : 1 ≤ p.length)
    (hlookup : mapLookup s.tables s.map id = some e) :
    lookupMessage s = { s with job := some ⟨id, p, e⟩ } := by
  obtain ⟨b, q, rfl⟩ := List.exists_cons_of_length_pos hp
  simp only [lookupMessage, hmsg, hlookup]

end

/-- Settles O22: each beat by what the decoder makes of it, with `OUT` beats for a sink. -/
theorem fdecBeats : Obligations.FdecBeats := by
  intro s rest
  refine ⟨exec_command_cmd 0x02, fun b hphase hjob hover hcount hreq => ?data,
    fun hphase hjob hover hreq => ?ending⟩
  case data =>
    have htake : exec .fdec s =
        .next (takeFramed sinkOut b { s with req := rest, count := s.count + 1 }) :=
      exec_command_take (w := 0x02) rfl hphase hjob hover hcount hreq
    rw [htake]
    refine ⟨fun herr => ?_, fun herr hrem hb => ?_, fun herr hrem hb => ?_, fun herr hrem => ?_⟩
    · exact congrArg _ (takeFramed_failed _ herr)
    · rw [hb]
      exact congrArg _ (takeFramed_zero _ herr hrem)
    · exact congrArg _ (takeFramed_sinkOut_code herr hrem hb)
    · exact congrArg _ (takeFramed_owed _ herr hrem)
  case ending =>
    have hend : exec .fdec s = .next (endFramed (conclude (.bytes [])) { s with req := rest }) :=
      exec_command_onEnd (w := 0x02) rfl hphase hjob hover hreq
    have hwhole (herr : s.err = none) (hrem : s.rem = 0) :
        endFramed (conclude (.bytes [])) { s with req := rest } =
          conclude (.bytes []) { s with req := rest } :=
      endFramed_whole _ (s := { s with req := rest }) herr hrem
    rw [hend]
    refine ⟨fun herr hrem => ?_, fun herr hrem => ?_, fun herr => ?_, fun herr => ?_⟩
    · rw [hwhole herr hrem]
      exact congrArg _ (conclude_bytes hjob)
    · exact congrArg _ (endFramed_truncated _ hjob herr hrem)
    · exact congrArg _ (endFramed_failed _ hjob herr rfl)
    · exact congrArg _ (endFramed_failed _ hjob herr rfl)

/-- Settles O23: each class acts on the state with the beat taken and counted, by its sink. -/
theorem blockClassBeats : Obligations.BlockClassBeats := by
  intro s b c rest hphase hjob hover hcount herr hrem hreq
  have hbeat (act : (Byte → State → State) → State → State) {sink : Byte → State → State}
      (hsink : framedSink s.op = some sink) :
      codeBeat act s = .next (act sink { s with req := rest, count := s.count + 1 }) :=
    codeBeat_eq act s sink b rest hsink hreq
      ((atCode_iff s).2 ⟨hphase, by rw [hsink]; rfl, hjob, hover, hcount, herr, hrem⟩)
  have hfdec (hop : s.op = .fdec) : framedSink s.op = some sinkOut := by rw [hop]; rfl
  have hrxdec (hop : s.op = .rxdec) : framedSink s.op = some sinkMessage := by rw [hop]; rfl
  refine ⟨fun hop => ?_, fun hop _ _ => ?_, fun hop _ _ => ?_, fun hop => ?_, fun hop => ?_⟩
  · obtain hop | hop := hop
    · exact hbeat _ (hfdec hop)
    · exact hbeat _ (hrxdec hop)
  · exact (hbeat _ (hfdec hop)).trans (congrArg _ (openBlock_sinkOut _ _ _))
  · exact (hbeat _ (hrxdec hop)).trans (congrArg _ (openBlock_sinkMessage _ _ _))
  · exact (hbeat _ (hfdec hop)).trans (congrArg _ (openBlock_sinkOut _ _ _))
  · exact (hbeat _ (hrxdec hop)).trans (congrArg _ (openBlock_sinkMessage _ _ _))

/-- The two RDEC words, by their parts. -/
theorem rdec_parts {i : Instr} {w : Byte} {m : MapSel}
    (h : (i = .rdecT ∧ w = 0x03 ∧ m = .tile) ∨ (i = .rdecM ∧ w = 0x0B ∧ m = .master)) :
    i = decodeCommand w ∧ (commandOpen i = fun t => initMessage (openAs .rdec m t)) ∧
      commandData i = receive takeMessage ∧ commandEnd i = finish lookupMessage := by
  obtain ⟨rfl, rfl, rfl⟩ | ⟨rfl, rfl, rfl⟩ := h <;> exact ⟨rfl, rfl, rfl, rfl⟩

/-- The two RXDEC words, by their parts. -/
theorem rxdec_parts {i : Instr} {w : Byte} {m : MapSel}
    (h : (i = .rxdecT ∧ w = 0x04 ∧ m = .tile) ∨ (i = .rxdecM ∧ w = 0x0C ∧ m = .master)) :
    i = decodeCommand w ∧
      (commandOpen i = fun t => initMessage (initDecoder (openAs .rxdec m t))) ∧
      commandData i = receive (takeFramed sinkMessage) ∧
      commandEnd i = finish (endFramed lookupMessage) := by
  obtain ⟨rfl, rfl, rfl⟩ | ⟨rfl, rfl, rfl⟩ := h <;> exact ⟨rfl, rfl, rfl, rfl⟩

/-- Settles O24: each beat by its part, and `END` by the shape test and the lookup. -/
theorem rdecBeats : Obligations.RdecBeats := by
  intro i w m s rest h
  obtain ⟨rfl, hopen, hdata, hend⟩ := rdec_parts h
  refine ⟨fun hphase hreq => ?opening, fun b hphase hjob hover hcount hreq => ?data,
    fun hphase hjob hover hreq => ?ending⟩
  case opening =>
    rw [exec_command_cmd w hphase hreq, hopen]
    rfl
  case data => exact exec_command_take hdata hphase hjob hover hcount hreq
  case ending =>
    rw [exec_command_onEnd hend hphase hjob hover hreq]
    refine ⟨fun hmsg => ?_, fun id p hmsg hp => ⟨fun hlookup => ?_, fun e hlookup => ?_⟩⟩
    · exact congrArg _ (lookupMessage_short hjob hmsg)
    · exact congrArg _ (lookupMessage_unknown hjob hmsg hp hlookup)
    · exact congrArg _ (lookupMessage_found hmsg hp hlookup)

/-- Settles O25: the decoder's beats with the message for a sink, and `END` by the lookup where the frame is
whole. -/
theorem rxdecBeats : Obligations.RxdecBeats := by
  intro i w m s rest h
  obtain ⟨rfl, hopen, hdata, hend⟩ := rxdec_parts h
  refine ⟨fun hphase hreq => ?opening, fun b hphase hjob hover hcount hreq => ?data,
    fun hphase hjob hover hreq => ?ending⟩
  case opening =>
    rw [exec_command_cmd w hphase hreq, hopen]
    rfl
  case data =>
    rw [exec_command_take hdata hphase hjob hover hcount hreq]
    refine ⟨fun herr => ?_, fun herr hrem hb => ?_, fun herr hrem hb => ?_, fun herr hrem => ?_⟩
    · exact congrArg _ (takeFramed_failed _ herr)
    · rw [hb]
      exact congrArg _ (takeFramed_zero _ herr hrem)
    · exact congrArg _ (takeFramed_sinkMessage_code herr hrem hb)
    · exact congrArg _ (takeFramed_owed _ herr hrem)
  case ending =>
    rw [exec_command_onEnd hend hphase hjob hover hreq]
    have hwhole (herr : s.err = none) (hrem : s.rem = 0) :
        endFramed lookupMessage { s with req := rest } = lookupMessage { s with req := rest } :=
      endFramed_whole lookupMessage (s := { s with req := rest }) herr hrem
    refine ⟨fun herr => ?_, fun herr => ?_, fun herr hrem => ?_, fun herr hrem hmsg => ?_,
      fun id p herr hrem hmsg hp => ⟨fun hlookup => ?_, fun e hlookup => ?_⟩⟩
    · exact congrArg _ (endFramed_failed _ hjob herr rfl)
    · exact congrArg _ (endFramed_failed _ hjob herr rfl)
    · exact congrArg _ (endFramed_truncated _ hjob herr hrem)
    · rw [hwhole herr hrem]
      exact congrArg _ (lookupMessage_short hjob hmsg)
    · rw [hwhole herr hrem]
      exact congrArg _ (lookupMessage_unknown hjob hmsg hp hlookup)
    · rw [hwhole herr hrem]
      exact congrArg _ (lookupMessage_found hmsg hp hlookup)

end Sys2Proof.Machine
end

section
/-! SUPPORT. The step as the instruction that it runs (30_encoding.md sections 2 and 9), and the instructions
that are run where the block reads none. -/

namespace Sys2Proof.Machine

/-! ### What follows an instruction in its step -/

section
variable {s : State} {rest : List HostEvent}

/-- A step runs the instruction it fetches, then what that leaves under way. -/
theorem step_of_fetch {f : Format} {bytes : List Byte} {i : Instr}
    (hfetch : fetch s = some (f, bytes)) (hdecode : decode f bytes = .ok i) :
    step s = finishType (exec i s) := by
  simp only [step, hfetch, runWord, hdecode]

/-- A type decode that an instruction leaves under way is the instruction of its type. -/
theorem finishType_exec {t : State} {j : TypeJob} (hjob : t.job = some j) :
    finishType (.next t) = exec (typeInstr j.entry.type) t := by
  simp only [finishType, hjob, runWord, decode_typeWord]

/-- Settles O32: the instruction is run, then `finishType` by what it leaves. -/
theorem stepRunsTheDecodedInstruction : Obligations.StepRunsTheDecodedInstruction := by
  intro s f bytes i hfetch hdecode
  rw [step_of_fetch hfetch hdecode]
  refine ⟨fun r hr => ?_, fun t ht hjob => ?_, fun t j ht hjob => ?_⟩
  · rw [hr, finishType_refused]
  · rw [ht, finishType_none hjob]
  · rw [ht]
    exact ⟨_, decode_typeWord _, finishType_exec hjob⟩

/-! ### The instruction in position -/

/-- A command on offer to a block at rest is the instruction of the step. -/
theorem step_eq_exec_cmd {w : Byte} (hphase : s.phase = .idle) (hjob : s.job = none)
    (hreq : s.req = .cmd w :: rest) : step s = exec (decodeCommand w) s := by
  rw [step_cmd ⟨hphase, hjob⟩ hreq, exec_command_cmd w hphase hreq]

/-- A `DATA` beat is run by the operation under way. -/
theorem step_eq_exec_data {b : Byte} (hphase : s.phase = .opened) (hjob : s.job = none)
    (hreq : s.req = .data b :: rest) : step s = exec (underWay s) s := by
  rw [step_data hphase hjob hreq]
  exact (exec_command_data _ hphase hjob hreq).symm

/-- At a block boundary the class of the code byte does the same. -/
theorem step_eq_exec_code {b : Byte} (hcode : s.atCode = true) (hreq : s.req = .data b :: rest) :
    step s = exec (decodeCode b) s := by
  obtain ⟨hphase, hframed, hjob, -⟩ := (atCode_iff s).1 hcode
  obtain ⟨sink, hsink⟩ := Option.isSome_iff_exists.1 hframed
  rw [step_data hphase hjob hreq, commandData_underWay s sink hsink,
    exec_decodeCode s b rest sink hsink hreq hcode]

/-- `END` is run by the operation under way, and a type decode that it leaves follows. -/
theorem step_eq_exec_end (hphase : s.phase = .opened) (hjob : s.job = none)
    (hreq : s.req = .endIn :: rest) : step s = finishType (exec (underWay s) s) := by
  rw [step_end hphase hjob hreq]
  exact congrArg finishType (exec_command_end _ hphase hjob hreq).symm

/-- Where the operation has no lookup, its `END` is the whole of the step. -/
theorem step_eq_exec_end_of_job (hphase : s.phase = .opened) (hjob : s.job = none)
    (hreq : s.req = .endIn :: rest)
    (hnone : (commandEnd (underWay s) { s with req := rest }).job = none) :
    step s = exec (underWay s) s := by
  rw [step_end hphase hjob hreq, finishType_none hnone]
  exact (exec_command_end _ hphase hjob hreq).symm

end

theorem finish_job {onEnd : State → State} {s : State} (h : (onEnd s).job = none) :
    (finish onEnd s).job = none := by
  rcases finish_cases onEnd s with ⟨-, he⟩ | ⟨-, he⟩ <;> rw [he]
  · rfl
  · exact h

theorem endFramed_conclude_job (o : CodecOutcome) (s : State) :
    (endFramed (conclude o) s).job = none := by
  rcases endFramed_cases (conclude o) s with ⟨-, -, he⟩ | ⟨_, -, he⟩ | ⟨-, -, he⟩ <;> rw [he] <;>
    rfl

/-- Settles O33: each position by its rule, with the instruction of the operation under way. -/
theorem stepRunsTheInstructionInPosition : Obligations.StepRunsTheInstructionInPosition := by
  intro s rest
  refine ⟨fun w => step_eq_exec_cmd, fun b hphase hjob hreq => ?data,
    fun hphase hjob hreq => ?ending, finishType_none, fun j hjob => ⟨?job, fun hreq => ?placed⟩⟩
  case data =>
    have hstep := step_eq_exec_data hphase hjob hreq
    refine ⟨fun hop => ?_, fun hop => ?_, fun w hop hw => ?_, fun hover hcount herr hrem hop => ?_,
      fun _ => ⟨fun hop => ?_, fun hop => ?_⟩⟩
    · rw [hstep, underWay_fenc s hop]
    · exact hstep.trans (congrArg (exec · s) (underWay_rdec s hop))
    · rw [hstep, underWay_reserved hop hw]
    · have hframed : (framedSink s.op).isSome = true := by
        obtain hop | hop := hop <;> rw [hop] <;> rfl
      exact step_eq_exec_code
        ((atCode_iff s).2 ⟨hphase, hframed, hjob, hover, hcount, herr, hrem⟩) hreq
    · rw [hstep, underWay_fdec s hop]
    · exact hstep.trans (congrArg (exec · s) (underWay_rxdec s hop))
  case ending =>
    have hstep := step_eq_exec_end hphase hjob hreq
    have hwhole := step_eq_exec_end_of_job hphase hjob hreq
    refine ⟨fun hop => ?_, fun hop => ?_, fun hop => ?_, fun hop => ?_, fun w hop hw => ?_⟩
    · rw [underWay_fenc s hop] at hwhole
      exact hwhole (finish_job rfl)
    · rw [underWay_fdec s hop] at hwhole
      exact hwhole (finish_job (endFramed_conclude_job _ _))
    · exact hstep.trans (congrArg (fun i => finishType (exec i s)) (underWay_rdec s hop))
    · exact hstep.trans (congrArg (fun i => finishType (exec i s)) (underWay_rxdec s hop))
    · rw [underWay_reserved hop hw] at hwhole
      exact hwhole rfl
  case job => exact finishType_exec hjob
  case placed =>
    rw [finishType_some hjob]
    simp only [step_eq, hreq, hjob]

/-! ### Instructions out of position (R76, U13) -/

theorem fieldDecode_off {s : State} (hjob : s.job = none) (tt : Nibble) (bfsel : Byte)
    (decoder : List Byte → Except SoftError Value) :
    fieldDecode tt bfsel decoder s = .refused .outOfPosition := by
  simp only [fieldDecode, hjob]

/-- TD.BF stops where the table has no well-formed type at its selector. -/
theorem exec_tdBf_malformed {s : State} {sel : Byte} (h : bfLookup s.tables sel = none) :
    exec (.tdBf sel) s = .refused .malformedTables := by
  simp only [exec, execTdBf, h]

/-- Settles O36: each instruction by the operation that it is, out of its position. -/
theorem ownStopsAreRefusedByName : Obligations.OwnStopsAreRefusedByName := by
  intro s
  refine ⟨fun hcode c => ?code, fun hjob => ?field, fun sel hsel => ?range,
    fun sel name flags htype hbad => ?malformed, fun rest hjob hreq => ?ending⟩
  case code =>
    simp only [List.forall_mem_cons]
    exact ⟨codeBeat_off _ s hcode, codeBeat_off _ s hcode, codeBeat_off _ s hcode, nofun⟩
  case field =>
    simp only [List.forall_mem_cons]
    exact ⟨fieldDecode_off hjob _ _ _, fieldDecode_off hjob _ _ _, fieldDecode_off hjob _ _ _,
      fieldDecode_off hjob _ _ _, fieldDecode_off hjob _ _ _, fieldDecode_off hjob _ _ _, nofun⟩
  case range =>
    refine exec_tdBf_malformed ?_
    rw [bfLookup, List.getElem?_eq_none hsel]
  case malformed =>
    have hwf : (⟨name, flags⟩ : BitfieldType).wf = false := by
      simp only [BitfieldType.wf, Bool.and_eq_false_iff, decide_eq_false_iff_not, not_le]
      exact hbad
    refine exec_tdBf_malformed ?_
    simp only [bfLookup, htype, hwf]
    rfl
  case ending =>
    obtain ⟨j, hj⟩ := Option.ne_none_iff_exists'.1 hjob
    exact step_end_afterEnd hj hreq

end Sys2Proof.Machine
end
